-- ==== Sys2Proof/Word.lean ====
section
/-!
DEFINITION. The word types of the CORE: the 32-bit bus and register word, the 8-bit sample, the 2-bit channel field.
-/

namespace Sys2Proof

/-- One 8-bit cell: a colour component, a sample, a payload byte (00_scope.md R14). -/
abbrev Byte := BitVec 8

/-- One 32-bit word of the bus, a register or a subband cell (00_scope.md R7, R10). -/
abbrev Word := BitVec 32

/-- The channel field `ch`, bits 9:8 of a command word (30_encoding.md R90). -/
abbrev ChannelField := BitVec 2

end Sys2Proof
end

