-- ==== Sys2Proof/Config.lean ====
section
/-!
DEFINITION. The parameters of 00_scope.md R6 and R7, and the free values of 93_implementation_defined.md U1 and U2.
-/

namespace Sys2Proof

/-- Where the rounding of an exact half goes (92_eei_decisions.md D3, parameter `TIE`). -/
inductive Tie where
  | halfUp
  | halfEven
deriving DecidableEq, Repr

/-- Which position wins when several share the greatest absolute value (92_eei_decisions.md D7, U12). -/
inductive ArgMaxTie where
  | least
  | greatest
deriving DecidableEq, Repr

/-- `MIN_AREA` (R6): the least legal `rows * cols`. -/
abbrev Config.minArea : Nat := 65536

/-- `MAX_AREA` (R6): the greatest legal `rows * cols`. -/
abbrev Config.maxArea : Nat := 16777216

/-- `PMAX` (R7, D14): bytes of each payload buffer, the greatest legal `WMBYTES`. -/
abbrev Config.pmax : Nat := 256

/-- `VMAX` (R7, D14): number of vote-counter pairs. -/
abbrev Config.vmax : Nat := 8 * Config.pmax

/-- `SCALE_MAX` (R7, D11): the greatest legal scale. -/
abbrev Config.scaleMax : Int := 32767

/-- The least legal block size (R7, D10). -/
abbrev Config.minBlock : Nat := 2

/-- The greatest legal block size (R7, D10). -/
abbrev Config.maxBlock : Nat := 64

/-- `TIE` (R7, D3). DESIGN CHOICE of the spec, log 12. -/
def Config.tie : Tie := .halfUp

/-- `HAAR_DIV` (R7, D5): divisor of the Haar sums, 1, 2 or 4. DESIGN CHOICE of the spec, log 12. -/
def Config.haarDiv : Nat := 2

/-- The tie-break of the dominant position (D7, U12). DESIGN CHOICE of the spec, log 12. -/
def Config.argMaxTie : ArgMaxTie := .least

/-- Free value (U1, U3; log 4, log 6): what the byte at a bus address of a big buffer holds after the hard reset
number `epoch`, before anything has written it. -/
opaque Config.powerOn (epoch address : Nat) : Byte

/-- Free value (U2; log 5): the word returned by the `n`-th buffer read made while `BUSY = 1`. -/
opaque Config.busyRead (n : Nat) : Word

end Sys2Proof
end

