-- ==== Sys2Proof/Machine/State.lean ====
section
/-!
DEFINITION. The state of the CORE (10_state.md), the host's transactions and their answers, the stops, and reset.
-/

namespace Sys2Proof.Machine

/-- The fields of `STATUS` (10_state.md R25). The reserved bits read 0 and have no storage. -/
structure Status where
  /-- Bit 0: a command is in flight. -/
  busy : Bool
  /-- Bit 1: the last accepted command has completed. -/
  done : Bool
  /-- Bit 2: a fault is recorded. -/
  err : Bool
  /-- Bit 3: the host broke the access protocol. -/
  ovr : Bool
  /-- Bit 4: the last `TALLY` or `DECODE` met a bit position with no vote. -/
  empty : Bool
  /-- Bits 15:8: the fault code (60_exceptions.md R221). -/
  errCode : Byte
deriving DecidableEq, Repr

/-- The stored fields of `CTRL` (10_state.md R26). `SRST` is an action, not storage. -/
structure Ctrl where
  /-- Bit 1: interrupt enable for `DONE`. -/
  ieDone : Bool
  /-- Bit 2: interrupt enable for `ERR`. -/
  ieErr : Bool
deriving DecidableEq, Repr

/-- What the host or the reset input can do to the CORE (20_memory.md R60, 70_reset_and_hazards.md R250). -/
inductive HostOp where
  /-- `MemRead(addr, width)`, width in bytes. -/
  | read (addr : Word) (width : Nat)
  /-- `MemWrite(addr, width, value)`, width in bytes. -/
  | write (addr : Word) (width : Nat) (value : Word)
  /-- The reset input is asserted and released (R250; log 6). -/
  | hardReset
deriving DecidableEq, Repr

/-- A host transaction to come. `overlaps` says where it lands when a command is in flight: before its completion
(true) or after it (false). DESIGN CHOICE, log 2. -/
structure Arrival where
  op : HostOp
  overlaps : Bool
deriving DecidableEq, Repr

/-- The answer of the port to one transaction (R60). DESIGN CHOICE to record it, log 3. -/
inductive Reply where
  /-- A read returned this word. -/
  | data (w : Word)
  /-- A write was taken (or dropped without an error, R64). -/
  | written
  /-- The transaction was answered with a bus error (R61, R62). -/
  | busError
deriving DecidableEq, Repr

/-- The buffers: bytes by bus address (20_memory.md R61), in the canonical form of `Memory.wf`. What an unlisted
address reads as is `resetByte`, or a free value where the spec gives no reset contents (log 4, log 19). -/
abbrev Memory := List Host.Cell

/-- The state of the CORE: every register of 10_state.md R21, the buffers of R32 to R37, and the model's own fields
`epoch`, `freeReads`, `pending`, `replies` (log 2 to log 6). -/
structure State where
  /-- x[0] (R24). -/
  cmd : Word
  /-- x[1] (R25). -/
  status : Status
  /-- x[2] (R26). -/
  ctrl : Ctrl
  /-- x[3] (R27). -/
  rows : Word
  /-- x[4] (R27). -/
  cols : Word
  /-- x[5] (R28). -/
  bsize : Word
  /-- x[6] (R29). -/
  scale0 : Word
  /-- x[7] (R29). -/
  scale1 : Word
  /-- x[8] (R29). -/
  scale2 : Word
  /-- x[9] (R30). -/
  submode : Word
  /-- x[10] (R31). -/
  wmbytes : Word
  /-- `PIN`, `POUT`, `ONES`, `TOTAL`, `RGB`, the planes and the subbands (R32 to R37). -/
  mem : Memory
  /-- Model's own: number of hard resets, index of the free contents of the big buffers (log 4, log 6). -/
  epoch : Nat
  /-- Model's own: number of buffer reads made while `BUSY = 1`, index of the free value (log 5). -/
  freeReads : Nat
  /-- Model's own: the host transactions to come (log 2). -/
  pending : List Arrival
  /-- Model's own: the answers given, newest first (log 3). -/
  replies : List Reply
deriving DecidableEq, Repr

/-- Why the machine stops. The spec's faults and bus errors are next states, not stops. -/
inductive Fault where
  /-- Raised by a completion (30_encoding.md R97) when the word in flight is no command of R92. The spec gives such a
  completion no effect and no issue leads to one (R95). Safe: no run from reset reaches it (log 8). -/
  | illegalInFlight
deriving DecidableEq, Repr

/-- Why the model gives no meaning. -/
inductive Refusal where
  /-- Raised by an arm of `exec` for a command with no meaning yet. Safe. No arm of this model raises it. -/
  | notModelled (mnemonic : String)
deriving DecidableEq, Repr

/-- `STATUS` after reset: all fields 0 (R21, R25). -/
def Status.reset : Status :=
  { busy := false, done := false, err := false, ovr := false, empty := false, errCode := 0#8 }

/-- `CTRL` after reset: both enables off (R21, R26). -/
def Ctrl.reset : Ctrl := { ieDone := false, ieErr := false }

/-- The state right after the hard reset at power-on (10_state.md R21, R22, R39; 70_reset_and_hazards.md R250).
With no cell listed, `PIN`, `POUT`, `ONES` and `TOTAL` read their reset contents and the big buffers are free. The
model's own fields are empty or 0: DESIGN CHOICE, log 10. -/
def State.reset : State :=
  { cmd := 0x00000000#32
    status := Status.reset
    ctrl := Ctrl.reset
    rows := 0x00000000#32
    cols := 0x00000000#32
    bsize := 0x00000004#32
    scale0 := 0x00000000#32
    scale1 := 0x00000024#32
    scale2 := 0x00000024#32
    submode := 0x00000000#32
    wmbytes := 0x00000004#32
    mem := []
    epoch := 0
    freeReads := 0
    pending := []
    replies := [] }

end Sys2Proof.Machine
end

