-- ==== Sys2Proof/Machine/Memory.lean ====
section
/-!
DEFINITION. The address map (20_memory.md R61), the reset contents of the buffers, and the canonical byte memory.
-/

namespace Sys2Proof.Machine

/-- The three channels (30_encoding.md R91): plane 0 is Y, 1 is U, 2 is V. -/
inductive Channel where
  | y
  | u
  | v
deriving DecidableEq, Repr

/-- The four subbands (10_state.md R34). -/
inductive Subband where
  | sa
  | sh
  | sv
  | sd
deriving DecidableEq, Repr

/-- The windows of the address map (R61). -/
inductive Window where
  | reg
  | pin
  | pout
  | ones
  | total
  | rgb
  | plane (ch : Channel)
  | subband (b : Subband)
deriving DecidableEq, Repr

/-- The channel number (R91). -/
def Channel.index : Channel → Nat
  | .y => 0
  | .u => 1
  | .v => 2

/-- The number of a subband in the order of the map (R68). -/
def Subband.index : Subband → Nat
  | .sa => 0
  | .sh => 1
  | .sv => 2
  | .sd => 3

/-- First byte of the payload input window (R61, R69). -/
def pinBase : Nat := 0x00001000

/-- First byte of the payload output window (R61, R69). -/
def poutBase : Nat := 0x00001100

/-- First byte of the `ONES` window (R61, R70). -/
def onesBase : Nat := 0x00004000

/-- First byte of the `TOTAL` window (R61, R70). -/
def totalBase : Nat := 0x00006000

/-- First byte of the pixel window (R61, R66). -/
def rgbBase : Nat := 0x04000000

/-- First byte of the window of plane `ch` (R67). -/
def planeBase (ch : Channel) : Nat := 0x08000000 + ch.index * 0x01000000

/-- First byte of the window of a subband (R68). -/
def subbandBase (b : Subband) : Nat := 0x0C000000 + b.index * 0x01000000

/-- The window a byte address lies in (R61); `none` is an unmapped address. -/
def windowOf (a : Nat) : Option Window :=
  if a < 0x00001000 then some .reg
  else if a < 0x00001100 then some .pin
  else if a < 0x00001200 then some .pout
  else if a < 0x00004000 then none
  else if a < 0x00006000 then some .ones
  else if a < 0x00008000 then some .total
  else if a < 0x04000000 then none
  else if a < 0x08000000 then some .rgb
  else if a < 0x09000000 then some (.plane .y)
  else if a < 0x0A000000 then some (.plane .u)
  else if a < 0x0B000000 then some (.plane .v)
  else if a < 0x0C000000 then none
  else if a < 0x0D000000 then some (.subband .sa)
  else if a < 0x0E000000 then some (.subband .sh)
  else if a < 0x0F000000 then some (.subband .sv)
  else if a < 0x10000000 then some (.subband .sd)
  else none

/-- Whether a byte address has a cell of a buffer behind it: every byte of the buffer windows but the fourth byte of a
pixel word, which reads 0 and ignores writes (R66). -/
def stored (a : Nat) : Bool :=
  match windowOf a with
  | none => false
  | some .reg => false
  | some .rgb => a % 4 != 3
  | some _ => true

/-- The reset text of `PIN`, "SDV2" and zeros (10_state.md R35). -/
def pinReset (k : Nat) : Byte :=
  if k = 0 then 0x53#8
  else if k = 1 then 0x44#8
  else if k = 2 then 0x56#8
  else if k = 3 then 0x32#8
  else 0x00#8

/-- What an unlisted address reads as, where the spec gives reset contents: `PIN` (R35), `POUT` (R36), `ONES` and
`TOTAL` (R37). `none` for the big buffers, whose contents are free (R39; log 4). -/
def resetByte (a : Nat) : Option Byte :=
  match windowOf a with
  | some .pin => some (pinReset (a - pinBase))
  | some .pout => some 0x00#8
  | some .ones => some 0x00#8
  | some .total => some 0x00#8
  | _ => none

/-- The canonical form (log 19): addresses strictly rising, each with a cell behind it, and no entry equal to what the
unlisted address reads as. -/
abbrev Memory.wf (m : Memory) : Prop :=
  m.Pairwise (fun c d => c.1 < d.1) ∧ ∀ c ∈ m, stored c.1 = true ∧ resetByte c.1 ≠ some c.2

/-- The listed byte at an address, if there is one. -/
def Memory.get? : Memory → Nat → Option Byte
  | [], _ => none
  | c :: m, a => if c.1 = a then some c.2 else Memory.get? m a

/-- The entry that a byte written at an address makes: none where the address has no cell, and none where the byte is
what the unlisted address reads as. -/
def Memory.entry (a : Nat) (b : Byte) : Option Host.Cell :=
  if stored a = true ∧ resetByte a ≠ some b then some (a, b) else none

/-- The one write: byte `f k` at address `lo + k` for every `k < n`, all other addresses as before. -/
def Memory.fill (m : Memory) (lo n : Nat) (f : Nat → Byte) : Memory :=
  m.filter (fun c => decide (c.1 < lo))
    ++ (List.range n).filterMap (fun k => Memory.entry (lo + k) (f k))
    ++ m.filter (fun c => decide (lo + n ≤ c.1))

/-- Put the addresses `lo` to `lo + n - 1` back to their reset contents. -/
def Memory.restore (m : Memory) (lo n : Nat) : Memory :=
  m.filter (fun c => decide (c.1 < lo ∨ lo + n ≤ c.1))

/-- Byte `k` of a word, the least significant first (R63). -/
def byteOf (w : Word) (k : Nat) : Byte := w.extractLsb' (8 * k) 8

/-- The word whose bytes are given from the least significant up (R63). -/
def wordOf (b0 b1 b2 b3 : Byte) : Word := b3 ++ b2 ++ b1 ++ b0

/-- Words `f j` for `j < n`, packed from byte address `base` (R63, R66, R68, R70). -/
def Memory.fillWords (m : Memory) (base n : Nat) (f : Nat → Word) : Memory :=
  m.fill base (4 * n) (fun k => byteOf (f (k / 4)) (k % 4))

end Sys2Proof.Machine
end

