-- ==== Sys2Proof/Machine/Arith.lean ====
section
/-!
DEFINITION. The arithmetic of 00_scope.md R9 and R10: clip and round, and the wrap of a result to 32 bits.
-/

namespace Sys2Proof.Machine

/-- `rnd(n / d)` for `n ≥ 0` (00_scope.md R9), with the tie rule as a parameter (92_eei_decisions.md D3). -/
def roundDiv (t : Tie) (n d : Nat) : Nat :=
  match t with
  | .halfUp => (2 * n + d) / (2 * d)
  | .halfEven =>
    if 2 * (n % d) < d then n / d
    else if d < 2 * (n % d) then n / d + 1
    else n / d + n / d % 2

/-- `cr(n / d)` (R9): clip to 0 to 255, then round. -/
def clipRound (n : Int) (d : Nat) : Byte :=
  if n ≤ 0 then 0x00#8
  else if 255 * (d : Int) ≤ n then 0xFF#8
  else BitVec.ofNat 8 (roundDiv Config.tie n.toNat d)

/-- `wrap32(n)` (R10), as the word that stands for it. -/
def wrap32 (n : Int) : Word := BitVec.ofInt 32 n

end Sys2Proof.Machine
end

