-- ==== Sys2Proof/Syntax.lean ====
section
/-!
DEFINITION. The twelve commands of 30_encoding.md R92, one constructor for each row of the opcode table.
-/

namespace Sys2Proof

/-- A command. The operand of a `CMDC` command is the field `ch` as the word carries it (R90); the value 3 is illegal
and is refused by `Instr.wellFormed`. -/
inductive Instr where
  /-- 45_codec.md R195. -/
  | nop
  /-- 40_colour.md R112. -/
  | rgb2yuv
  /-- 40_colour.md R115. -/
  | yuv2rgb
  /-- 41_subsample.md R132. -/
  | subsamp
  /-- 42_wavelet.md R143. -/
  | dwtfwd (ch : ChannelField)
  /-- 42_wavelet.md R146. -/
  | dwtinv (ch : ChannelField)
  /-- 43_embed.md R164. -/
  | embed (ch : ChannelField)
  /-- 44_extract_vote.md R178. -/
  | extract (ch : ChannelField)
  /-- 44_extract_vote.md R176. -/
  | vclear
  /-- 44_extract_vote.md R182. -/
  | tally
  /-- 45_codec.md R197. -/
  | encode
  /-- 45_codec.md R200. -/
  | decode
deriving DecidableEq, Repr

end Sys2Proof
end

