-- ==== Sys2Proof/WellFormed.lean ====
section
/-!
DEFINITION. Which command terms have an encoding: 30_encoding.md R90, "3 is illegal" for the channel operand.
-/

namespace Sys2Proof

/-- The channel operand is 0, 1 or 2 (R90, R92). -/
def channelLegal (ch : ChannelField) : Bool := ch != 3#2

/-- A command of format `CMD0` has no operand; one of format `CMDC` has a legal channel. -/
def Instr.wellFormed : Instr → Bool
  | .nop => true
  | .rgb2yuv => true
  | .yuv2rgb => true
  | .subsamp => true
  | .dwtfwd ch => channelLegal ch
  | .dwtinv ch => channelLegal ch
  | .embed ch => channelLegal ch
  | .extract ch => channelLegal ch
  | .vclear => true
  | .tally => true
  | .encode => true
  | .decode => true

end Sys2Proof
end

