-- ==== Sys2Proof/Decode.lean ====
section
/-!
DEFINITION. Decoder and encoder of the command word, from the fields of 30_encoding.md R90 and the map of R92.
-/

namespace Sys2Proof

/-- Why a word is illegal (R93), by name. -/
inductive DecodeError where
  /-- Bits 31:10 are not zero. -/
  | upperBitsSet
  /-- `op` is 0x0C to 0xFF. -/
  | unknownOpcode
  /-- `ch = 3` in a `CMDC` command. -/
  | illegalChannel
  /-- `ch ≠ 0` in a `CMD0` command. -/
  | unexpectedChannel
deriving DecidableEq, Repr

/-- Field `op`, bits 7:0 (R90). -/
def opField (w : Word) : BitVec 8 := w.extractLsb' 0 8

/-- Field `ch`, bits 9:8 (R90). -/
def chField (w : Word) : ChannelField := w.extractLsb' 8 2

/-- Field `zero`, bits 31:10 (R90). -/
def zeroField (w : Word) : BitVec 22 := w.extractLsb' 10 22

/-- Format `CMD0`: the channel field must be 0 (R90). -/
def cmd0 (i : Instr) (ch : ChannelField) : Except DecodeError Instr :=
  if ch = 0#2 then .ok i else .error .unexpectedChannel

/-- Format `CMDC`: the channel field must be 0 to 2 (R90). -/
def cmdC (i : ChannelField → Instr) (ch : ChannelField) : Except DecodeError Instr :=
  if channelLegal ch then .ok (i ch) else .error .illegalChannel

/-- The decoder (R92, R93): total, every word is exactly one command or illegal. -/
def decode (w : Word) : Except DecodeError Instr :=
  if zeroField w ≠ 0#22 then .error .upperBitsSet
  else if opField w = 0x00#8 then cmd0 .nop (chField w)
  else if opField w = 0x01#8 then cmd0 .rgb2yuv (chField w)
  else if opField w = 0x02#8 then cmd0 .yuv2rgb (chField w)
  else if opField w = 0x03#8 then cmd0 .subsamp (chField w)
  else if opField w = 0x04#8 then cmdC .dwtfwd (chField w)
  else if opField w = 0x05#8 then cmdC .dwtinv (chField w)
  else if opField w = 0x06#8 then cmdC .embed (chField w)
  else if opField w = 0x07#8 then cmdC .extract (chField w)
  else if opField w = 0x08#8 then cmd0 .vclear (chField w)
  else if opField w = 0x09#8 then cmd0 .tally (chField w)
  else if opField w = 0x0A#8 then cmd0 .encode (chField w)
  else if opField w = 0x0B#8 then cmd0 .decode (chField w)
  else .error .unknownOpcode

/-- The opcode of a command (R92). -/
def Instr.opcode : Instr → BitVec 8
  | .nop => 0x00#8
  | .rgb2yuv => 0x01#8
  | .yuv2rgb => 0x02#8
  | .subsamp => 0x03#8
  | .dwtfwd _ => 0x04#8
  | .dwtinv _ => 0x05#8
  | .embed _ => 0x06#8
  | .extract _ => 0x07#8
  | .vclear => 0x08#8
  | .tally => 0x09#8
  | .encode => 0x0A#8
  | .decode => 0x0B#8

/-- The channel field of a command, 0 where it has no operand (R90). -/
def Instr.channelField : Instr → ChannelField
  | .nop => 0#2
  | .rgb2yuv => 0#2
  | .yuv2rgb => 0#2
  | .subsamp => 0#2
  | .dwtfwd ch => ch
  | .dwtinv ch => ch
  | .embed ch => ch
  | .extract ch => ch
  | .vclear => 0#2
  | .tally => 0#2
  | .encode => 0#2
  | .decode => 0#2

/-- The encoder: the command word of R90, `op + (ch << 8)` (R98). -/
def encode (i : Instr) : Word := 0#22 ++ i.channelField ++ i.opcode

/-- The instruction the decoder reads from a table word: a command is one 32-bit word (R90), so a numeral with a bit
above bit 31 is no command. -/
def decodeTableWord (nbits w : Nat) : Option Instr :=
  let v := w % 2 ^ nbits
  if v < 2 ^ 32 then (decode (BitVec.ofNat 32 v)).toOption else none

end Sys2Proof
end

