-- ==== Sys2Proof/Machine/Flags.lean ====
section
/-!
DEFINITION. The status flags: the bus view of `STATUS` and `CTRL`, the fault codes, the interrupt line.
-/

namespace Sys2Proof.Machine

/-- The fault kinds (60_exceptions.md R221). `invalidQuality` is reserved: the CORE never raises it (R224). -/
inductive FaultKind where
  | imageTooSmall
  | imageTooLarge
  | invalidQuality
  | unsupportedSubsampleMode
  | illegalCommand
  | badBlockSize
  | badScale
  | badLength
  | badSubmode
deriving DecidableEq, Repr

/-- The code of a fault kind (R221). -/
def FaultKind.code : FaultKind → Byte
  | .imageTooSmall => 0x01#8
  | .imageTooLarge => 0x02#8
  | .invalidQuality => 0x03#8
  | .unsupportedSubsampleMode => 0x04#8
  | .illegalCommand => 0x10#8
  | .badBlockSize => 0x11#8
  | .badScale => 0x12#8
  | .badLength => 0x13#8
  | .badSubmode => 0x14#8

/-- `STATUS` as the bus reads it (10_state.md R25): the reserved bits are 0. -/
def Status.word (t : Status) : Word :=
  0#16 ++ t.errCode ++ 0#3 ++ BitVec.ofBool t.empty ++ BitVec.ofBool t.ovr ++ BitVec.ofBool t.err
    ++ BitVec.ofBool t.done ++ BitVec.ofBool t.busy

/-- `CTRL` as the bus reads it (R26): `SRST` and the reserved bits read 0. -/
def Ctrl.word (c : Ctrl) : Word :=
  0#29 ++ BitVec.ofBool c.ieErr ++ BitVec.ofBool c.ieDone ++ 0#1

/-- The bit `SRST` of a word written to `CTRL` (R26). -/
def srstBit (w : Word) : Bool := w.getLsbD 0

/-- The enables of a word written to `CTRL` (R26). -/
def Ctrl.ofWord (w : Word) : Ctrl := { ieDone := w.getLsbD 1, ieErr := w.getLsbD 2 }

/-- The interrupt line (60_exceptions.md R230). -/
def State.irq (s : State) : Bool :=
  (s.status.done && s.ctrl.ieDone) || (s.status.err && s.ctrl.ieErr)

end Sys2Proof.Machine
end

