-- ==== Sys2Proof/Machine/Ops.lean ====
section
/-!
DEFINITION. The named operations over memory and registers: reads and writes, the register window, taking a fault
(60_exceptions.md R226) and the ways back (70_reset_and_hazards.md R250, R251), issue and completion (30_encoding.md R95, R97).
-/

namespace Sys2Proof.Machine

/-- The state with other buffers. -/
def State.withMem (s : State) (m : Memory) : State := { s with mem := m }

/-- The byte at a bus address: the listed one, else the reset contents, else the free value of this epoch (log 4). An
address with no cell reads 0 (R66; log 11). -/
def State.byte (s : State) (a : Nat) : Byte :=
  if stored a then
    match s.mem.get? a with
    | some b => b
    | none =>
      match resetByte a with
      | some b => b
      | none => Config.powerOn s.epoch a
  else 0x00#8

/-- The word at a bus address, little-endian (20_memory.md R63). -/
def State.word (s : State) (a : Nat) : Word :=
  wordOf (s.byte a) (s.byte (a + 1)) (s.byte (a + 2)) (s.byte (a + 3))

/-- The word at a bus address as a signed integer (00_scope.md R10, `sext_32`). -/
def State.signedWord (s : State) (a : Nat) : Int := (s.word a).toInt

/-- Store one word (R63, R71); a byte with no cell behind it is dropped (R66). -/
def State.storeWord (s : State) (a : Nat) (w : Word) : State :=
  s.withMem (s.mem.fillWords a 1 (fun _ => w))

/-- `STATUS.OVR <- 1` (R64, R96). -/
def State.setOvr (s : State) : State := { s with status := { s.status with ovr := true } }

/-- `STATUS.EMPTY <- b` (44_extract_vote.md R182). -/
def State.setEmpty (s : State) (b : Bool) : State := { s with status := { s.status with empty := b } }

/-- Record the answer to a transaction (log 3). -/
def State.reply (s : State) (r : Reply) : State := { s with replies := r :: s.replies }

/-- Take a host transaction off the list of those to come (log 2). -/
def State.withPending (s : State) (l : List Arrival) : State := { s with pending := l }

/-- Fault entry, `raise Fault(code)` (60_exceptions.md R226): `ERR` and `ERRCODE`, nothing else. -/
def raiseFault (k : FaultKind) (s : State) : State :=
  { s with status := { s.status with err := true, errCode := k.code } }

/-- The first half of an issue (30_encoding.md R95): `CMD <- w`, `DONE <- 0`. -/
def latchCommand (w : Word) (s : State) : State :=
  { s with cmd := w, status := { s.status with done := false } }

/-- `STATUS.BUSY <- 1` (R95). -/
def acceptCommand (s : State) : State := { s with status := { s.status with busy := true } }

/-- Issue (R95) of the word `w` whose checks gave `c`: the fault, or acceptance. -/
def issue (w : Word) (c : Option FaultKind) (s : State) : State :=
  match c with
  | some k => raiseFault k (latchCommand w s)
  | none => acceptCommand (latchCommand w s)

/-- The end of a completion (R97): `BUSY <- 0`, `DONE <- 1`. -/
def complete (s : State) : State :=
  { s with status := { s.status with busy := false, done := true } }

/-- Soft reset (70_reset_and_hazards.md R251): registers, `PIN`, `POUT`, `ONES` and `TOTAL` at their reset values; the
pixel grid, the planes and the subbands as they were. The way back from a fault (60_exceptions.md R229). -/
def softReset (s : State) : State :=
  { State.reset with
    mem := (s.mem.restore pinBase 0x200).restore onesBase 0x4000
    epoch := s.epoch
    freeReads := s.freeReads
    pending := s.pending
    replies := s.replies }

/-- Hard reset (R250): everything with a reset value at it, the big buffers free anew (U1, U3; log 6). -/
def hardReset (s : State) : State :=
  { State.reset with
    epoch := s.epoch + 1
    freeReads := s.freeReads
    pending := s.pending
    replies := s.replies }

/-- Read of register `x[i]` (10_state.md R21, R24 to R31); the reserved ones read 0. -/
def State.readReg (s : State) (i : Nat) : Word :=
  match i with
  | 0 => s.cmd
  | 1 => s.status.word
  | 2 => s.ctrl.word
  | 3 => s.rows
  | 4 => s.cols
  | 5 => s.bsize
  | 6 => s.scale0
  | 7 => s.scale1
  | 8 => s.scale2
  | 9 => s.submode
  | 10 => s.wmbytes
  | _ => 0x00000000#32

/-- Write of `CTRL` (R26): `SRST` resets and discards the other bits. -/
def State.writeCtrl (s : State) (w : Word) : State :=
  if srstBit w then softReset s else { s with ctrl := Ctrl.ofWord w }

/-- Write of a register other than `CMD`: `STATUS` (R25) and the reserved ones (R21) ignore it. -/
def State.writeReg (s : State) (i : Nat) (w : Word) : State :=
  match i with
  | 2 => s.writeCtrl w
  | 3 => { s with rows := w }
  | 4 => { s with cols := w }
  | 5 => { s with bsize := w }
  | 6 => { s with scale0 := w }
  | 7 => { s with scale1 := w }
  | 8 => { s with scale2 := w }
  | 9 => { s with submode := w }
  | 10 => { s with wmbytes := w }
  | _ => s

end Sys2Proof.Machine
end

