-- ==== Sys2Proof/Machine/Operands.lean ====
section
/-!
DEFINITION. What a command takes its inputs from: the channel operand (30_encoding.md R90, R91), the geometry
(00_scope.md R13), the cells of the buffers (20_memory.md R66 to R70, R74), the payload bits (43_embed.md R160).
-/

namespace Sys2Proof.Machine

/-- The channel a field selects (R90, R91); 3 selects none. -/
def Channel.ofField (f : ChannelField) : Option Channel :=
  if f = 0#2 then some .y
  else if f = 1#2 then some .u
  else if f = 2#2 then some .v
  else none

/-- All channels in the order of the codec's loop (45_codec.md R197, R200). -/
def Channel.all : List Channel := [.y, .u, .v]

/-- The scale register of a channel as a signed integer (00_scope.md R15, 10_state.md R29). -/
def State.scale (s : State) (ch : Channel) : Int :=
  match ch with
  | .y => s.scale0.toInt
  | .u => s.scale1.toInt
  | .v => s.scale2.toInt

/-- `rows` (R13). -/
def State.nRows (s : State) : Nat := s.rows.toNat

/-- `cols` (R13). -/
def State.nCols (s : State) : Nat := s.cols.toNat

/-- `B` (R13). -/
def State.blk (s : State) : Nat := s.bsize.toNat

/-- `rows * cols`, exact (R15). -/
def State.area (s : State) : Nat := s.nRows * s.nCols

/-- `Rr`, rows of the processed region (R13). -/
def State.regionRows (s : State) : Nat := s.nRows - s.nRows % s.blk

/-- `Cc`, columns of the processed region (R13). -/
def State.regionCols (s : State) : Nat := s.nCols - s.nCols % s.blk

/-- `ar`, rows of a subband (R13). -/
def State.subRows (s : State) : Nat := s.regionRows / 2

/-- `ac`, columns of a subband (R13). -/
def State.subCols (s : State) : Nat := s.regionCols / 2

/-- `nbr`, rows of blocks (R13). -/
def State.blockRows (s : State) : Nat := s.subRows / s.blk

/-- `nbc`, columns of blocks (R13). -/
def State.blockCols (s : State) : Nat := s.subCols / s.blk

/-- `NB`, blocks of a channel (R13). -/
def State.nBlocks (s : State) : Nat := s.blockRows * s.blockCols

/-- `WMBYTES` as a number (R31). -/
def State.nBytes (s : State) : Nat := s.wmbytes.toNat

/-- `wmLen`, payload bits (R13). -/
def State.wmLen (s : State) : Nat := 8 * s.nBytes

/-- Address of component `c` (0 = R, 1 = G, 2 = B) of pixel cell `k` (R66). -/
def pixelAddr (k c : Nat) : Nat := rgbBase + 4 * k + c

/-- Address of sample cell `k` of plane `ch` (R67). -/
def sampleAddr (ch : Channel) (k : Nat) : Nat := planeBase ch + k

/-- Address of cell `k` of a subband (R68). -/
def subbandAddr (b : Subband) (k : Nat) : Nat := subbandBase b + 4 * k

/-- Address of `ONES[p]` (R70). -/
def onesAddr (p : Nat) : Nat := onesBase + 4 * p

/-- Address of `TOTAL[p]` (R70). -/
def totalAddr (p : Nat) : Nat := totalBase + 4 * p

/-- Component `c` of pixel cell `k`. -/
def State.pixel (s : State) (k c : Nat) : Byte := s.byte (pixelAddr k c)

/-- Sample cell `k` of plane `ch`. -/
def State.sample (s : State) (ch : Channel) (k : Nat) : Byte := s.byte (sampleAddr ch k)

/-- Cell `k` of a subband, a signed count of quarters (10_state.md R34). -/
def State.coeff (s : State) (b : Subband) (k : Nat) : Int := s.signedWord (subbandAddr b k)

/-- `ONES[p]` (R37). -/
def State.ones (s : State) (p : Nat) : Word := s.word (onesAddr p)

/-- `TOTAL[p]` (R37). -/
def State.total (s : State) (p : Nat) : Word := s.word (totalAddr p)

/-- Linear cell of `X[r][c]` in a grid or plane (00_scope.md R11, R74). -/
def State.gridCell (s : State) (r c : Nat) : Nat := r * s.nCols + c

/-- Linear cell of `SA[i][j]` (R68, R74). -/
def State.subCell (s : State) (i j : Nat) : Nat := i * s.subCols + j

/-- Linear cell of position `p` of block `i` (43_embed.md R161). -/
def State.blockCell (s : State) (i p : Nat) : Nat :=
  s.subCell (i / s.blockCols * s.blk + p / s.blk) (i % s.blockCols * s.blk + p % s.blk)

/-- `payloadBit(k)` (R160): most significant bit of each byte first. -/
def State.payloadBit (s : State) (k : Nat) : Bool :=
  (s.byte (pinBase + k / 8)).getLsbD (7 - k % 8)

end Sys2Proof.Machine
end

