-- ==== Sys2Proof/Machine/Command.lean ====
section
/-!
DEFINITION. The checks made at issue (60_exceptions.md R227, R228) and the two steps in the life of a command
(30_encoding.md R94 to R97), which every meaning shares.
-/

namespace Sys2Proof.Machine

/-- What a command uses (the second table of R227). -/
structure Uses where
  grid : Bool
  bsize : Bool
  scales : List Channel
  wmbytes : Bool
  submode : Bool
deriving DecidableEq, Repr

/-- Nothing used: `NOP`, `VCLEAR` (R227). -/
def Uses.nothing : Uses :=
  { grid := false, bsize := false, scales := [], wmbytes := false, submode := false }

/-- Which command uses what (R227). -/
def uses : Instr → Uses
  | .nop => Uses.nothing
  | .rgb2yuv => { Uses.nothing with grid := true }
  | .yuv2rgb => { Uses.nothing with grid := true }
  | .subsamp => { Uses.nothing with grid := true, submode := true }
  | .dwtfwd _ => { Uses.nothing with grid := true, bsize := true }
  | .dwtinv _ => { Uses.nothing with grid := true, bsize := true }
  | .embed ch =>
    { Uses.nothing with grid := true, bsize := true, scales := (Channel.ofField ch).toList, wmbytes := true }
  | .extract ch =>
    { Uses.nothing with grid := true, bsize := true, scales := (Channel.ofField ch).toList, wmbytes := true }
  | .vclear => Uses.nothing
  | .tally => { Uses.nothing with wmbytes := true }
  | .encode =>
    { Uses.nothing with grid := true, bsize := true, scales := Channel.all, wmbytes := true, submode := true }
  | .decode =>
    { Uses.nothing with grid := true, bsize := true, scales := Channel.all, wmbytes := true }

/-- `BSIZE` is odd, below 2 or above 64 (R227 test 3). -/
def State.badBlock (s : State) : Bool :=
  s.blk % 2 == 1 || decide (s.blk < Config.minBlock) || decide (Config.maxBlock < s.blk)

/-- The check function of R227 for a command, in the priority of R228; `none` is code 0. -/
def check (i : Instr) (s : State) : Option FaultKind :=
  if i.wellFormed = false then some .illegalCommand
  else if (uses i).grid = true ∧ s.area < Config.minArea then some .imageTooSmall
  else if (uses i).grid = true ∧ Config.maxArea < s.area then some .imageTooLarge
  else if (uses i).bsize = true ∧ s.badBlock = true then some .badBlockSize
  else if (uses i).scales.any (fun ch => decide (Config.scaleMax < s.scale ch)) then some .badScale
  else if (uses i).wmbytes = true ∧ (s.nBytes = 0 ∨ Config.pmax < s.nBytes) then some .badLength
  else if (uses i).submode = true ∧ s.submode.toNat = 3 then some .unsupportedSubsampleMode
  else if (uses i).submode = true ∧ 4 ≤ s.submode.toNat then some .badSubmode
  else none

/-- `check(w)` of R227 for any command word: a word that matches no row of R92 is illegal. -/
def checkWord (w : Word) (s : State) : Option FaultKind :=
  match Sys2Proof.decode w with
  | .error _ => some .illegalCommand
  | .ok i => check i s

/-- A command that reaches an idle CORE: dropped with `OVR` while a fault is recorded (R96), else issued (R95). -/
def issueCommand (i : Instr) (s : State) : State :=
  if s.status.err then s.setOvr else issue (Sys2Proof.encode i) (check i s) s

/-- The step a command takes (R94; log 7): its completion when a command is in flight (R97), its issue otherwise. -/
def runCommand (i : Instr) (effect : State → State) (s : State) : Host.Outcome State Fault Refusal :=
  if s.status.busy then .next (complete (effect s)) else .next (issueCommand i s)

/-- The step of a `CMDC` command. With `ch = 3` its issue faults (R93) and no completion exists (log 8). -/
def runChannel (i : Instr) (f : ChannelField) (effect : Channel → State → State) (s : State) :
    Host.Outcome State Fault Refusal :=
  match Channel.ofField f with
  | some ch => runCommand i (effect ch) s
  | none => if s.status.busy then .fault .illegalInFlight else .next (issueCommand i s)

end Sys2Proof.Machine
end

