-- ==== Sys2Proof/Machine/Colour.lean ====
section
/-!
DEFINITION. The colour-space transform: `RGB2YUV` and `YUV2RGB` (40_colour.md).
-/

namespace Sys2Proof.Machine

/-- The numerators `yn`, `un`, `vn` over 100000 (40_colour.md R111). -/
def yuvNum (ch : Channel) (r g b : Byte) : Int :=
  let r := (r.toNat : Int)
  let g := (g.toNat : Int)
  let b := (b.toNat : Int)
  match ch with
  | .y => 29900 * r + 58700 * g + 11400 * b
  | .u => -14713 * r - 28886 * g + 43600 * b + 12750000
  | .v => 61500 * r - 51499 * g - 10001 * b + 12750000

/-- Component `ch` of `rgb2yuv(R, G, B)` (R111). -/
def rgb2yuv (ch : Channel) (r g b : Byte) : Byte := clipRound (yuvNum ch r g b) 100000

/-- The numerators `rn`, `gn`, `bn` over 200000 (R114), for component 0, 1 or 2. -/
def rgbNum (c : Nat) (y u v : Byte) : Int :=
  let y := (y.toNat : Int)
  let u2 := 2 * (u.toNat : Int) - 255
  let v2 := 2 * (v.toNat : Int) - 255
  match c with
  | 0 => 200000 * y + 113983 * v2
  | 1 => 200000 * y - 39465 * u2 - 58060 * v2
  | _ => 200000 * y + 203211 * u2

/-- Component `c` of `yuv2rgb(Y, U, V)` (R114). -/
def yuv2rgb (c : Nat) (y u v : Byte) : Byte := clipRound (rgbNum c y u v) 200000

/-- The sample of plane `ch` that `RGB2YUV` writes at cell `k` (R112). -/
def State.yuvOf (s : State) (ch : Channel) (k : Nat) : Byte :=
  rgb2yuv ch (s.pixel k 0) (s.pixel k 1) (s.pixel k 2)

/-- The component that `YUV2RGB` writes at cell `k` (R115). -/
def State.rgbOf (s : State) (c k : Nat) : Byte :=
  yuv2rgb c (s.sample .y k) (s.sample .u k) (s.sample .v k)

/-- A pixel word (20_memory.md R66). -/
def pixelWord (r g b : Byte) : Word := wordOf r g b 0x00#8

/-- Effect of `RGB2YUV` (R112). -/
def rgb2yuvEffect (s : State) : State :=
  s.withMem
    (((s.mem.fill (planeBase .y) s.area (s.yuvOf .y)).fill (planeBase .u) s.area (s.yuvOf .u)).fill
      (planeBase .v) s.area (s.yuvOf .v))

/-- Effect of `YUV2RGB` (R115). -/
def yuv2rgbEffect (s : State) : State :=
  s.withMem
    (s.mem.fillWords rgbBase s.area (fun k => pixelWord (s.rgbOf 0 k) (s.rgbOf 1 k) (s.rgbOf 2 k)))

/-- `RGB2YUV` (R112). -/
def execRgb2yuv (s : State) : Host.Outcome State Fault Refusal := runCommand .rgb2yuv rgb2yuvEffect s

/-- `YUV2RGB` (R115). -/
def execYuv2rgb (s : State) : Host.Outcome State Fault Refusal := runCommand .yuv2rgb yuv2rgbEffect s

end Sys2Proof.Machine
end

