-- ==== Sys2Proof/Machine/Subsample.lean ====
section
/-!
DEFINITION. The chroma subsampler: `SUBSAMP` (41_subsample.md).
-/

namespace Sys2Proof.Machine

/-- The planes that `SUBMODE` selects (41_subsample.md R130, R132; 10_state.md R30). The values 3 and above select
none and never reach a completion (R133). -/
def State.selected (s : State) : List Channel :=
  match s.submode.toNat with
  | 0 => [.u]
  | 1 => [.v]
  | 2 => [.u, .v]
  | _ => []

/-- The cell whose value cell `k` of a selected plane takes: its row and column rounded down to even (R131). -/
def State.evenCell (s : State) (k : Nat) : Nat :=
  s.gridCell (k / s.nCols - k / s.nCols % 2) (k % s.nCols - k % s.nCols % 2)

/-- The subsampling of one plane (R131, R132). -/
def subsamplePlane (ch : Channel) (s : State) : State :=
  s.withMem (s.mem.fill (planeBase ch) s.area (fun k => s.sample ch (s.evenCell k)))

/-- Effect of `SUBSAMP` (R132). -/
def subsampEffect (s : State) : State := s.selected.foldl (fun t ch => subsamplePlane ch t) s

/-- `SUBSAMP` (R132). -/
def execSubsamp (s : State) : Host.Outcome State Fault Refusal := runCommand .subsamp subsampEffect s

end Sys2Proof.Machine
end

