-- ==== Sys2Proof/Machine/Embed.lean ====
section
/-!
DEFINITION. The block embedder: the dominant position (43_embed.md R162), `embedCell` (R163) and `EMBED` (R164).
-/

namespace Sys2Proof.Machine

/-- Whether a later candidate of magnitude `new` replaces the best one so far (R162; 92_eei_decisions.md D7). -/
def replaces (t : ArgMaxTie) (new best : Nat) : Bool :=
  match t with
  | .least => decide (best < new)
  | .greatest => decide (best ≤ new)

/-- The position of the greatest magnitude among 1 to `n + 1`, by a scan in increasing order. -/
def argMax (mag : Nat → Nat) : Nat → Nat
  | 0 => 1
  | n + 1 => if replaces Config.argMaxTie (mag (n + 2)) (mag (argMax mag n)) then n + 2 else argMax mag n

/-- `cell(i, p)`, the coefficient at position `p` of block `i` (R162). -/
def State.blockCoeff (s : State) (i p : Nat) : Int := s.coeff .sa (s.blockCell i p)

/-- `dominant(i)` (R162). -/
def State.dominant (s : State) (i : Nat) : Nat :=
  argMax (fun p => (s.blockCoeff i p).natAbs) (s.blk * s.blk - 2)

/-- The linear cell of `SA` that holds the dominant coefficient of block `i`. -/
def State.dominantCell (s : State) (i : Nat) : Nat := s.blockCell i (s.dominant i)

/-- The magnitude `m` of the embedded coefficient (R163). -/
def embedMagnitude (n : Int) (scale : Nat) (bit : Bool) : Nat :=
  (4 * (n.natAbs / (4 * scale)) + 1 + 2 * bit.toNat) * scale

/-- `embedCell(n, s, bit)` (R163). -/
def embedCell (n : Int) (scale : Nat) (bit : Bool) : Word :=
  if 0 ≤ n then wrap32 (embedMagnitude n scale bit : Int) else wrap32 (-(embedMagnitude n scale bit : Int))

/-- The word that `EMBED ch` writes into the dominant cell of block `i` (R164). -/
def State.embeddedWord (s : State) (ch : Channel) (i : Nat) : Word :=
  embedCell (s.coeff .sa (s.dominantCell i)) (s.scale ch).toNat (s.payloadBit (i % s.wmLen))

/-- The buffers after block `i` is embedded: its dominant cell, read in the state before the command. -/
def embedBlock (ch : Channel) (s : State) (m : Memory) (i : Nat) : Memory :=
  m.fillWords (subbandAddr .sa (s.dominantCell i)) 1 (fun _ => s.embeddedWord ch i)

/-- Effect of `EMBED ch` (R164): nothing for a scale at most 0, else one cell of each block. -/
def embedEffect (ch : Channel) (s : State) : State :=
  if s.scale ch ≤ 0 then s
  else s.withMem ((List.range s.nBlocks).foldl (embedBlock ch s) s.mem)

/-- `EMBED ch` (R164). -/
def execEmbed (ch : ChannelField) (s : State) : Host.Outcome State Fault Refusal :=
  runChannel (.embed ch) ch embedEffect s

end Sys2Proof.Machine
end

