-- ==== Sys2Proof/Machine/Vote.lean ====
section
/-!
DEFINITION. The extractor and voter: `EXTRACT`, `VCLEAR` and `TALLY` (44_extract_vote.md).
-/

namespace Sys2Proof.Machine

/-- `extractBit(n, s)` (44_extract_vote.md R177). -/
def extractBit (n : Int) (scale : Nat) : Bool := decide (2 * scale < n.natAbs % (4 * scale))

/-- The bit that block `i` votes (R177, R178). -/
def State.blockVote (s : State) (ch : Channel) (i : Nat) : Bool :=
  extractBit (s.coeff .sa (s.dominantCell i)) (s.scale ch).toNat

/-- Append the score `b` to the list of position `p` (R175). -/
def appendVote (p : Nat) (b : Bool) (s : State) : State :=
  (s.storeWord (onesAddr p) (s.ones p + BitVec.ofNat 32 b.toNat)).storeWord (totalAddr p) (s.total p + 1#32)

/-- One round of the loop of R178. -/
def extractBlock (ch : Channel) (s : State) (i : Nat) : State :=
  appendVote (i % s.wmLen) (s.blockVote ch i) s

/-- Effect of `EXTRACT ch` (R178): nothing for a scale at most 0, else one vote of each block, in order. -/
def extractEffect (ch : Channel) (s : State) : State :=
  if s.scale ch ≤ 0 then s else (List.range s.nBlocks).foldl (extractBlock ch) s

/-- Effect of `VCLEAR` (R176): every counter 0, which is its reset content (10_state.md R37). -/
def vclearEffect (s : State) : State :=
  s.withMem ((s.mem.restore onesBase (4 * Config.vmax)).restore totalBase (4 * Config.vmax))

/-- `f(p)` (R181). -/
def State.finalBit (s : State) (p : Nat) : Bool :=
  decide (127 * (s.total p).toNat < 255 * (s.ones p).toNat)

/-- `POUT[j]` (R180): the final bits of positions `8j` to `8j + 7`, most significant first. -/
def State.packedByte (s : State) (j : Nat) : Byte :=
  BitVec.ofNat 8 ((List.range 8).foldl (fun acc k => acc + (s.finalBit (8 * j + k)).toNat <<< (7 - k)) 0)

/-- Some position in use has no vote (R182). -/
def State.someEmpty (s : State) : Bool :=
  (List.range s.wmLen).any (fun p => s.total p == 0#32)

/-- Effect of `TALLY` (R182). -/
def tallyEffect (s : State) : State :=
  (s.withMem (s.mem.fill poutBase s.nBytes s.packedByte)).setEmpty s.someEmpty

/-- `EXTRACT ch` (R178). -/
def execExtract (ch : ChannelField) (s : State) : Host.Outcome State Fault Refusal :=
  runChannel (.extract ch) ch extractEffect s

/-- `VCLEAR` (R176). -/
def execVclear (s : State) : Host.Outcome State Fault Refusal := runCommand .vclear vclearEffect s

/-- `TALLY` (R182). -/
def execTally (s : State) : Host.Outcome State Fault Refusal := runCommand .tally tallyEffect s

end Sys2Proof.Machine
end

