-- ==== Sys2Proof/Machine/Wavelet.lean ====
section
/-!
DEFINITION. The Haar wavelet: `DWTFWD` and `DWTINV` (42_wavelet.md). The formulas are the spec's own passages G1 and G2
(93_implementation_defined.md; log 17).
-/

namespace Sys2Proof.Machine

/-- Quarters in one unit of a Haar sum: `4 / HAAR_DIV` (42_wavelet.md R142; 92_eei_decisions.md D5). -/
def haarGain : Int := ((4 / Config.haarDiv : Nat) : Int)

/-- Denominator of the inverse sums, `16 / HAAR_DIV`: eighths (R145). -/
def haarDen : Nat := 16 / Config.haarDiv

/-- The coefficient of one tile `a b / c d` in a subband, in quarters (R142). -/
def haarCoeff (band : Subband) (a b c d : Int) : Int :=
  match band with
  | .sa => haarGain * (a + b + c + d)
  | .sh => haarGain * (a + b - c - d)
  | .sv => haarGain * (a - b + c - d)
  | .sd => haarGain * (a - b - c + d)

/-- The numerator of the sample in row `y` and column `x` of a tile, with H and V exchanged (R141, R145). -/
def haarInverse (y x : Nat) (sa sh sv sd : Int) : Int :=
  match y, x with
  | 0, 0 => sa + sv + sh + sd
  | 0, _ => sa + sv - sh - sd
  | _, 0 => sa - sv + sh - sd
  | _, _ => sa - sv - sh + sd

/-- `P[ch][r][c]` as an integer. -/
def State.sampleInt (s : State) (ch : Channel) (r c : Nat) : Int :=
  ((s.sample ch (s.gridCell r c)).toNat : Int)

/-- The coefficient that `DWTFWD` writes at cell `(i, j)` of a subband (R143). -/
def State.forwardCoeff (s : State) (ch : Channel) (band : Subband) (i j : Nat) : Int :=
  haarCoeff band (s.sampleInt ch (2 * i) (2 * j)) (s.sampleInt ch (2 * i) (2 * j + 1))
    (s.sampleInt ch (2 * i + 1) (2 * j)) (s.sampleInt ch (2 * i + 1) (2 * j + 1))

/-- The subband word that `DWTFWD` writes at linear cell `k` (R143, 00_scope.md R14). -/
def State.forwardWord (s : State) (ch : Channel) (band : Subband) (k : Nat) : Word :=
  wrap32 (s.forwardCoeff ch band (k / s.subCols) (k % s.subCols))

/-- The sample that `DWTINV` writes at row `r`, column `c` (R146). -/
def State.inverseSample (s : State) (r c : Nat) : Byte :=
  clipRound
    (haarInverse (r % 2) (c % 2) (s.coeff .sa (s.subCell (r / 2) (c / 2))) (s.coeff .sh (s.subCell (r / 2) (c / 2)))
      (s.coeff .sv (s.subCell (r / 2) (c / 2))) (s.coeff .sd (s.subCell (r / 2) (c / 2))))
    haarDen

/-- The buffers after one subband of plane `ch` is written. -/
def fillSubband (ch : Channel) (s : State) (m : Memory) (band : Subband) : Memory :=
  m.fillWords (subbandBase band) (s.subRows * s.subCols) (s.forwardWord ch band)

/-- Effect of `DWTFWD ch` (R143). -/
def dwtfwdEffect (ch : Channel) (s : State) : State :=
  s.withMem
    (fillSubband ch s (fillSubband ch s (fillSubband ch s (fillSubband ch s s.mem .sa) .sh) .sv) .sd)

/-- The buffers after row `r` of the region of plane `ch` is written. -/
def fillRegionRow (ch : Channel) (s : State) (m : Memory) (r : Nat) : Memory :=
  m.fill (sampleAddr ch (s.gridCell r 0)) s.regionCols (s.inverseSample r)

/-- Effect of `DWTINV ch` (R146): the rows of the region, each over its `Cc` columns. -/
def dwtinvEffect (ch : Channel) (s : State) : State :=
  s.withMem ((List.range s.regionRows).foldl (fillRegionRow ch s) s.mem)

/-- `DWTFWD ch` (R143). -/
def execDwtfwd (ch : ChannelField) (s : State) : Host.Outcome State Fault Refusal :=
  runChannel (.dwtfwd ch) ch dwtfwdEffect s

/-- `DWTINV ch` (R146). -/
def execDwtinv (ch : ChannelField) (s : State) : Host.Outcome State Fault Refusal :=
  runChannel (.dwtinv ch) ch dwtinvEffect s

end Sys2Proof.Machine
end

