-- ==== Sys2Proof/Machine/Codec.lean ====
section
/-!
DEFINITION. The codec: `NOP`, `ENCODE` and `DECODE` (45_codec.md).
-/

namespace Sys2Proof.Machine

/-- Effect of `NOP` (45_codec.md R195): none. -/
def nopEffect (s : State) : State := s

/-- One round of the channel loop of `ENCODE` (R197 step 3). -/
def encodeChannel (s : State) (ch : Channel) : State :=
  if 0 < s.scale ch then dwtinvEffect ch (embedEffect ch (dwtfwdEffect ch s)) else s

/-- Effect of `ENCODE` (R197). -/
def encodeEffect (s : State) : State :=
  yuv2rgbEffect (Channel.all.foldl encodeChannel (subsampEffect (rgb2yuvEffect s)))

/-- One round of the channel loop of `DECODE` (R200 step 3). -/
def decodeChannel (s : State) (ch : Channel) : State :=
  if 0 < s.scale ch then extractEffect ch (dwtfwdEffect ch s) else s

/-- Effect of `DECODE` (R200). -/
def decodeEffect (s : State) : State :=
  tallyEffect (Channel.all.foldl decodeChannel (vclearEffect (rgb2yuvEffect s)))

/-- `NOP` (R195). -/
def execNop (s : State) : Host.Outcome State Fault Refusal := runCommand .nop nopEffect s

/-- `ENCODE` (R197). -/
def execEncode (s : State) : Host.Outcome State Fault Refusal := runCommand .encode encodeEffect s

/-- `DECODE` (R200). -/
def execDecode (s : State) : Host.Outcome State Fault Refusal := runCommand .decode decodeEffect s

end Sys2Proof.Machine
end

