-- ==== Sys2Proof/Machine/Dispatch.lean ====
section
/-!
DEFINITION. The dispatch: the step that each command takes, by one direct call of its meaning.
-/

namespace Sys2Proof.Machine

def exec (i : Instr) (s : State) : Host.Outcome State Fault Refusal :=
  match i with
  | .nop => Sys2Proof.Machine.execNop s
  | .rgb2yuv => Sys2Proof.Machine.execRgb2yuv s
  | .yuv2rgb => Sys2Proof.Machine.execYuv2rgb s
  | .subsamp => Sys2Proof.Machine.execSubsamp s
  | .dwtfwd ch => Sys2Proof.Machine.execDwtfwd ch s
  | .dwtinv ch => Sys2Proof.Machine.execDwtinv ch s
  | .embed ch => Sys2Proof.Machine.execEmbed ch s
  | .extract ch => Sys2Proof.Machine.execExtract ch s
  | .vclear => Sys2Proof.Machine.execVclear s
  | .tally => Sys2Proof.Machine.execTally s
  | .encode => Sys2Proof.Machine.execEncode s
  | .decode => Sys2Proof.Machine.execDecode s

end Sys2Proof.Machine
end

