-- ==== Sys2Proof/Machine/Bus.lean ====
section
/-!
DEFINITION. The host port (20_memory.md R60 to R72), the write to `CMD` (30_encoding.md R95, R96) and the order of
events (20_memory.md R75).
-/

namespace Sys2Proof.Machine

/-- The window of a legal access: 32 bits wide, aligned, mapped (R61, R62). `none` is a bus error. -/
def busTarget (addr : Word) (width : Nat) : Option Window :=
  if width = 4 ∧ addr.toNat % 4 = 0 then windowOf addr.toNat else none

/-- A read (R60, R62, R64, R72). A buffer read while `BUSY = 1` returns a free value and sets `OVR` (U2; log 5). -/
def busRead (addr : Word) (width : Nat) (s : State) : State :=
  match busTarget addr width with
  | none => s.reply .busError
  | some .reg => s.reply (.data (s.readReg (addr.toNat / 4)))
  | some _ =>
    if s.status.busy then
      { (s.setOvr.reply (.data (Config.busyRead s.freeReads))) with freeReads := s.freeReads + 1 }
    else s.reply (.data (s.word addr.toNat))

/-- A write to `CMD` with `BUSY = 0` (30_encoding.md R95, R96): the word is decoded and the command issues, unless a
fault is recorded. -/
def writeCmd (w : Word) (s : State) : Host.Outcome State Fault Refusal :=
  if s.status.err then .next s.setOvr
  else
    match Sys2Proof.decode w with
    | .ok i => exec i s
    | .error _ => .next (issue w (some .illegalCommand) s)

/-- A write (R60, R62, R64, R65, R71). While `BUSY = 1` it is dropped and sets `OVR`, without a bus error. -/
def busWrite (addr : Word) (width : Nat) (w : Word) (s : State) : Host.Outcome State Fault Refusal :=
  match busTarget addr width with
  | none => .next (s.reply .busError)
  | some win =>
    if s.status.busy then .next (s.setOvr.reply .written)
    else
      match win with
      | .reg =>
        if addr.toNat = 0 then writeCmd w (s.reply .written)
        else .next ((s.writeReg (addr.toNat / 4) w).reply .written)
      | _ => .next ((s.storeWord addr.toNat w).reply .written)

/-- One host operation, whole (R60). -/
def serve (op : HostOp) (s : State) : Host.Outcome State Fault Refusal :=
  match op with
  | .read addr width => .next (busRead addr width s)
  | .write addr width w => busWrite addr width w s
  | .hardReset => .next (hardReset s)

/-- The completion of the command in flight (30_encoding.md R97): the word in `CMD`, with the registers as they are. -/
def completeInFlight (s : State) : Host.Outcome State Fault Refusal :=
  match Sys2Proof.decode s.cmd with
  | .ok i => exec i s
  | .error _ => .fault .illegalInFlight

/-- One event of the total order (20_memory.md R75): the next host transaction, or the completion of the command in
flight when none is left or the next one lands after it (log 2). An idle CORE with nothing to come keeps its state
(60_exceptions.md R233; log 16). -/
def nextEvent (s : State) : Host.Outcome State Fault Refusal :=
  match s.pending with
  | [] => if s.status.busy then completeInFlight s else .next s
  | x :: rest =>
    if s.status.busy = true ∧ x.overlaps = false then completeInFlight s
    else serve x.op (s.withPending rest)

/-- The host's write of a command word to `CMD`, next to reach the port of a CORE that can take it: `BUSY` and the
recorded fault are cleared (log 1). -/
def offerCommand (w : Word) (s : State) : State :=
  { s with
    status := { s.status with busy := false, err := false, errCode := 0x00#8 }
    pending := { op := .write 0x00000000#32 4 w, overlaps := false } :: s.pending }

end Sys2Proof.Machine
end

