-- ==== Sys2Proof/Machine/Step.lean ====
section
/-!
DEFINITION. One step of the machine: one event of the total order of 20_memory.md R75.
-/

namespace Sys2Proof.Machine

/-- One step. -/
def step (s : State) : Host.Outcome State Fault Refusal := nextEvent s

/-- The state in which the next step takes the command word `w` (of `nbits` bits) from the host's write to `CMD`, the
only place a command is fetched from (20_memory.md R78, 30_encoding.md R90; log 1). -/
def State.withFetchWord (s : State) (nbits w : Nat) : State :=
  offerCommand (BitVec.ofNat 32 (w % 2 ^ nbits)) s

end Sys2Proof.Machine
end

