-- ==== Sys2Proof/Machine/Script.lean ====
section
/-!
DEFINITION. The script notation of the host (30_encoding.md R98, R99) as lists of transactions, and the two entry
points of R100 (log 15, log 21, log 22).
-/

namespace Sys2Proof.Machine

/-- The registers by name (10_state.md R21). -/
inductive RegName where
  | cmd
  | status
  | ctrl
  | rows
  | cols
  | bsize
  | scale0
  | scale1
  | scale2
  | submode
  | wmbytes
deriving DecidableEq, Repr

/-- The index of a register (R21). -/
def RegName.index : RegName → Nat
  | .cmd => 0
  | .status => 1
  | .ctrl => 2
  | .rows => 3
  | .cols => 4
  | .bsize => 5
  | .scale0 => 6
  | .scale1 => 7
  | .scale2 => 8
  | .submode => 9
  | .wmbytes => 10

/-- The byte address of a register (R21). -/
def RegName.addr (r : RegName) : Word := BitVec.ofNat 32 (4 * r.index)

/-- A line of a script (R98, R99). `polls` is how many reads of `WAIT` meet `BUSY = 1`. -/
inductive Line where
  | wr (r : RegName) (v : Word)
  | wrAddr (addr v : Word)
  | rd (r : RegName)
  | rdAddr (addr : Word)
  | cmd (i : Instr)
  | wait (polls : Nat)
  | run (i : Instr) (polls : Nat)
  | setdim (r c : Nat)
  | setscale (s0 s1 s2 : Int)
  | reset
  | loadtext (text : List Byte)
deriving DecidableEq, Repr

/-- A write of a whole word. -/
def arriveWrite (overlaps : Bool) (addr v : Word) : Arrival :=
  { op := .write addr 4 v, overlaps := overlaps }

/-- A read of a whole word. -/
def arriveRead (overlaps : Bool) (addr : Word) : Arrival :=
  { op := .read addr 4, overlaps := overlaps }

/-- `WAIT` (R99): reads of `STATUS` during the command, then one after its completion. -/
def waitArrivals (polls : Nat) : List Arrival :=
  List.replicate polls (arriveRead true RegName.status.addr) ++ [arriveRead false RegName.status.addr]

/-- Byte `k` of a text, zero after its end (R99). -/
def textByte (text : List Byte) (k : Nat) : Byte := text.getD k 0x00#8

/-- The writes of `LOADTEXT` to `PIN` (R99): four bytes a word, the last word padded with zero bytes. No rule says what
becomes of a text longer than the 256 bytes of `PIN`: here the writes go on at the addresses after it, `POUT` from
0x1100 and unmapped words from 0x1200. DESIGN CHOICE, log 22. -/
def textWrites (overlaps : Bool) (text : List Byte) : List Arrival :=
  (List.range ((text.length + 3) / 4)).map (fun j =>
    arriveWrite overlaps (BitVec.ofNat 32 (pinBase + 4 * j))
      (wordOf (textByte text (4 * j)) (textByte text (4 * j + 1)) (textByte text (4 * j + 2))
        (textByte text (4 * j + 3))))

/-- The transactions of a line (R98, R99). `overlaps` places the line's transactions, all alike, before or after the
completion of a command still in flight (DESIGN CHOICE, log 15); those of a `WAIT` are placed by its polls.
Numbers past 32 bits are written modulo 2^32 (log 21), a channel of 3 as the illegal word (log 22). -/
def Line.arrivals (overlaps : Bool) : Line → List Arrival
  | .wr r v => [arriveWrite overlaps r.addr v]
  | .wrAddr addr v => [arriveWrite overlaps addr v]
  | .rd r => [arriveRead overlaps r.addr]
  | .rdAddr addr => [arriveRead overlaps addr]
  | .cmd i => [arriveWrite overlaps RegName.cmd.addr (Sys2Proof.encode i)]
  | .wait polls => waitArrivals polls
  | .run i polls => arriveWrite overlaps RegName.cmd.addr (Sys2Proof.encode i) :: waitArrivals polls
  | .setdim r c =>
    [arriveWrite overlaps RegName.rows.addr (BitVec.ofNat 32 r),
      arriveWrite overlaps RegName.cols.addr (BitVec.ofNat 32 c)]
  | .setscale s0 s1 s2 =>
    [arriveWrite overlaps RegName.scale0.addr (BitVec.ofInt 32 s0),
      arriveWrite overlaps RegName.scale1.addr (BitVec.ofInt 32 s1),
      arriveWrite overlaps RegName.scale2.addr (BitVec.ofInt 32 s2)]
  | .reset => [arriveWrite overlaps RegName.ctrl.addr 0x00000001#32]
  | .loadtext text =>
    textWrites overlaps text
      ++ [arriveWrite overlaps RegName.wmbytes.addr (BitVec.ofNat 32 text.length)]

/-- The transactions of a script, its lines in order (R98). The spec leaves open where a completion falls between the
lines of a script that has no `WAIT` after a `CMD` (U4, R265). DESIGN CHOICE, log 15: that place is the argument
`before`: transaction `k` of the script (counted from 0) lands before the completion of a command then in flight when
`before k` is true, after it when false. The last poll of a `WAIT` lands after it for every `before`; `before` is true
at the early polls, since each meets `BUSY = 1`. -/
def scriptArrivals (before : Nat → Bool) (lines : List Line) : List Arrival :=
  (lines.flatMap (Line.arrivals true)).mapIdx (fun k x => { x with overlaps := x.overlaps && before k })

/-- The writes that load a pixel grid, cell 0 first (20_memory.md R66; the order is log 21). A list of more than 2^24
pixels, of which R100 says nothing, is written on past the window, into the Y plane from 0x08000000. DESIGN CHOICE,
log 22. -/
def loadGrid (pixels : List Word) : List Line :=
  pixels.mapIdx (fun k w => .wrAddr (BitVec.ofNat 32 (rgbBase + 4 * k)) w)

/-- The reads that fetch a pixel grid of `n` cells back (20_memory.md R66; the order is log 21). With `n` above 2^24, of
which R100 says nothing, the reads go on past the window, into the Y plane. DESIGN CHOICE, log 22. -/
def readGrid (n : Nat) : List Line :=
  (List.range n).map (fun k => .rdAddr (BitVec.ofNat 32 (rgbBase + 4 * k)))

/-- The document's `encode(pixels, payloadBytes, scales, blockSize)` (R100). Numbers past 32 bits are written modulo
2^32, and the grid is loaded and read in the order of its cells: DESIGN CHOICE, log 21. The payload is loaded by
`LOADTEXT`, `pixels` need not have `rows * cols` entries, arguments past the buffers go on past their windows, and the
reads follow whatever the command's answer is: DESIGN CHOICE, log 22. -/
def encodeScript (rows cols : Nat) (pixels : List Word) (payload : List Byte) (s0 s1 s2 : Int) (blockSize polls : Nat) :
    List Line :=
  loadGrid pixels
    ++ [.setdim rows cols, .setscale s0 s1 s2, .wr .bsize (BitVec.ofNat 32 blockSize), .loadtext payload,
      .run .encode polls]
    ++ readGrid (rows * cols)

/-- The document's `decode(pixels, expectedBitLength)` with the reads of `POUT` (R100). R199 puts `expectedBitLength` at
`8 * WMBYTES`; the source is silent on a length that is no multiple of 8 (91_not_in_source.md N8) and D13 makes it
inexpressible. The script takes any `bitLength` and drops the remainder of the division by 8: DESIGN CHOICE, log 21.
`POUT` is read in whole words, the last of which may hold bytes past the length. A length above 256 bytes, of which
R100 says nothing, is read on past `POUT` at the unmapped words from 0x1200, and the grid as in `encodeScript`: DESIGN
CHOICE, log 22. -/
def decodeScript (rows cols : Nat) (pixels : List Word) (bitLength polls : Nat) : List Line :=
  loadGrid pixels
    ++ [.setdim rows cols, .wr .wmbytes (BitVec.ofNat 32 (bitLength / 8)), .run .decode polls]
    ++ (List.range ((bitLength / 8 + 3) / 4)).map (fun j => .rdAddr (BitVec.ofNat 32 (poutBase + 4 * j)))

end Sys2Proof.Machine
end

