-- ==== Sys2Proof/Safety.lean ====
section
/-!
DEFINITION. What a safe state is: the relations of 10_state.md R25, 30_encoding.md R94 and 60_exceptions.md R221, R228
that every step keeps. The read and write sets of the commands (70_reset_and_hazards.md R258).
-/

namespace Sys2Proof.Machine

/-- The codes that `STATUS.ERRCODE` can hold with a fault recorded: those of R221 but the reserved 0x03 (R224, U8). -/
def producedCodes : List Byte :=
  [0x01#8, 0x02#8, 0x04#8, 0x10#8, 0x11#8, 0x12#8, 0x13#8, 0x14#8]

/-- `BUSY`, `DONE` and `ERR` exclude one another (R95, R97, R226), and a code is recorded exactly with `ERR` (R221). -/
abbrev Status.consistent (t : Status) : Prop :=
  (t.busy = true → t.done = false ∧ t.err = false) ∧
  (t.done = true → t.err = false) ∧
  (t.err = true → t.errCode ∈ producedCodes) ∧
  (t.err = false → t.errCode = 0x00#8)

/-- A command in flight is legal and its checks passed (R94: "a command in flight cannot fault"). -/
abbrev State.flightLegal (s : State) : Prop := s.status.busy = true → checkWord s.cmd s = none

/-- The invariant of the machine: canonical buffers, consistent status, a legal command in flight. -/
abbrev State.inv (s : State) : Prop := s.mem.wf ∧ s.status.consistent ∧ s.flightLegal

/-- An address among `n` bytes from `lo`. -/
abbrev within (lo n a : Nat) : Prop := lo ≤ a ∧ a < lo + n

/-- The pixel words of the grid (20_memory.md R66). -/
def State.gridBytes (s : State) (a : Nat) : Prop := within rgbBase (4 * s.area) a

/-- The samples of a plane over the grid (R67). -/
def State.planeBytes (s : State) (ch : Channel) (a : Nat) : Prop := within (planeBase ch) s.area a

/-- The cells of a subband (R68). -/
def State.subbandBytes (s : State) (a : Nat) : Prop :=
  ∃ b : Subband, within (subbandBase b) (4 * (s.subRows * s.subCols)) a

/-- The samples of a plane inside the processed region (00_scope.md R13). -/
def State.regionBytes (s : State) (ch : Channel) (a : Nat) : Prop :=
  ∃ r c, r < s.regionRows ∧ c < s.regionCols ∧ a = sampleAddr ch (s.gridCell r c)

/-- The cells of `SA` that belong to a block (43_embed.md R161). -/
def State.blockBytes (s : State) (a : Nat) : Prop :=
  ∃ i p, i < s.nBlocks ∧ p < s.blk * s.blk ∧ within (subbandAddr .sa (s.blockCell i p)) 4 a

/-- The dominant cell of each block (43_embed.md R162). -/
def State.dominantBytes (s : State) (a : Nat) : Prop :=
  ∃ i, i < s.nBlocks ∧ within (subbandAddr .sa (s.dominantCell i)) 4 a

/-- The payload bytes in use. -/
def State.payloadBytes (s : State) (a : Nat) : Prop := within pinBase s.nBytes a

/-- The counters in use. -/
def State.voteBytes (s : State) (a : Nat) : Prop :=
  within onesBase (4 * s.wmLen) a ∨ within totalBase (4 * s.wmLen) a

/-- All counters. -/
def allVoteBytes (a : Nat) : Prop :=
  within onesBase (4 * Config.vmax) a ∨ within totalBase (4 * Config.vmax) a

/-- Some channel is processed by the codec (45_codec.md R197, R200). -/
def State.someScale (s : State) : Prop := ∃ ch : Channel, 0 < s.scale ch

/-- The column "reads" of R258: the buffer bytes that the result of a command depends on. -/
def readSet (i : Instr) (s : State) (a : Nat) : Prop :=
  match i with
  | .nop => False
  | .rgb2yuv => s.gridBytes a
  | .yuv2rgb => ∃ ch : Channel, s.planeBytes ch a
  | .subsamp => ∃ ch ∈ s.selected, s.planeBytes ch a
  | .dwtfwd f => ∃ ch : Channel, Channel.ofField f = some ch ∧ s.regionBytes ch a
  | .dwtinv _ => s.subbandBytes a
  | .embed _ => s.blockBytes a ∨ s.payloadBytes a
  | .extract _ => s.blockBytes a ∨ s.voteBytes a
  | .vclear => False
  | .tally => s.voteBytes a
  | .encode => s.gridBytes a ∨ s.payloadBytes a
  | .decode => s.gridBytes a

/-- The column "writes" of R258: the buffer bytes that a command changes. -/
def writeSet (i : Instr) (s : State) (a : Nat) : Prop :=
  match i with
  | .nop => False
  | .rgb2yuv => ∃ ch : Channel, s.planeBytes ch a
  | .yuv2rgb => s.gridBytes a
  | .subsamp => ∃ ch ∈ s.selected, s.planeBytes ch a
  | .dwtfwd _ => s.subbandBytes a
  | .dwtinv f => ∃ ch : Channel, Channel.ofField f = some ch ∧ s.regionBytes ch a
  | .embed _ => s.dominantBytes a
  | .extract _ => s.voteBytes a
  | .vclear => allVoteBytes a
  | .tally => within poutBase s.nBytes a
  | .encode => s.gridBytes a ∨ (∃ ch : Channel, s.planeBytes ch a) ∨ (s.someScale ∧ s.subbandBytes a)
  | .decode =>
    (∃ ch : Channel, s.planeBytes ch a) ∨ (s.someScale ∧ s.subbandBytes a) ∨ allVoteBytes a ∨
      within poutBase s.nBytes a

/-- The configuration registers of two states agree (10_state.md R27 to R31). -/
abbrev State.sameConfig (s t : State) : Prop :=
  t.rows = s.rows ∧ t.cols = s.cols ∧ t.bsize = s.bsize ∧ t.scale0 = s.scale0 ∧ t.scale1 = s.scale1 ∧
    t.scale2 = s.scale2 ∧ t.submode = s.submode ∧ t.wmbytes = s.wmbytes

/-- Two states agree in everything but `STATUS` and the buffers. -/
abbrev State.sameOutside (s t : State) : Prop :=
  t.cmd = s.cmd ∧ t.ctrl = s.ctrl ∧ s.sameConfig t ∧ t.epoch = s.epoch ∧ t.freeReads = s.freeReads ∧
    t.pending = s.pending ∧ t.replies = s.replies

/-- A byte holds a value that reset, the host or a command put there (70_reset_and_hazards.md R252). -/
def State.definedByte (s : State) (a : Nat) : Prop :=
  (s.mem.get? a).isSome = true ∨ (resetByte a).isSome = true ∨ stored a = false

/-- The host wrote every cell that the command reads (R252, U1): a run that does not meet this depends on the free
contents of the buffers. -/
def readsDefined (i : Instr) (s : State) : Prop := ∀ a, readSet i s a → s.definedByte a

/-- The host does not touch the CORE while a command is in flight but to read a register (R262). -/
def HostOp.polite (op : HostOp) : Prop :=
  match op with
  | .read addr width => busTarget addr width = some .reg
  | .write _ _ _ => False
  | .hardReset => True

/-- Every transaction that lands during a command is polite (R262). -/
def State.politeHost (s : State) : Prop := ∀ x ∈ s.pending, x.overlaps = true → x.op.polite

/-- An interaction is over (R266): nothing in flight, and the last command completed or faulted. -/
abbrev State.final (s : State) : Prop := s.status.busy = false ∧ (s.status.done = true ∨ s.status.err = true)

end Sys2Proof.Machine
end

