-- ==== Sys2Proof/Certificates/Slice0/Obligations.lean ====
section
/-!
DEFINITION. The statements for the provers. `Sys2Proof.Stated` holds the spec's own formulas, over the rationals and
integers, in which the statements say what the machine must give.
-/

namespace Sys2Proof.Stated

open Sys2Proof.Machine

/-- `clip(x)` (00_scope.md R9). -/
def clip (x : ℚ) : ℚ := if x < 0 then 0 else if 255 < x then 255 else x

/-- `rnd(x) = floor(x + 1/2)` (R9). -/
def rnd (x : ℚ) : ℤ := ⌊x + 1 / 2⌋

/-- `cr(x) = rnd(clip(x))` (R9). -/
def cr (x : ℚ) : ℤ := rnd (clip x)

/-- An 8-bit cell as a rational. -/
def real (b : Byte) : ℚ := (b.toNat : ℚ)

/-- The field that selects a channel (30_encoding.md R90, R91). -/
def fieldOf (ch : Channel) : ChannelField := BitVec.ofNat 2 ch.index

/-- The word of a `CMDC` command, `op + (ch << 8)` (R98). -/
def channelWord (op : Nat) (ch : Channel) : Word := BitVec.ofNat 32 (op + ch.index * 256)

/-- Test 2 of 60_exceptions.md R227. -/
def gridFault (s : State) : Option FaultKind :=
  if s.rows.toNat * s.cols.toNat < 65536 then some .imageTooSmall
  else if 16777216 < s.rows.toNat * s.cols.toNat then some .imageTooLarge
  else none

/-- Test 3 of R227. -/
def blockFault (s : State) : Option FaultKind :=
  if s.bsize.toNat % 2 = 1 ∨ s.bsize.toNat < 2 ∨ 64 < s.bsize.toNat then some .badBlockSize else none

/-- Test 4 of R227 for one scale register. -/
def scaleFault (s : State) (ch : Channel) : Option FaultKind :=
  if 32767 < (match ch with | .y => s.scale0 | .u => s.scale1 | .v => s.scale2).toInt then some .badScale else none

/-- Test 5 of R227. -/
def lengthFault (s : State) : Option FaultKind :=
  if s.wmbytes.toNat = 0 ∨ 256 < s.wmbytes.toNat then some .badLength else none

/-- Test 6 of R227. -/
def submodeFault (s : State) : Option FaultKind :=
  if s.submode.toNat = 3 then some .unsupportedSubsampleMode
  else if 4 ≤ s.submode.toNat then some .badSubmode
  else none

/-- What every completion does outside the buffers and `EMPTY` (30_encoding.md R97): `BUSY <- 0`, `DONE <- 1`, all
else as before. -/
abbrev completed (s t : State) : Prop :=
  s.sameOutside t ∧ t.status = { s.status with busy := false, done := true }

/-- The host transaction `op` is the next event, before the transactions `rest`. That events come from a list, and
that a step takes the transaction off it and records its answer in `replies`, is the model's form of the port of R60
and the order of R75 (log 2, log 3); the statements write `pending` and `replies` out in that form. -/
abbrev lands (op : HostOp) (rest : List Arrival) (s : State) : Prop :=
  ∃ ov, s.pending = { op := op, overlaps := ov } :: rest ∧ (s.status.busy = true → ov = true)

/-- The address map (20_memory.md R61): window, first byte, last byte. -/
def mapTable : List (Window × Nat × Nat) :=
  [(.reg, 0x00000000, 0x00000FFF), (.pin, 0x00001000, 0x000010FF), (.pout, 0x00001100, 0x000011FF),
    (.ones, 0x00004000, 0x00005FFF), (.total, 0x00006000, 0x00007FFF), (.rgb, 0x04000000, 0x07FFFFFF),
    (.plane .y, 0x08000000, 0x08FFFFFF), (.plane .u, 0x09000000, 0x09FFFFFF), (.plane .v, 0x0A000000, 0x0AFFFFFF),
    (.subband .sa, 0x0C000000, 0x0CFFFFFF), (.subband .sh, 0x0D000000, 0x0DFFFFFF),
    (.subband .sv, 0x0E000000, 0x0EFFFFFF), (.subband .sd, 0x0F000000, 0x0FFFFFFF)]

/-- A register's reset value (10_state.md R21). -/
def resetValue (i : Nat) : Word :=
  match i with
  | 5 => 0x00000004#32
  | 7 => 0x00000024#32
  | 8 => 0x00000024#32
  | 10 => 0x00000004#32
  | _ => 0x00000000#32

/-- The reset contents of the buffers that have any (10_state.md R35 to R37). -/
def resetContents (s : State) : Prop :=
  s.byte 0x1000 = 0x53#8 ∧ s.byte 0x1001 = 0x44#8 ∧ s.byte 0x1002 = 0x56#8 ∧ s.byte 0x1003 = 0x32#8 ∧
    (∀ k, 4 ≤ k → k < 256 → s.byte (0x1000 + k) = 0x00#8) ∧ (∀ k, k < 256 → s.byte (0x1100 + k) = 0x00#8) ∧
    (∀ p, p < 2048 → s.word (0x4000 + 4 * p) = 0#32 ∧ s.word (0x6000 + 4 * p) = 0#32)

/-- The address of a byte in a big buffer: pixel grid, plane or subband (R61). -/
def inBigBuffer (a : Nat) : Prop :=
  (0x04000000 ≤ a ∧ a ≤ 0x0AFFFFFF) ∨ (0x0C000000 ≤ a ∧ a ≤ 0x0FFFFFFF)

/-- `dominant(i)` as 43_embed.md R162 defines it. -/
def isDominant (s : State) (i p : Nat) : Prop :=
  (1 ≤ p ∧ p ≤ s.blk * s.blk - 1) ∧
    (∀ q, 1 ≤ q → q ≤ s.blk * s.blk - 1 → (s.blockCoeff i q).natAbs ≤ (s.blockCoeff i p).natAbs) ∧
    (∀ p', 1 ≤ p' → p' < p → ∃ q, 1 ≤ q ∧ q ≤ s.blk * s.blk - 1 ∧
      (s.blockCoeff i p').natAbs < (s.blockCoeff i q).natAbs)

/-- `payloadBit(k)` (R160). -/
def payloadBit (s : State) (k : Nat) : Nat := ((s.byte (0x1000 + k / 8)).toNat >>> (7 - k % 8)) % 2

/-- The new coefficient of the document's embed function (R163): `v` real, `sc` the scale, `bit` 0 or 1. -/
def embedReal (v : ℚ) (sc : ℤ) (bit : Nat) : ℚ :=
  if 0 ≤ v then ((⌊v / sc⌋ : ℚ) + 0.25 + 0.5 * bit) * sc
  else -1 * (((⌊|v| / sc⌋ : ℚ) + 0.25 + 0.5 * bit) * sc)

/-- The document's extract function (44_extract_vote.md R177): `r = v mod s`, bit 1 when `r > 0.5 s`. -/
def extractReal (v : ℚ) (sc : ℤ) : Bool := decide (0.5 * (sc : ℚ) < v - sc * ⌊v / sc⌋)

/-- The blocks that carry payload bit `k` and vote for it (R164, R178). -/
def carriersOf (s : State) (k : Nat) : List Nat := (List.range s.nBlocks).filter (fun i => i % s.wmLen = k)

/-- `f(p)` (R182). -/
def finalBit (s : State) (p : Nat) : Nat := if 255 * (s.ones p).toNat > 127 * (s.total p).toNat then 1 else 0

/-- The state with a command in flight, as its completion sees it. -/
def inFlight (s : State) : State := { s with status := { s.status with busy := true } }

/-- The state after the effect of the simple command `i`, still in flight: its completion, with `BUSY` and `DONE` as
they were. -/
def afterEffect (i : Instr) (s : State) : State :=
  match exec i (inFlight s) with
  | .next t => { t with status := { t.status with busy := s.status.busy, done := s.status.done } }
  | _ => s

/-- Each command of the list, run after the effects of those before it, passes its checks and completes: at no
intermediate state does `afterEffect` meet a stop. -/
def completesInTurn (l : List Instr) (s : State) : Prop :=
  ∀ (ran : List Instr) (i : Instr) (rest : List Instr), l = ran ++ i :: rest →
    check i (ran.foldl (fun u j => afterEffect j u) s) = none ∧
      ∃ u, exec i (inFlight (ran.foldl (fun u j => afterEffect j u) s)) = .next u

/-- The commands that `ENCODE` runs (45_codec.md R197). -/
def encodeSequence (s : State) : List Instr :=
  [.rgb2yuv, .subsamp]
    ++ ([Channel.y, Channel.u, Channel.v].filter (fun ch => 0 < s.scale ch)).flatMap
      (fun ch => [.dwtfwd (fieldOf ch), .embed (fieldOf ch), .dwtinv (fieldOf ch)])
    ++ [.yuv2rgb]

/-- The commands that `DECODE` runs (R200). -/
def decodeSequence (s : State) : List Instr :=
  [.rgb2yuv, .vclear]
    ++ ([Channel.y, Channel.u, Channel.v].filter (fun ch => 0 < s.scale ch)).flatMap
      (fun ch => [.dwtfwd (fieldOf ch), .extract (fieldOf ch)])
    ++ [.tally]

/-- The host's writes of command words, each after the completion of the one before (30_encoding.md R98). -/
def commandArrivals (l : List Instr) : List Arrival :=
  l.map (fun i => { op := .write 0x00000000#32 4 (Sys2Proof.encode i), overlaps := false })

/-- The event that a step takes is a soft or hard reset (60_exceptions.md R229). -/
def resetEvent (s : State) : Prop :=
  ∃ rest, lands .hardReset rest s ∨
    ∃ w : Word, w.getLsbD 0 = true ∧ s.status.busy = false ∧ lands (.write 0x00000008#32 4 w) rest s

end Sys2Proof.Stated

open Sys2Proof Sys2Proof.Machine Sys2Proof.Stated

/-! ### Encoding -/

/-- R90, R92, R93: a word decodes to a command exactly when the command is well-formed and encodes to that word. -/
def Obligations.DecodeEncodeAgree : Prop :=
  ∀ (w : Word) (i : Instr), Sys2Proof.decode w = .ok i ↔ (i.wellFormed = true ∧ Sys2Proof.encode i = w)

/-- R92: the opcode map as match and mask. -/
def Obligations.DecodeMatchesOpcodeMap : Prop :=
  ∀ w : Word,
    (Sys2Proof.decode w = .ok .nop ↔ w &&& 0xFFFFFFFF#32 = 0x00#32) ∧
    (Sys2Proof.decode w = .ok .rgb2yuv ↔ w &&& 0xFFFFFFFF#32 = 0x01#32) ∧
    (Sys2Proof.decode w = .ok .yuv2rgb ↔ w &&& 0xFFFFFFFF#32 = 0x02#32) ∧
    (Sys2Proof.decode w = .ok .subsamp ↔ w &&& 0xFFFFFFFF#32 = 0x03#32) ∧
    (∀ ch, Sys2Proof.decode w = .ok (.dwtfwd ch) ↔
      w &&& 0xFFFFFCFF#32 = 0x04#32 ∧ ch = w.extractLsb' 8 2 ∧ ch ≠ 3#2) ∧
    (∀ ch, Sys2Proof.decode w = .ok (.dwtinv ch) ↔
      w &&& 0xFFFFFCFF#32 = 0x05#32 ∧ ch = w.extractLsb' 8 2 ∧ ch ≠ 3#2) ∧
    (∀ ch, Sys2Proof.decode w = .ok (.embed ch) ↔
      w &&& 0xFFFFFCFF#32 = 0x06#32 ∧ ch = w.extractLsb' 8 2 ∧ ch ≠ 3#2) ∧
    (∀ ch, Sys2Proof.decode w = .ok (.extract ch) ↔
      w &&& 0xFFFFFCFF#32 = 0x07#32 ∧ ch = w.extractLsb' 8 2 ∧ ch ≠ 3#2) ∧
    (Sys2Proof.decode w = .ok .vclear ↔ w &&& 0xFFFFFFFF#32 = 0x08#32) ∧
    (Sys2Proof.decode w = .ok .tally ↔ w &&& 0xFFFFFFFF#32 = 0x09#32) ∧
    (Sys2Proof.decode w = .ok .encode ↔ w &&& 0xFFFFFFFF#32 = 0x0A#32) ∧
    (Sys2Proof.decode w = .ok .decode ↔ w &&& 0xFFFFFFFF#32 = 0x0B#32)

/-- R93: exactly these words are illegal, and issuing one raises `IllegalCommand` with no other effect. The event and
its answer are in the form of log 2 and log 3. -/
def Obligations.IllegalWordsFault : Prop :=
  ∀ w : Word,
    ((∃ e, Sys2Proof.decode w = .error e) ↔
      (0x0B < (w.extractLsb' 0 8).toNat ∨ w.extractLsb' 10 22 ≠ 0#22 ∨
        (4 ≤ (w.extractLsb' 0 8).toNat ∧ (w.extractLsb' 0 8).toNat ≤ 7 ∧ w.extractLsb' 8 2 = 3#2) ∨
        (((w.extractLsb' 0 8).toNat < 4 ∨ 7 < (w.extractLsb' 0 8).toNat) ∧ w.extractLsb' 8 2 ≠ 0#2))) ∧
    (∀ (s : State) (rest : List Arrival), (∃ e, Sys2Proof.decode w = .error e) →
      lands (.write 0x00000000#32 4 w) rest s → s.status.busy = false → s.status.err = false →
      step s = .next
        { s with
          cmd := w
          pending := rest
          replies := .written :: s.replies
          status := { s.status with done := false, err := true, errCode := 0x10#8 } })

/-- Words written out from the fields of R90 decode to the commands of R92. -/
def Obligations.SampleWordsDecode : Prop :=
  Sys2Proof.decode 0b00000000000000000000000000000001#32 = .ok .rgb2yuv ∧
    Sys2Proof.decode 0b00000000000000000000000000000011#32 = .ok .subsamp ∧
    Sys2Proof.decode 0b00000000000000000000000100000100#32 = .ok (.dwtfwd 1#2) ∧
    Sys2Proof.decode 0b00000000000000000000001000000110#32 = .ok (.embed 2#2) ∧
    Sys2Proof.decode 0b00000000000000000000000000000111#32 = .ok (.extract 0#2) ∧
    Sys2Proof.decode 0b00000000000000000000000000001011#32 = .ok .decode ∧
    Sys2Proof.decode 0b00000000000000000000001100000100#32 = .error .illegalChannel

/-! ### One step -/

/-- R78, R95 (in the model's form of log 2 and log 7): the word of a write to `CMD` that reaches an idle CORE with
no fault recorded is decoded, and the step is `exec` of that command, the transaction taken off the list and
answered. -/
def Obligations.StepRunsOfferedCommand : Prop :=
  ∀ (s : State) (w : Word) (i : Instr) (rest : List Arrival),
    lands (.write 0x00000000#32 4 w) rest s → s.status.busy = false → s.status.err = false →
    Sys2Proof.decode w = .ok i → step s = exec i ((s.withPending rest).reply .written)

/-- R97 (in the model's form of log 2 and log 7): with a command in flight and no transaction landing before its
completion, the step is `exec` of the command whose word `CMD` holds; an idle CORE with nothing to come keeps its
state (R233). -/
def Obligations.StepRunsCommandInFlight : Prop :=
  (∀ (s : State) (i : Instr), s.status.busy = true → (∀ x ∈ s.pending.head?, x.overlaps = false) →
    Sys2Proof.decode s.cmd = .ok i → step s = exec i s) ∧
  (∀ s : State, s.status.busy = false → s.pending = [] → step s = .next s)

/-- R95, R226: issue latches the word, clears `DONE`, and either records the fault of the first failing check or sets
`BUSY`; nothing else changes. The event and its answer are in the form of log 2 and log 3. -/
def Obligations.IssueLatchesAndChecks : Prop :=
  ∀ (s : State) (w : Word) (rest : List Arrival),
    lands (.write 0x00000000#32 4 w) rest s → s.status.busy = false → s.status.err = false →
    step s = .next
      { s with
        cmd := w
        pending := rest
        replies := .written :: s.replies
        status :=
          match checkWord w s with
          | some k => { s.status with done := false, err := true, errCode := k.code }
          | none => { s.status with done := false, busy := true } }

/-- R227, R228: the codes of the checks, and the checks of every command, in their order. -/
def Obligations.ChecksInPriority : Prop :=
  [FaultKind.illegalCommand, .imageTooSmall, .imageTooLarge, .badBlockSize, .badScale, .badLength,
      .unsupportedSubsampleMode, .badSubmode].map FaultKind.code =
    [0x10#8, 0x01#8, 0x02#8, 0x11#8, 0x12#8, 0x13#8, 0x04#8, 0x14#8] ∧
  ∀ s : State,
    check .nop s = none ∧
    check .rgb2yuv s = gridFault s ∧
    check .yuv2rgb s = gridFault s ∧
    check .subsamp s = (gridFault s).or (submodeFault s) ∧
    (∀ ch, check (.dwtfwd (fieldOf ch)) s = (gridFault s).or (blockFault s)) ∧
    (∀ ch, check (.dwtinv (fieldOf ch)) s = (gridFault s).or (blockFault s)) ∧
    (∀ ch, check (.embed (fieldOf ch)) s =
      (gridFault s).or ((blockFault s).or ((scaleFault s ch).or (lengthFault s)))) ∧
    (∀ ch, check (.extract (fieldOf ch)) s =
      (gridFault s).or ((blockFault s).or ((scaleFault s ch).or (lengthFault s)))) ∧
    check .vclear s = none ∧
    check .tally s = lengthFault s ∧
    check .encode s =
      (gridFault s).or ((blockFault s).or ((scaleFault s .y).or ((scaleFault s .u).or ((scaleFault s .v).or
        ((lengthFault s).or (submodeFault s)))))) ∧
    check .decode s =
      (gridFault s).or ((blockFault s).or ((scaleFault s .y).or ((scaleFault s .u).or ((scaleFault s .v).or
        (lengthFault s))))) ∧
    check (.dwtfwd 3#2) s = some .illegalCommand ∧ check (.dwtinv 3#2) s = some .illegalCommand ∧
    check (.embed 3#2) s = some .illegalCommand ∧ check (.extract 3#2) s = some .illegalCommand ∧
    (∀ w, checkWord w s = some .illegalCommand ↔ ∃ e, Sys2Proof.decode w = .error e) ∧
    (∀ w i, Sys2Proof.decode w = .ok i → checkWord w s = check i s)

/-- R96: a write to `CMD` with `BUSY = 1` or `ERR = 1` is dropped and sets `OVR`. The event and its answer are in the
form of log 2 and log 3. -/
def Obligations.CommandDroppedWhenBusyOrFaulted : Prop :=
  ∀ (s : State) (w : Word) (rest : List Arrival),
    lands (.write 0x00000000#32 4 w) rest s → (s.status.busy = true ∨ s.status.err = true) →
    step s = .next
      { s with
        pending := rest
        replies := .written :: s.replies
        status := { s.status with ovr := true } }

/-- R64: accesses while a command is in flight. The event and its answer are in the form of log 2 and log 3. -/
def Obligations.AccessWhileBusy : Prop :=
  ∀ (s : State) (addr : Word) (rest : List Arrival), s.status.busy = true →
    (lands (.read addr 4) rest s → busTarget addr 4 = some .reg →
      step s = .next
        { s with pending := rest, replies := .data (s.readReg (addr.toNat / 4)) :: s.replies }) ∧
    (∀ w, lands (.write addr 4 w) rest s → (busTarget addr 4).isSome = true →
      step s = .next
        { s with
          pending := rest
          replies := .written :: s.replies
          status := { s.status with ovr := true } }) ∧
    (∀ win, lands (.read addr 4) rest s → busTarget addr 4 = some win → win ≠ .reg →
      ∃ v n, step s = .next
        { s with
          pending := rest
          replies := .data v :: s.replies
          freeReads := n
          status := { s.status with ovr := true } })

/-- R65: accesses while a fault is recorded. The event and its answer are in the form of log 2 and log 3. -/
def Obligations.AccessWhileFaulted : Prop :=
  ∀ (s : State) (addr w : Word) (rest : List Arrival), s.status.busy = false → s.status.err = true →
    (lands (.read addr 4) rest s → busTarget addr 4 = some .reg →
      step s = .next
        { s with pending := rest, replies := .data (s.readReg (addr.toNat / 4)) :: s.replies }) ∧
    (∀ win, lands (.read addr 4) rest s → busTarget addr 4 = some win → win ≠ .reg →
      step s = .next { s with pending := rest, replies := .data (s.word addr.toNat) :: s.replies }) ∧
    (lands (.write addr 4 w) rest s → busTarget addr 4 = some .reg → addr.toNat ≠ 0 →
      step s = .next (((s.withPending rest).writeReg (addr.toNat / 4) w).reply .written)) ∧
    (∀ win, lands (.write addr 4 w) rest s → busTarget addr 4 = some win → win ≠ .reg →
      step s = .next (((s.withPending rest).storeWord addr.toNat w).reply .written)) ∧
    (lands (.write 0x00000000#32 4 w) rest s →
      step s = .next
        { s with
          pending := rest
          replies := .written :: s.replies
          status := { s.status with ovr := true } })

/-- R61, R62: the map, and the bus error that changes no state of the CORE. That it comes before the rules for `BUSY`
and `ERR` is DEDUCED (log 9). The event and its answer are in the form of log 2 and log 3. -/
def Obligations.AddressMapAndBusErrors : Prop :=
  (∀ (addr : Word) (width : Nat) (win : Window), busTarget addr width = some win ↔
    width = 4 ∧ addr.toNat % 4 = 0 ∧
      ∃ lo hi, (win, lo, hi) ∈ mapTable ∧ lo ≤ addr.toNat ∧ addr.toNat ≤ hi) ∧
  (∀ (s : State) (addr w : Word) (width : Nat) (rest : List Arrival), busTarget addr width = none →
    (lands (.read addr width) rest s ∨ lands (.write addr width w) rest s) →
    step s = .next { s with pending := rest, replies := .busError :: s.replies })

/-- R21, R24 to R31: the register window: reset values, what each word reads as in every state (for `STATUS` and `CTRL`
each bit of their tables), read and write access, the reserved words. The event and its answer are in the form of
log 2 and log 3. -/
def Obligations.RegisterWindow : Prop :=
  (∀ i, i < 1024 → State.reset.readReg i = resetValue i) ∧
  (∀ (s : State) (i : Nat) (rest : List Arrival), i < 1024 → lands (.read (BitVec.ofNat 32 (4 * i)) 4) rest s →
    step s = .next { s with pending := rest, replies := .data (s.readReg i) :: s.replies }) ∧
  (∀ (s : State) (i : Nat) (w : Word) (rest : List Arrival), i < 1024 → s.status.busy = false →
    lands (.write (BitVec.ofNat 32 (4 * i)) 4 w) rest s →
    (3 ≤ i ∧ i ≤ 10 → ∃ t, step s = .next t ∧ t.readReg i = w ∧ (∀ j, j ≠ i → t.readReg j = s.readReg j) ∧
      t.mem = s.mem ∧ t.epoch = s.epoch) ∧
    (i = 1 ∨ 11 ≤ i → step s = .next { s with pending := rest, replies := .written :: s.replies })) ∧
  (∀ (s : State) (i : Nat), 11 ≤ i → s.readReg i = 0#32) ∧
  (∀ s : State,
    s.readReg 0 = s.cmd ∧
    ((s.readReg 1).getLsbD 0 = s.status.busy ∧ (s.readReg 1).getLsbD 1 = s.status.done ∧
      (s.readReg 1).getLsbD 2 = s.status.err ∧ (s.readReg 1).getLsbD 3 = s.status.ovr ∧
      (s.readReg 1).getLsbD 4 = s.status.empty ∧ (s.readReg 1).extractLsb' 5 3 = 0#3 ∧
      (s.readReg 1).extractLsb' 8 8 = s.status.errCode ∧ (s.readReg 1).extractLsb' 16 16 = 0#16) ∧
    ((s.readReg 2).getLsbD 0 = false ∧ (s.readReg 2).getLsbD 1 = s.ctrl.ieDone ∧
      (s.readReg 2).getLsbD 2 = s.ctrl.ieErr ∧ (s.readReg 2).extractLsb' 3 29 = 0#29) ∧
    s.readReg 3 = s.rows ∧ s.readReg 4 = s.cols ∧ s.readReg 5 = s.bsize ∧ s.readReg 6 = s.scale0 ∧
    s.readReg 7 = s.scale1 ∧ s.readReg 8 = s.scale2 ∧ s.readReg 9 = s.submode ∧ s.readReg 10 = s.wmbytes)

/-- R26: `CTRL` after reset and after a write. The event and its answer are in the form of log 2 and log 3. -/
def Obligations.CtrlWrite : Prop :=
  State.reset.readReg 2 = 0#32 ∧
  ∀ (s : State) (w : Word) (rest : List Arrival), lands (.write 0x00000008#32 4 w) rest s →
    (s.status.busy = false → w.getLsbD 0 = false → ∃ t, step s = .next t ∧
      t.readReg 2 = w &&& 0x00000006#32 ∧ t.ctrl.ieDone = w.getLsbD 1 ∧ t.ctrl.ieErr = w.getLsbD 2 ∧
      (∀ j, j ≠ 2 → t.readReg j = s.readReg j) ∧ t.mem = s.mem ∧ t.epoch = s.epoch) ∧
    (s.status.busy = false → w.getLsbD 0 = true → ∃ t, step s = .next t ∧
      t.readReg 2 = 0#32 ∧ t.ctrl.ieDone = false ∧ t.ctrl.ieErr = false ∧
      t = ((softReset (s.withPending rest)).reply .written)) ∧
    (s.status.busy = true → step s = .next
      { s with
        pending := rest
        replies := .written :: s.replies
        status := { s.status with ovr := true } })

/-! ### Reset and the interrupt line -/

/-- R251: a soft reset. The event and its answer are in the form of log 2 and log 3. -/
def Obligations.SoftResetRestores : Prop :=
  ∀ (s : State) (w : Word) (rest : List Arrival), lands (.write 0x00000008#32 4 w) rest s → w.getLsbD 0 = true →
    (s.status.busy = false → ∃ t, step s = .next t ∧ (∀ i, t.readReg i = resetValue i) ∧
      resetContents t ∧ (∀ a, inBigBuffer a → t.byte a = s.byte a) ∧ t.irq = false) ∧
    (s.status.busy = true → step s = .next
      { s with
        pending := rest
        replies := .written :: s.replies
        status := { s.status with ovr := true } })

/-- R250: a hard reset, also of a command in flight; one event (log 6). -/
def Obligations.HardResetRestores : Prop :=
  ∀ (s : State) (rest : List Arrival), lands .hardReset rest s →
    ∃ t, step s = .next t ∧ (∀ i, t.readReg i = resetValue i) ∧ resetContents t ∧ t.irq = false ∧
      t.status.busy = false ∧ t.pending = rest

/-- R21, R35, R36, R37, R39: the state right after reset. -/
def Obligations.ResetState : Prop :=
  (∀ i, State.reset.readReg i = resetValue i) ∧ resetContents State.reset ∧ State.reset.irq = false ∧
    State.reset.status.busy = false

/-- R230: the interrupt line is a level of `DONE`, `ERR` and their enables; it is low after reset, falls when a
command is accepted, follows `IE_DONE` after a completion and `IE_ERR` after a fault. The event and its answer are in
the form of log 2 and log 3. -/
def Obligations.InterruptLine : Prop :=
  State.reset.irq = false ∧
  (∀ s : State, s.irq = true ↔
    (s.status.done = true ∧ s.ctrl.ieDone = true) ∨ (s.status.err = true ∧ s.ctrl.ieErr = true)) ∧
  (∀ (s : State) (w : Word) (rest : List Arrival), lands (.write 0x00000000#32 4 w) rest s →
    s.status.busy = false → s.status.err = false →
    ∃ t, step s = .next t ∧ (t.irq = true ↔ checkWord w s ≠ none ∧ s.ctrl.ieErr = true)) ∧
  (∀ (s t : State) (i : Instr), s.status.busy = true → s.status.err = false → exec i s = .next t →
    t.irq = s.ctrl.ieDone)

/-! ### The buffers on the bus -/

/-- R63: in a window of byte cells, cell `k` is byte `k mod 4` of the word at offset `4 * (k div 4)`, least
significant first. R61, R66 to R70: the windows stand at the addresses of the map, with one pixel, subband cell or
counter a word in the others. -/
def Obligations.PackedCellsLittleEndian : Prop :=
  ∀ (s : State) (k : Nat),
    (∀ ch base, (ch, base) ∈ [(Channel.y, 0x08000000), (.u, 0x09000000), (.v, 0x0A000000)] →
      ((s.word (base + 4 * (k / 4))).toNat >>> (8 * (k % 4))) % 256 = (s.sample ch k).toNat) ∧
    ((s.word (0x1000 + 4 * (k / 4))).toNat >>> (8 * (k % 4))) % 256 = (s.byte (0x1000 + k)).toNat ∧
    ((s.word (0x1100 + 4 * (k / 4))).toNat >>> (8 * (k % 4))) % 256 = (s.byte (0x1100 + k)).toNat ∧
    (k < 16777216 → s.word (0x04000000 + 4 * k) =
      BitVec.ofNat 32 ((s.pixel k 0).toNat + 256 * (s.pixel k 1).toNat + 65536 * (s.pixel k 2).toNat)) ∧
    (∀ b base, (b, base) ∈ [(Subband.sa, 0x0C000000), (.sh, 0x0D000000), (.sv, 0x0E000000), (.sd, 0x0F000000)] →
      s.coeff b k = (s.word (base + 4 * k)).toInt) ∧
    s.ones k = s.word (0x4000 + 4 * k) ∧ s.total k = s.word (0x6000 + 4 * k)

/-- R66, R71: with `BUSY = 0` a read of a buffer word returns it, and a write to one stores the written bits (bits
31:24 of a pixel word dropped), returns them when read back, and leaves every other byte. The event and its answer are
in the form of log 2 and log 3. -/
def Obligations.BufferWriteThenRead : Prop :=
  (∀ (s : State) (addr : Word) (win : Window) (rest : List Arrival), s.status.busy = false →
    busTarget addr 4 = some win → win ≠ .reg → lands (.read addr 4) rest s →
    step s = .next { s with pending := rest, replies := .data (s.word addr.toNat) :: s.replies }) ∧
  (∀ (s : State) (addr w : Word) (win : Window) (rest : List Arrival), s.status.busy = false →
    busTarget addr 4 = some win → win ≠ .reg → lands (.write addr 4 w) rest s →
    ∃ t, step s = .next t ∧
      t.word addr.toNat = (if win = .rgb then w &&& 0x00FFFFFF#32 else w) ∧
      (∀ a, a < addr.toNat ∨ addr.toNat + 4 ≤ a → t.byte a = s.byte a) ∧
      s.sameConfig t ∧ t.cmd = s.cmd ∧ t.status = s.status ∧ t.ctrl = s.ctrl ∧ t.epoch = s.epoch ∧
      t.pending = rest)

/-! ### The commands -/

/-- R195: `NOP`. -/
def Obligations.NopCompletes : Prop :=
  Sys2Proof.decode 0x00000000#32 = .ok .nop ∧ (∀ s, check .nop s = none) ∧
  (∀ s : State, s.status.busy = true →
    exec .nop s = .next { s with status := { s.status with busy := false, done := true } }) ∧
  (∀ s : State, s.status.busy = false → s.status.err = false →
    exec .nop s = .next { s with cmd := 0x00000000#32, status := { s.status with done := false, busy := true } })

/-- R110, R112: `RGB2YUV`. -/
def Obligations.Rgb2yuvWritesPlanes : Prop :=
  Sys2Proof.decode 0x00000001#32 = .ok .rgb2yuv ∧ (∀ s, check .rgb2yuv s = gridFault s) ∧
  (∀ s : State, s.status.busy = true → gridFault s = none → ∃ t, exec .rgb2yuv s = .next t ∧ completed s t ∧
    (∀ r c, r < s.nRows → c < s.nCols →
      let R := real (s.pixel (s.gridCell r c) 0)
      let G := real (s.pixel (s.gridCell r c) 1)
      let B := real (s.pixel (s.gridCell r c) 2)
      ((t.sample .y (s.gridCell r c)).toNat : ℤ) = cr (0.299 * R + 0.587 * G + 0.114 * B) ∧
      ((t.sample .u (s.gridCell r c)).toNat : ℤ) = cr (-0.14713 * R - 0.28886 * G + 0.436 * B + 127.5) ∧
      ((t.sample .v (s.gridCell r c)).toNat : ℤ) = cr (0.615 * R - 0.51499 * G - 0.10001 * B + 127.5)) ∧
    (∀ a, ¬ (∃ ch, s.planeBytes ch a) → t.byte a = s.byte a))

/-- R113, R115: `YUV2RGB`. -/
def Obligations.Yuv2rgbWritesGrid : Prop :=
  Sys2Proof.decode 0x00000002#32 = .ok .yuv2rgb ∧ (∀ s, check .yuv2rgb s = gridFault s) ∧
  (∀ s : State, s.status.busy = true → gridFault s = none → ∃ t, exec .yuv2rgb s = .next t ∧ completed s t ∧
    (∀ r c, r < s.nRows → c < s.nCols →
      let Y := real (s.sample .y (s.gridCell r c))
      let U := real (s.sample .u (s.gridCell r c)) - 127.5
      let V := real (s.sample .v (s.gridCell r c)) - 127.5
      ((t.pixel (s.gridCell r c) 0).toNat : ℤ) = cr (Y + 1.13983 * V) ∧
      ((t.pixel (s.gridCell r c) 1).toNat : ℤ) = cr (Y - 0.39465 * U - 0.58060 * V) ∧
      ((t.pixel (s.gridCell r c) 2).toNat : ℤ) = cr (Y + 2.03211 * U)) ∧
    (∀ a, ¬ s.gridBytes a ∨ a % 4 = 3 → t.byte a = s.byte a))

/-- R132, R133: `SUBSAMP`. -/
def Obligations.SubsampOverwritesOddCells : Prop :=
  Sys2Proof.decode 0x00000003#32 = .ok .subsamp ∧
  (∀ s, check .subsamp s = (gridFault s).or (submodeFault s)) ∧
  (∀ s : State, s.status.busy = true → check .subsamp s = none → ∃ t, exec .subsamp s = .next t ∧ completed s t ∧
    let sel := fun ch : Channel =>
      (ch = .u ∧ (s.submode.toNat = 0 ∨ s.submode.toNat = 2)) ∨ (ch = .v ∧ (s.submode.toNat = 1 ∨ s.submode.toNat = 2))
    (∀ ch r c, sel ch → r < s.nRows → c < s.nCols →
      t.sample ch (s.gridCell r c) = s.sample ch (s.gridCell (r - r % 2) (c - c % 2))) ∧
    (∀ a, ¬ (∃ ch, sel ch ∧ s.planeBytes ch a) → t.byte a = s.byte a))

/-- R143: `DWTFWD ch`. -/
def Obligations.DwtfwdWritesSubbands : Prop :=
  (∀ ch, Sys2Proof.decode (channelWord 0x04 ch) = .ok (.dwtfwd (fieldOf ch))) ∧
  (∀ s ch, check (.dwtfwd (fieldOf ch)) s = (gridFault s).or (blockFault s)) ∧
  (∀ s, check (.dwtfwd 3#2) s = some .illegalCommand) ∧
  (∀ (s : State) (ch : Channel), s.status.busy = true → check (.dwtfwd (fieldOf ch)) s = none →
    ∃ t, exec (.dwtfwd (fieldOf ch)) s = .next t ∧ completed s t ∧
    (∀ i j, i < s.subRows → j < s.subCols →
      let a : ℤ := (s.sample ch (s.gridCell (2 * i) (2 * j))).toNat
      let b : ℤ := (s.sample ch (s.gridCell (2 * i) (2 * j + 1))).toNat
      let c : ℤ := (s.sample ch (s.gridCell (2 * i + 1) (2 * j))).toNat
      let d : ℤ := (s.sample ch (s.gridCell (2 * i + 1) (2 * j + 1))).toNat
      t.coeff .sa (s.subCell i j) = 2 * (a + b + c + d) ∧ t.coeff .sh (s.subCell i j) = 2 * (a + b - c - d) ∧
      t.coeff .sv (s.subCell i j) = 2 * (a - b + c - d) ∧ t.coeff .sd (s.subCell i j) = 2 * (a - b - c + d)) ∧
    (∀ a, ¬ s.subbandBytes a → t.byte a = s.byte a))

/-- R146: `DWTINV ch`. -/
def Obligations.DwtinvWritesRegion : Prop :=
  (∀ ch, Sys2Proof.decode (channelWord 0x05 ch) = .ok (.dwtinv (fieldOf ch))) ∧
  (∀ s ch, check (.dwtinv (fieldOf ch)) s = (gridFault s).or (blockFault s)) ∧
  (∀ s, check (.dwtinv 3#2) s = some .illegalCommand) ∧
  (∀ (s : State) (ch : Channel), s.status.busy = true → check (.dwtinv (fieldOf ch)) s = none →
    ∃ t, exec (.dwtinv (fieldOf ch)) s = .next t ∧ completed s t ∧
    (∀ i j, i < s.subRows → j < s.subCols →
      let sa : ℚ := s.coeff .sa (s.subCell i j)
      let sh : ℚ := s.coeff .sh (s.subCell i j)
      let sv : ℚ := s.coeff .sv (s.subCell i j)
      let sd : ℚ := s.coeff .sd (s.subCell i j)
      ((t.sample ch (s.gridCell (2 * i) (2 * j))).toNat : ℤ) = cr ((sa + sv + sh + sd) / 8) ∧
      ((t.sample ch (s.gridCell (2 * i) (2 * j + 1))).toNat : ℤ) = cr ((sa + sv - sh - sd) / 8) ∧
      ((t.sample ch (s.gridCell (2 * i + 1) (2 * j))).toNat : ℤ) = cr ((sa - sv + sh - sd) / 8) ∧
      ((t.sample ch (s.gridCell (2 * i + 1) (2 * j + 1))).toNat : ℤ) = cr ((sa - sv - sh + sd) / 8)) ∧
    (∀ a, ¬ s.regionBytes ch a → t.byte a = s.byte a))

/-- R162: the dominant position. -/
def Obligations.DominantIsLeastMaximum : Prop :=
  ∀ (s : State) (i p : Nat), 2 ≤ s.blk → (s.dominant i = p ↔ isDominant s i p)

/-- R160, R163, R164: `EMBED ch`. -/
def Obligations.EmbedWritesDominantCells : Prop :=
  (∀ ch, Sys2Proof.decode (channelWord 0x06 ch) = .ok (.embed (fieldOf ch))) ∧
  (∀ s ch, check (.embed (fieldOf ch)) s =
    (gridFault s).or ((blockFault s).or ((scaleFault s ch).or (lengthFault s)))) ∧
  (∀ s, check (.embed 3#2) s = some .illegalCommand) ∧
  (∀ (s : State) (ch : Channel), s.status.busy = true → check (.embed (fieldOf ch)) s = none →
    ∃ t, exec (.embed (fieldOf ch)) s = .next t ∧ completed s t ∧
    (s.scale ch ≤ 0 → t = { s with status := t.status }) ∧
    (0 < s.scale ch → ∀ i p, i < s.nBlocks → isDominant s i p →
      ∃ m : ℤ, (m : ℚ) =
          4 * embedReal ((s.coeff .sa (s.blockCell i p) : ℚ) / 4) (s.scale ch) (payloadBit s (i % (8 * s.nBytes))) ∧
        t.coeff .sa (s.blockCell i p) = (BitVec.ofInt 32 m).toInt) ∧
    (∀ k, k < s.wmLen → (carriersOf s k).length = s.nBlocks / s.wmLen ∨
      (carriersOf s k).length = s.nBlocks / s.wmLen + 1) ∧
    (∀ a, ¬ (∃ i, i < s.nBlocks ∧ within (subbandAddr .sa (s.blockCell i (s.dominant i))) 4 a) →
      t.byte a = s.byte a))

/-- R177, R178: `EXTRACT ch`. -/
def Obligations.ExtractCountsVotes : Prop :=
  (∀ ch, Sys2Proof.decode (channelWord 0x07 ch) = .ok (.extract (fieldOf ch))) ∧
  (∀ s ch, check (.extract (fieldOf ch)) s =
    (gridFault s).or ((blockFault s).or ((scaleFault s ch).or (lengthFault s)))) ∧
  (∀ s, check (.extract 3#2) s = some .illegalCommand) ∧
  (∀ (s : State) (ch : Channel), s.status.busy = true → check (.extract (fieldOf ch)) s = none →
    ∃ t, exec (.extract (fieldOf ch)) s = .next t ∧ completed s t ∧
    (s.scale ch ≤ 0 → t = { s with status := t.status }) ∧
    (0 < s.scale ch → ∀ k, k < s.wmLen →
      (t.ones k).toNat = ((s.ones k).toNat +
        (carriersOf s k).countP (fun i =>
          extractReal ((|s.coeff .sa (s.blockCell i (s.dominant i))| : ℚ) / 4) (s.scale ch))) % 2 ^ 32 ∧
      (t.total k).toNat = ((s.total k).toNat + (carriersOf s k).length) % 2 ^ 32 ∧
      (carriersOf s k).length = s.nBlocks / s.wmLen + (if k < s.nBlocks % s.wmLen then 1 else 0)) ∧
    (∀ a, ¬ s.voteBytes a → t.byte a = s.byte a))

/-- R176: `VCLEAR`. -/
def Obligations.VclearEmptiesAccumulator : Prop :=
  Sys2Proof.decode 0x00000008#32 = .ok .vclear ∧ (∀ s, check .vclear s = none) ∧
  (∀ s : State, s.status.busy = true → ∃ t, exec .vclear s = .next t ∧ completed s t ∧
    (∀ p, p < 2048 → t.ones p = 0#32 ∧ t.total p = 0#32) ∧
    (∀ a, ¬ (0x4000 ≤ a ∧ a < 0x8000) → t.byte a = s.byte a))

/-- R180, R182: `TALLY`. -/
def Obligations.TallyThresholdsAndPacks : Prop :=
  Sys2Proof.decode 0x00000009#32 = .ok .tally ∧ (∀ s, check .tally s = lengthFault s) ∧
  (∀ s : State, s.status.busy = true → lengthFault s = none → ∃ t, exec .tally s = .next t ∧ s.sameOutside t ∧
    t.status = { s.status with busy := false, done := true, empty := t.status.empty } ∧
    (t.status.empty = true ↔ ∃ p, p < s.wmLen ∧ s.total p = 0#32) ∧
    (∀ j, j < s.nBytes → (t.byte (0x1100 + j)).toNat =
      (Finset.range 8).sum (fun k => finalBit s (8 * j + k) * 2 ^ (7 - k))) ∧
    (∀ a, ¬ (0x1100 ≤ a ∧ a < 0x1100 + s.nBytes) → t.byte a = s.byte a))

/-- R197: `ENCODE` is the sequence of the simple commands' effects in one completion, each of which completes in the
state that the one before it left. -/
def Obligations.EncodeRunsSequence : Prop :=
  Sys2Proof.decode 0x0000000A#32 = .ok .encode ∧
  (∀ s : State, check .encode s =
    (gridFault s).or ((blockFault s).or ((scaleFault s .y).or ((scaleFault s .u).or ((scaleFault s .v).or
      ((lengthFault s).or (submodeFault s))))))) ∧
  (∀ s : State, s.status.busy = true → check .encode s = none → ∃ t, exec .encode s = .next t ∧ completed s t ∧
    t.mem = ((encodeSequence s).foldl (fun u i => afterEffect i u) s).mem ∧
    (∀ i ∈ encodeSequence s, ∃ u, exec i (inFlight s) = .next u) ∧ completesInTurn (encodeSequence s) s ∧
    (∀ a, a < 0x8000 → t.byte a = s.byte a))

/-- R200: `DECODE` is the sequence of the simple commands' effects in one completion, each of which completes in the
state that the one before it left. -/
def Obligations.DecodeRunsSequence : Prop :=
  Sys2Proof.decode 0x0000000B#32 = .ok .decode ∧
  (∀ s : State, check .decode s =
    (gridFault s).or ((blockFault s).or ((scaleFault s .y).or ((scaleFault s .u).or ((scaleFault s .v).or
      (lengthFault s)))))) ∧
  (∀ s : State, s.status.busy = true → check .decode s = none → ∃ t, exec .decode s = .next t ∧ s.sameOutside t ∧
    t.status = { s.status with busy := false, done := true, empty := t.status.empty } ∧
    t.mem = ((decodeSequence s).foldl (fun u i => afterEffect i u) s).mem ∧
    t.status.empty = ((decodeSequence s).foldl (fun u i => afterEffect i u) s).status.empty ∧
    (∀ i ∈ decodeSequence s, ∃ u, exec i (inFlight s) = .next u) ∧ completesInTurn (decodeSequence s) s ∧
    (∀ a, s.gridBytes a ∨ (0x1000 ≤ a ∧ a < 0x1100) → t.byte a = s.byte a))

/-- R97: the nine commands (with the reset scales) issued one by one through the port leave the buffers that one
`ENCODE` leaves. -/
def Obligations.EncodeEqualsCommandsByHand : Prop :=
  ∀ s : State, s.status.busy = false → s.status.err = false → check .encode s = none →
    ∃ t u, Host.Core.run Sys2Proof.core (2 * (encodeSequence s).length)
        { s with pending := commandArrivals (encodeSequence s) } = .next t ∧
      Host.Core.run Sys2Proof.core 2 { s with pending := commandArrivals [.encode] } = .next u ∧
      t.mem = u.mem ∧ t.status.busy = false ∧ t.status.done = true ∧ u.status.busy = false ∧ u.status.done = true

/-! ### What commands leave alone, and what they depend on -/

/-- R258 (column "writes"): whatever step a command takes, it changes no byte outside its write set, no configuration
register, and of `STATUS` only the bits its rule names. -/
def Obligations.CommandsChangeOnlyTheirWriteSet : Prop :=
  ∀ (i : Instr) (s t : State), (s.status.busy = true → check i s = none) → exec i s = .next t →
    (∀ a, (s.status.busy = true → ¬ writeSet i s a) → t.byte a = s.byte a) ∧
    s.sameConfig t ∧ t.ctrl = s.ctrl ∧ t.epoch = s.epoch ∧ t.freeReads = s.freeReads ∧ t.pending = s.pending ∧
    t.replies = s.replies ∧
    (s.status.busy = true → t.cmd = s.cmd ∧ t.status.err = s.status.err ∧ t.status.errCode = s.status.errCode ∧
      t.status.ovr = s.status.ovr ∧ (i ≠ .tally → i ≠ .decode → t.status.empty = s.status.empty)) ∧
    (s.status.busy = false → t.status.empty = s.status.empty)

/-- R258 (column "reads"): the result of a simple command depends only on the registers and its read set. -/
def Obligations.SimpleCommandsDependOnReadSet : Prop :=
  ∀ (i : Instr) (s s' t t' : State), i ≠ .encode → i ≠ .decode → s.status.busy = true → s'.status = s.status →
    s.sameConfig s' → check i s = none → (∀ a, readSet i s a → s'.byte a = s.byte a) →
    exec i s = .next t → exec i s' = .next t' →
    (∀ a, writeSet i s a → t'.byte a = t.byte a) ∧ t'.status = t.status

/-- R258: `ENCODE` depends on the pixel grid, the payload and the registers only; nothing a previous command left in
the planes, subbands or counters. -/
def Obligations.EncodeDependsOnGridAndPayload : Prop :=
  ∀ s s' t t' : State, s.status.busy = true → s'.status = s.status → s.sameConfig s' → check .encode s = none →
    (∀ a, s.gridBytes a ∨ s.payloadBytes a → s'.byte a = s.byte a) →
    exec .encode s = .next t → exec .encode s' = .next t' →
    (∀ a, writeSet .encode s a → t'.byte a = t.byte a) ∧ t'.status = t.status

/-- R258: `DECODE` depends on the pixel grid and the registers only. -/
def Obligations.DecodeDependsOnGrid : Prop :=
  ∀ s s' t t' : State, s.status.busy = true → s'.status = s.status → s.sameConfig s' → check .decode s = none →
    (∀ a, s.gridBytes a → s'.byte a = s.byte a) → exec .decode s = .next t → exec .decode s' = .next t' →
    (∀ a, writeSet .decode s a → t'.byte a = t.byte a) ∧ t'.status = t.status

/-! ### Invariants and progress -/

/-- The state after reset meets the invariant. -/
def Obligations.ResetMeetsInvariant : Prop := State.reset.inv

/-- R25, R94, R221: every step keeps the invariant: canonical buffers; `BUSY`, `DONE` and `ERR` exclusive; a code of
R221 exactly with `ERR`, never 0x03; a command in flight legal. -/
def Obligations.StepKeepsInvariant : Prop :=
  ∀ s t : State, s.inv → step s = .next t → t.inv

/-- R94: a command in flight cannot fault; no step from a state that meets the invariant stops the machine. -/
def Obligations.NoStepStops : Prop := ∀ s : State, s.inv → ∃ t, step s = .next t

/-- Whatever the host and the reset input do (as the list of log 2), every run from reset goes on and meets the
invariant. -/
def Obligations.EveryRunFromResetIsSafe : Prop :=
  ∀ (host : List Arrival) (k : Nat),
    ∃ t : State, Host.Core.run Sys2Proof.core k { State.reset with pending := host } = .next t ∧ t.inv

/-- R97: the completion of a command in flight (or a hard reset that abandons it) is taken, in the model's order of
events (log 2), within the transactions still to come and one step. -/
def Obligations.CompletionEventuallyTaken : Prop :=
  ∀ s : State, s.inv → s.status.busy = true →
    ∃ k t, k ≤ s.pending.length + 1 ∧ Host.Core.run Sys2Proof.core k s = .next t ∧ t.status.busy = false

/-- R99 (with the number of polls of log 15): `RUN` issues a command, meets `BUSY` in each early poll, and ends with
the command's effect and a last poll that reads `BUSY = 0`. -/
def Obligations.RunLineCompletes : Prop :=
  ∀ (i : Instr) (polls : Nat) (s : State), s.status.busy = false → s.status.err = false → check i s = none →
    s.pending = (Line.run i polls).arrivals false →
    ∃ t u, Host.Core.run Sys2Proof.core (polls + 3) s = .next t ∧ exec i (inFlight s) = .next u ∧
      t.mem = u.mem ∧ t.pending = [] ∧ t.status.busy = false ∧ t.status.done = true ∧ t.status.ovr = s.status.ovr ∧
      t.replies.head? = some (.data t.status.word) ∧ t.status.word.getLsbD 0 = false

/-! ### Rules of the whole machine -/

/-- R229: while a fault is recorded the only way out is a reset. -/
def Obligations.OnlyResetClearsFault : Prop :=
  ∀ s t : State, s.status.err = true → s.status.busy = false → step s = .next t → ¬ resetEvent s →
    t.status.err = true ∧ t.status.errCode = s.status.errCode ∧ t.status.busy = false ∧ t.cmd = s.cmd

/-- R226: a fault is raised only inside the issue step, which has no other effect than on `CMD`, `DONE`, `ERR` and
`ERRCODE`. The event and its answer are in the form of log 2 and log 3. -/
def Obligations.OnlyIssueRaisesFault : Prop :=
  ∀ s t : State, s.status.err = false → step s = .next t → t.status.err = true →
    ∃ w rest k, lands (.write 0x00000000#32 4 w) rest s ∧ s.status.busy = false ∧ checkWord w s = some k ∧
      t = { s with
        cmd := w
        pending := rest
        replies := .written :: s.replies
        status := { s.status with done := false, err := true, errCode := k.code } }

/-- R35: `PIN` is written by the host only: any other step leaves every byte of it. -/
def Obligations.OnlyHostWritesPin : Prop :=
  ∀ s t : State, s.inv → step s = .next t → ¬ resetEvent s →
    (¬ ∃ addr w rest, busTarget addr 4 = some .pin ∧ lands (.write addr 4 w) rest s) →
    ∀ k, k < 256 → t.byte (0x1000 + k) = s.byte (0x1000 + k)

/-- R38, R64: while a command is in flight its word and its configuration keep their values, unless the reset input is
asserted. -/
def Obligations.ConfigurationFrozenInFlight : Prop :=
  ∀ s t : State, s.status.busy = true → step s = .next t → (¬ ∃ rest, lands .hardReset rest s) →
    t.cmd = s.cmd ∧ s.sameConfig t ∧ t.ctrl = s.ctrl

/-- R60, R75 (in the model's form of log 2, log 3): a step is one event: it takes at most the next transaction, and
a step that takes none completes the command in flight or leaves an idle CORE as it is. -/
def Obligations.OneEventAtATime : Prop :=
  ∀ s t : State, step s = .next t →
    (t.pending = s.pending ∧ t.replies = s.replies ∧
      ((s.status.busy = true ∧ t.status.busy = false ∧ t.status.done = true) ∨ (s.status.busy = false ∧ t = s))) ∨
    (∃ x rest, s.pending = x :: rest ∧ t.pending = rest ∧
      (x.op = .hardReset → t.replies = s.replies) ∧ (x.op ≠ .hardReset → ∃ r, t.replies = r :: s.replies) ∧
      (s.status.busy = true → x.op = .hardReset ∨ (t.status.busy = true ∧ t.mem = s.mem)))

/-- R74: no index of a command whose checks pass leaves its buffer: the cells of the grid and the planes, those of the
subbands and their tiles, those of the blocks (each in one block only), the payload bits and bytes, the counters. Each
group rests on the tests of R227 that its commands make. The first group gives the geometry of R13 and the effective
cells of R74, which the others bound. -/
def Obligations.IndicesStayInBuffers : Prop :=
  ∀ s : State,
    ((s.nRows = s.rows.toNat ∧ s.nCols = s.cols.toNat ∧ s.blk = s.bsize.toNat ∧ s.nBytes = s.wmbytes.toNat) ∧
      (s.regionRows = s.nRows - s.nRows % s.blk ∧ s.regionCols = s.nCols - s.nCols % s.blk) ∧
      (s.subRows = s.regionRows / 2 ∧ s.subCols = s.regionCols / 2) ∧
      s.nBlocks = s.subRows / s.blk * (s.subCols / s.blk) ∧ s.wmLen = 8 * s.nBytes ∧
      (∀ r c, s.gridCell r c = r * s.nCols + c) ∧ (∀ i j, s.subCell i j = i * s.subCols + j) ∧
      (∀ i p, s.blockCell i p =
        s.subCell (i / (s.subCols / s.blk) * s.blk + p / s.blk) (i % (s.subCols / s.blk) * s.blk + p % s.blk))) ∧
    (gridFault s = none → ∀ r c, r < s.nRows → c < s.nCols → s.gridCell r c < 16777216) ∧
    (gridFault s = none → blockFault s = none →
      (∀ i j, i < s.subRows → j < s.subCols →
        s.subCell i j < 4194304 ∧ 2 * i + 1 < s.nRows ∧ 2 * j + 1 < s.nCols) ∧
      (∀ i p, i < s.nBlocks → p < s.blk * s.blk → s.blockCell i p < s.subRows * s.subCols) ∧
      (∀ i p i' p', i < s.nBlocks → i' < s.nBlocks → p < s.blk * s.blk → p' < s.blk * s.blk →
        s.blockCell i p = s.blockCell i' p' → i = i' ∧ p = p')) ∧
    (lengthFault s = none →
      (∀ i, i % s.wmLen < s.wmLen) ∧
      (∀ k, k < s.wmLen → k / 8 < s.nBytes ∧ k / 8 < 256 ∧ k < 2048) ∧
      (∀ j, j < s.nBytes → j < 256))

/-! ### Consequences the spec draws -/

/-- R147: `DWTINV` of subbands that `DWTFWD` has just made returns every tile of the region transposed. -/
def Obligations.SwapTransposesTiles : Prop :=
  ∀ (s t : State) (ch : Channel), s.status.busy = true → check (.dwtfwd (fieldOf ch)) s = none →
    exec (.dwtfwd (fieldOf ch)) s = .next t →
    ∃ u, exec (.dwtinv (fieldOf ch)) (inFlight t) = .next u ∧
      ∀ r c, r < s.regionRows → c < s.regionCols →
        u.sample ch (s.gridCell r c) = s.sample ch (s.gridCell (r - r % 2 + c % 2) (c - c % 2 + r % 2))

/-- R134: after `SUBSAMP` on a plane, `DWTFWD` of it gives no detail and eight times the tile's sample, in quarters.
-/
def Obligations.SubsampledPlaneHasNoDetail : Prop :=
  ∀ (s t : State) (ch : Channel), s.status.busy = true → check .subsamp s = none →
    check (.dwtfwd (fieldOf ch)) s = none → ch ∈ s.selected → exec .subsamp s = .next t →
    ∃ u, exec (.dwtfwd (fieldOf ch)) (inFlight t) = .next u ∧
      ∀ i j, i < s.subRows → j < s.subCols →
        u.coeff .sh (s.subCell i j) = 0 ∧ u.coeff .sv (s.subCell i j) = 0 ∧ u.coeff .sd (s.subCell i j) = 0 ∧
        u.coeff .sa (s.subCell i j) = 8 * ((s.sample ch (s.gridCell (2 * i) (2 * j))).toNat : ℤ)

/-- R132 (corner case): a second `SUBSAMP` changes no byte. -/
def Obligations.SubsampIsIdempotent : Prop :=
  ∀ s t : State, s.status.busy = true → check .subsamp s = none → exec .subsamp s = .next t →
    ∃ u, exec .subsamp (inFlight t) = .next u ∧ ∀ a, u.byte a = t.byte a

/-- R177, R163: a cell written by `embedCell` has remainder `s` or `3 s` in quarters and reads back as its bit. -/
def Obligations.EmbeddedCellReadsBack : Prop :=
  ∀ (n : ℤ) (sc : Nat) (bit : Bool), 1 ≤ sc → n.natAbs + 3 * sc < 2 ^ 31 →
    ((embedCell n sc bit).toInt.natAbs % (4 * sc) = if bit then 3 * sc else sc) ∧
    extractBit (embedCell n sc bit).toInt sc = bit ∧
    (embedCell n sc bit).toInt.natAbs / (4 * sc) = n.natAbs / (4 * sc)

/-- R14: cells that `DWTFWD` makes and `EMBED` changes stay within 100341. -/
def Obligations.CoefficientsStayBounded : Prop :=
  ∀ (s t u : State) (ch ch' : Channel), s.status.busy = true → check (.dwtfwd (fieldOf ch)) s = none →
    check (.embed (fieldOf ch')) s = none → exec (.dwtfwd (fieldOf ch)) s = .next t →
    exec (.embed (fieldOf ch')) (inFlight t) = .next u →
    ∀ k, k < s.subRows * s.subCols →
      0 ≤ t.coeff .sa k ∧ t.coeff .sa k ≤ 2040 ∧ 0 ≤ u.coeff .sa k ∧ u.coeff .sa k ≤ 100341

/-- R180: packing is the inverse of `payloadBit`: where the final bits are the payload's bits, `TALLY` returns the
payload. -/
def Obligations.TallyInvertsPayloadBits : Prop :=
  ∀ s t : State, s.status.busy = true → lengthFault s = none →
    (∀ p, p < s.wmLen → finalBit s p = payloadBit s p) → exec .tally s = .next t →
    ∀ j, j < s.nBytes → t.byte (0x1100 + j) = s.byte (0x1000 + j)

/-- R116: a grey pixel goes to its grey level and neutral chroma 128. -/
def Obligations.GreyHasNeutralChroma : Prop :=
  ∀ g : Byte, rgb2yuv .y g g g = g ∧ rgb2yuv .u g g g = 128#8 ∧ rgb2yuv .v g g g = 128#8

/-- R114: the tie rule is never used by the inverse transform. -/
def Obligations.InverseColourNeverTies : Prop :=
  ∀ (c : Nat) (y u v : Byte), 0 ≤ rgbNum c y u v →
    roundDiv .halfUp (rgbNum c y u v).toNat 200000 = roundDiv .halfEven (rgbNum c y u v).toNat 200000

/-! ### The command register -/

/-- R24: `CMD` keeps the word of the most recent issue: a step that is neither an issue nor a reset leaves it. (That an
issue, faulting or accepted, stores its word is `IssueLatchesAndChecks`; the resets are `SoftResetRestores` and
`HardResetRestores`.) The event is in the form of log 2. -/
def Obligations.OnlyIssueOrResetChangesCmd : Prop :=
  ∀ s t : State, step s = .next t → ¬ resetEvent s →
    (¬ ∃ w rest, lands (.write 0x00000000#32 4 w) rest s ∧ s.status.busy = false ∧ s.status.err = false) →
    t.cmd = s.cmd ∧ t.readReg 0 = s.readReg 0
end

