-- ==== Sys2Proof/Laws/Arith.lean ====
section
/-!
SUPPORT. What the shared arithmetic does: clip and round, the wrap to 32 bits, the dominant search, the embedded cell.
-/

namespace Sys2Proof.Machine

/-- `clipRound` in integer arithmetic (40_colour.md R111, R114; 42_wavelet.md R145). -/
theorem clipRound_toNat (n : Int) {d : Nat} (hd : 0 < d) :
    ((clipRound n d).toNat : Int) =
      if n ≤ 0 then 0 else if 255 * (d : Int) ≤ n then 255 else (2 * n + d) / (2 * d) := by
  unfold clipRound
  split
  · rfl
  split
  · rfl
  · rename_i h0 h1
    obtain ⟨m, rfl⟩ : ∃ m : Nat, n = m := ⟨n.toNat, by omega⟩
    have hlt : (2 * m + d) / (2 * d) < 256 := by
      rw [Nat.div_lt_iff_lt_mul (by omega)]
      have : m < 255 * d := by exact_mod_cast not_le.mp h1
      omega
    simp only [Config.tie, roundDiv, Int.toNat_natCast, BitVec.toNat_ofNat]
    rw [Nat.mod_eq_of_lt (by omega)]
    push_cast
    rfl

/-- A number of 32 bits is its own wrap (00_scope.md R10). -/
theorem wrap32_toInt {n : Int} (h1 : -2 ^ 31 ≤ n) (h2 : n < 2 ^ 31) : (wrap32 n).toInt = n := by
  unfold wrap32
  rw [BitVec.toInt_ofInt]
  exact Int.bmod_eq_of_le (by omega) (by omega)

/-- The scan for the dominant position returns the least position of greatest magnitude (43_embed.md R162). -/
theorem argMax_spec (mag : Nat → Nat) (n : Nat) :
    1 ≤ argMax mag n ∧ argMax mag n ≤ n + 1 ∧ (∀ q, 1 ≤ q → q ≤ n + 1 → mag q ≤ mag (argMax mag n)) ∧
      ∀ p, 1 ≤ p → p < argMax mag n → mag p < mag (argMax mag n) := by
  induction n with
  | zero =>
    refine ⟨Nat.le_refl _, Nat.le_refl _, fun q h1 h2 => ?_, fun p h1 h2 => ?_⟩
    · have : q = 1 := by omega
      simp [this, argMax]
    · simp only [argMax] at h2; omega
  | succ n ih =>
    obtain ⟨h1, h2, h3, h4⟩ := ih
    unfold argMax
    simp only [Config.argMaxTie, replaces, decide_eq_true_eq]
    split
    · rename_i h
      refine ⟨by omega, by omega, fun q hq1 hq2 => ?_, fun p hp1 hp2 => ?_⟩
      · rcases Nat.lt_or_ge q (n + 2) with hq | hq
        · exact Nat.le_of_lt (Nat.lt_of_le_of_lt (h3 q hq1 (by omega)) h)
        · have : q = n + 2 := by omega
          rw [this]
      · exact Nat.lt_of_le_of_lt (h3 p hp1 (by omega)) h
    · rename_i h
      refine ⟨h1, by omega, fun q hq1 hq2 => ?_, h4⟩
      rcases Nat.lt_or_ge q (n + 2) with hq | hq
      · exact h3 q hq1 (by omega)
      · have : q = n + 2 := by omega
        rw [this]
        omega

/-- The scan looks at the magnitudes of the positions 1 to `n + 1` only. -/
theorem argMax_congr {mag mag' : Nat → Nat} {n : Nat} (h : ∀ q, 1 ≤ q → q ≤ n + 1 → mag' q = mag q) :
    argMax mag' n = argMax mag n := by
  induction n with
  | zero => rfl
  | succ n ih =>
    have hi := ih (fun q h1 h2 => h q h1 (by omega))
    obtain ⟨h1, h2, -⟩ := argMax_spec mag n
    simp only [argMax, hi, h (n + 2) (by omega) (by omega), h (argMax mag n) h1 (by omega)]

/-- The magnitude of an embedded cell lies at one or three quarters of its quantization cell (43_embed.md R163). -/
theorem embedMagnitude_bounds (n : Int) (scale : Nat) (bit : Bool) :
    embedMagnitude n scale bit = 4 * scale * (n.natAbs / (4 * scale)) + (if bit then 3 * scale else scale) ∧
      embedMagnitude n scale bit ≤ n.natAbs + 3 * scale := by
  have h := Nat.mul_div_le n.natAbs (4 * scale)
  have he : embedMagnitude n scale bit =
      4 * scale * (n.natAbs / (4 * scale)) + (if bit then 3 * scale else scale) := by
    unfold embedMagnitude
    generalize n.natAbs / (4 * scale) = q
    cases bit <;> simp <;> ring
  refine ⟨he, ?_⟩
  rw [he]
  cases bit <;> simp <;> omega

end Sys2Proof.Machine
end

