-- ==== Sys2Proof/Laws/Memory.lean ====
section
/-!
SUPPORT. The laws of the canonical memory: what a read gives after a write, that every operation keeps the canonical
form, and that canonical memories with equal entries are equal.
-/

namespace Sys2Proof.Machine

/-! ### Reading the listed entries -/

@[simp] theorem get?_nil (a : Nat) : Memory.get? [] a = none := rfl

theorem get?_cons (c : Host.Cell) (m : Memory) (a : Nat) :
    Memory.get? (c :: m) a = if c.1 = a then some c.2 else Memory.get? m a := rfl

theorem get?_append (m n : Memory) (a : Nat) :
    Memory.get? (m ++ n) a = (Memory.get? m a).or (Memory.get? n a) := by
  induction m with
  | nil => simp
  | cons c m ih => by_cases h : c.1 = a <;> simp [get?_cons, h, ih]

theorem get?_eq_none (m : Memory) (a : Nat) : Memory.get? m a = none ↔ ∀ c ∈ m, c.1 ≠ a := by
  induction m with
  | nil => simp
  | cons c m ih => by_cases h : c.1 = a <;> simp [get?_cons, h, ih]

theorem mem_of_get? {m : Memory} {a : Nat} {b : Byte} (h : Memory.get? m a = some b) : (a, b) ∈ m := by
  induction m with
  | nil => simp at h
  | cons c m ih =>
    by_cases hc : c.1 = a
    · simp [get?_cons, hc] at h
      obtain ⟨x, y⟩ := c
      simp_all
    · simp [get?_cons, hc] at h
      exact List.mem_cons_of_mem _ (ih h)

theorem get?_filter (m : Memory) (p : Nat → Bool) (a : Nat) :
    Memory.get? (m.filter (fun c => p c.1)) a = if p a then Memory.get? m a else none := by
  induction m with
  | nil => simp
  | cons c m ih =>
    by_cases hp : p c.1 <;> by_cases hc : c.1 = a <;> by_cases ha : p a <;>
      simp_all [get?_cons]

theorem entry_key {a : Nat} {b : Byte} {c : Host.Cell} (h : Memory.entry a b = some c) : c = (a, b) := by
  unfold Memory.entry at h
  split at h <;> simp_all

theorem get?_entries (lo n : Nat) (f : Nat → Byte) (a : Nat) :
    Memory.get? ((List.range n).filterMap (fun k => Memory.entry (lo + k) (f k))) a =
      if lo ≤ a ∧ a < lo + n then (Memory.entry a (f (a - lo))).map Prod.snd else none := by
  induction n with
  | zero => simp
  | succ n ih =>
    rw [List.range_succ, List.filterMap_append, get?_append, ih]
    by_cases ha : a = lo + n
    · subst ha
      have h1 : ¬ (lo ≤ lo + n ∧ lo + n < lo + n) := by omega
      have h2 : lo ≤ lo + n ∧ lo + n < lo + (n + 1) := by omega
      rw [if_neg h1, if_pos h2, Nat.add_sub_cancel_left]
      cases h : Memory.entry (lo + n) (f n) with
      | none => simp [h]
      | some c => obtain rfl := entry_key h; simp [h, get?_cons]
    · have h3 : Memory.get? (List.filterMap (fun k => Memory.entry (lo + k) (f k)) [n]) a = none := by
        rw [get?_eq_none]
        intro c hc
        simp only [List.filterMap_cons, List.filterMap_nil] at hc
        split at hc
        · simp at hc
        · rename_i h
          obtain rfl := entry_key h
          simp at hc; subst hc; exact fun h => ha h.symm
      rw [h3, Option.or_none]
      congr 1
      simp only [eq_iff_iff]
      omega

/-- Reading after the one write (`Memory.fill`). -/
theorem get?_fill (m : Memory) (lo n : Nat) (f : Nat → Byte) (a : Nat) :
    (m.fill lo n f).get? a =
      if lo ≤ a ∧ a < lo + n then (Memory.entry a (f (a - lo))).map Prod.snd else m.get? a := by
  unfold Memory.fill
  rw [get?_append, get?_append, get?_entries, get?_filter m (fun x => decide (x < lo)),
    get?_filter m (fun x => decide (lo + n ≤ x))]
  by_cases h1 : a < lo
  · have : ¬ (lo ≤ a ∧ a < lo + n) := by omega
    have h2 : ¬ (lo + n ≤ a) := by omega
    simp [h1, h2, this]
  · by_cases h2 : lo + n ≤ a
    · have : ¬ (lo ≤ a ∧ a < lo + n) := by omega
      simp [h1, h2, this]
    · have : lo ≤ a ∧ a < lo + n := by omega
      simp [h1, h2, this]

/-- Reading after a range is put back to its reset contents. -/
theorem get?_restore (m : Memory) (lo n a : Nat) :
    (m.restore lo n).get? a = if lo ≤ a ∧ a < lo + n then none else m.get? a := by
  unfold Memory.restore
  rw [get?_filter m (fun x => decide (x < lo ∨ lo + n ≤ x))]
  by_cases h : lo ≤ a ∧ a < lo + n
  · have : ¬ (a < lo ∨ lo + n ≤ a) := by omega
    simp only [this, decide_false, h, and_self, if_true]; rfl
  · have : a < lo ∨ lo + n ≤ a := by omega
    simp only [this, decide_true, h, if_true, if_false]

/-! ### The canonical form is kept -/

theorem wf_nil : Memory.wf [] := by simp [Memory.wf]

theorem entry_legal {a : Nat} {b : Byte} {c : Host.Cell} (h : Memory.entry a b = some c) :
    stored c.1 = true ∧ resetByte c.1 ≠ some c.2 := by
  have hk := entry_key h
  subst hk
  unfold Memory.entry at h
  split at h <;> simp_all

theorem entries_sorted (lo n : Nat) (f : Nat → Byte) :
    ((List.range n).filterMap (fun k => Memory.entry (lo + k) (f k))).Pairwise (fun c d => c.1 < d.1) := by
  rw [List.pairwise_filterMap]
  refine List.Pairwise.imp ?_ List.pairwise_lt_range
  intro i j hij c hc d hd
  obtain rfl := entry_key hc
  obtain rfl := entry_key hd
  simpa using hij

theorem mem_entries {lo n : Nat} {f : Nat → Byte} {c : Host.Cell}
    (h : c ∈ (List.range n).filterMap (fun k => Memory.entry (lo + k) (f k))) :
    lo ≤ c.1 ∧ c.1 < lo + n ∧ stored c.1 = true ∧ resetByte c.1 ≠ some c.2 := by
  obtain ⟨k, hk, he⟩ := List.mem_filterMap.mp h
  have := entry_legal he
  obtain rfl := entry_key he
  simp at hk
  exact ⟨by simp, by simpa using hk, this⟩

theorem wf_filter {m : Memory} (h : m.wf) (p : Host.Cell → Bool) : Memory.wf (m.filter p) :=
  ⟨h.1.filter p, fun c hc => h.2 c (List.mem_of_mem_filter hc)⟩

/-- Every write keeps the canonical form. -/
theorem wf_fill {m : Memory} (h : m.wf) (lo n : Nat) (f : Nat → Byte) : (m.fill lo n f).wf := by
  unfold Memory.fill
  refine ⟨?_, ?_⟩
  · rw [List.pairwise_append, List.pairwise_append]
    refine ⟨⟨h.1.filter _, entries_sorted lo n f, ?_⟩, h.1.filter _, ?_⟩
    · intro c hc d hd
      have hc' := (List.mem_filter.mp hc).2
      have hd' := mem_entries hd
      simp at hc'
      omega
    · intro c hc d hd
      have hd' := (List.mem_filter.mp hd).2
      simp at hd'
      rcases List.mem_append.mp hc with hc | hc
      · have hc' := (List.mem_filter.mp hc).2
        simp at hc'
        omega
      · have hc' := mem_entries hc
        omega
  · intro c hc
    rcases List.mem_append.mp hc with hc | hc
    · rcases List.mem_append.mp hc with hc | hc
      · exact h.2 c (List.mem_of_mem_filter hc)
      · exact (mem_entries hc).2.2
    · exact h.2 c (List.mem_of_mem_filter hc)

theorem wf_fillWords {m : Memory} (h : m.wf) (base n : Nat) (f : Nat → Word) : (m.fillWords base n f).wf :=
  wf_fill h _ _ _

/-- Going back to the reset contents keeps the canonical form. -/
theorem wf_restore {m : Memory} (h : m.wf) (lo n : Nat) : (m.restore lo n).wf := wf_filter h _

/-- A loop of writes keeps the canonical form. -/
theorem wf_foldl {α : Type} (g : Memory → α → Memory) (hg : ∀ m x, m.wf → (g m x).wf) (l : List α) {m : Memory}
    (h : m.wf) : (l.foldl g m).wf := by
  induction l generalizing m with
  | nil => exact h
  | cons x l ih => exact ih (hg m x h)

/-! ### Equal reads, equal data -/

/-- Two canonical memories with the same listed entries are the same data. -/
theorem memory_ext {m n : Memory} (hm : m.wf) (hn : n.wf) (h : ∀ a, m.get? a = n.get? a) : m = n := by
  have key : ∀ {m : Memory}, m.wf → ∀ a b, (a, b) ∈ m → m.get? a = some b := by
    intro m hm a b hab
    induction m with
    | nil => simp at hab
    | cons c m ih =>
      have hs := List.pairwise_cons.mp hm.1
      rcases List.mem_cons.mp hab with rfl | hab
      · simp [get?_cons]
      · have : c.1 < a := hs.1 _ hab
        rw [get?_cons, if_neg (by omega)]
        exact ih ⟨hs.2, fun d hd => hm.2 d (List.mem_cons_of_mem _ hd)⟩ hab
  have nodup : ∀ {m : Memory}, m.wf → m.Nodup := fun hm => hm.1.imp (fun hlt heq => by subst heq; omega)
  refine List.Perm.eq_of_pairwise (le := fun c d => c.1 < d.1) ?_ hm.1 hn.1 ?_
  · intro a b _ _ h1 h2; omega
  · rw [List.perm_ext_iff_of_nodup (nodup hm) (nodup hn)]
    rintro ⟨a, b⟩
    refine ⟨fun hab => mem_of_get? ?_, fun hab => mem_of_get? ?_⟩
    · rw [← h a]; exact key hm a b hab
    · rw [h a]; exact key hn a b hab

/-! ### The address map -/

/-- The bytes of one word lie in one window (20_memory.md R61: every window is a whole number of words). -/
theorem windowOf_word {a b : Nat} (h : a / 4 = b / 4) : windowOf a = windowOf b := by
  have e : ∀ c, c % 4 = 0 → (a < c ↔ b < c) := by omega
  unfold windowOf
  simp only [e 0x00001000 rfl, e 0x00001100 rfl, e 0x00001200 rfl, e 0x00004000 rfl,
    e 0x00006000 rfl, e 0x00008000 rfl, e 0x04000000 rfl, e 0x08000000 rfl,
    e 0x09000000 rfl, e 0x0A000000 rfl, e 0x0B000000 rfl, e 0x0C000000 rfl,
    e 0x0D000000 rfl, e 0x0E000000 rfl, e 0x0F000000 rfl, e 0x10000000 rfl]

theorem stored_pin {k : Nat} (h : k < 256) : stored (pinBase + k) = true := by
  simp only [stored, windowOf, pinBase]; grind

theorem stored_pout {k : Nat} (h : k < 256) : stored (poutBase + k) = true := by
  simp only [stored, windowOf, poutBase]; grind

theorem stored_ones {k : Nat} (h : k < 0x2000) : stored (onesBase + k) = true := by
  simp only [stored, windowOf, onesBase]; grind

theorem stored_total {k : Nat} (h : k < 0x2000) : stored (totalBase + k) = true := by
  simp only [stored, windowOf, totalBase]; grind

theorem stored_rgb {k : Nat} (h : k < 0x4000000) : stored (rgbBase + k) = (k % 4 != 3) := by
  have : windowOf (rgbBase + k) = some .rgb := by simp only [windowOf, rgbBase]; grind
  have hk : (rgbBase + k) % 4 = k % 4 := by simp only [rgbBase]; omega
  unfold stored
  rw [this, hk]

theorem stored_plane (ch : Channel) {k : Nat} (h : k < 0x1000000) : stored (planeBase ch + k) = true := by
  cases ch <;> simp only [stored, windowOf, planeBase, Channel.index] <;> grind

theorem stored_subband (b : Subband) {k : Nat} (h : k < 0x1000000) : stored (subbandBase b + k) = true := by
  cases b <;> simp only [stored, windowOf, subbandBase, Subband.index] <;> grind

theorem resetByte_pin {k : Nat} (h : k < 256) : resetByte (pinBase + k) = some (pinReset k) := by
  have : windowOf (pinBase + k) = some .pin := by simp only [windowOf, pinBase]; grind
  simp only [resetByte, this, Nat.add_sub_cancel_left]

theorem resetByte_pout {k : Nat} (h : k < 256) : resetByte (poutBase + k) = some 0x00#8 := by
  have : windowOf (poutBase + k) = some .pout := by simp only [windowOf, poutBase]; grind
  simp only [resetByte, this]

theorem resetByte_ones {k : Nat} (h : k < 0x2000) : resetByte (onesBase + k) = some 0x00#8 := by
  have : windowOf (onesBase + k) = some .ones := by simp only [windowOf, onesBase]; grind
  simp only [resetByte, this]

theorem resetByte_total {k : Nat} (h : k < 0x2000) : resetByte (totalBase + k) = some 0x00#8 := by
  have : windowOf (totalBase + k) = some .total := by simp only [windowOf, totalBase]; grind
  simp only [resetByte, this]

/-! ### Bytes of words -/

theorem byteOf_wordOf (b0 b1 b2 b3 : Byte) :
    byteOf (wordOf b0 b1 b2 b3) 0 = b0 ∧ byteOf (wordOf b0 b1 b2 b3) 1 = b1 ∧
    byteOf (wordOf b0 b1 b2 b3) 2 = b2 ∧ byteOf (wordOf b0 b1 b2 b3) 3 = b3 := by
  refine ⟨?_, ?_, ?_, ?_⟩ <;>
  · ext i hi
    simp only [byteOf, wordOf, BitVec.getElem_extractLsb', BitVec.getLsbD_append]
    grind

theorem wordOf_byteOf (w : Word) : wordOf (byteOf w 0) (byteOf w 1) (byteOf w 2) (byteOf w 3) = w := by
  ext i hi
  simp only [byteOf, wordOf]
  grind

end Sys2Proof.Machine
end

