-- ==== Sys2Proof/Laws/State.lean ====
section
/-!
SUPPORT. What each named update of the state does to each field, so that no later proof unfolds a record update.
-/

namespace Sys2Proof.Machine

@[simp] theorem withMem_cmd (s : State) (m : Memory) : (s.withMem m).cmd = s.cmd := rfl
@[simp] theorem withMem_status (s : State) (m : Memory) : (s.withMem m).status = s.status := rfl
@[simp] theorem withMem_ctrl (s : State) (m : Memory) : (s.withMem m).ctrl = s.ctrl := rfl
@[simp] theorem withMem_rows (s : State) (m : Memory) : (s.withMem m).rows = s.rows := rfl
@[simp] theorem withMem_cols (s : State) (m : Memory) : (s.withMem m).cols = s.cols := rfl
@[simp] theorem withMem_bsize (s : State) (m : Memory) : (s.withMem m).bsize = s.bsize := rfl
@[simp] theorem withMem_scale0 (s : State) (m : Memory) : (s.withMem m).scale0 = s.scale0 := rfl
@[simp] theorem withMem_scale1 (s : State) (m : Memory) : (s.withMem m).scale1 = s.scale1 := rfl
@[simp] theorem withMem_scale2 (s : State) (m : Memory) : (s.withMem m).scale2 = s.scale2 := rfl
@[simp] theorem withMem_submode (s : State) (m : Memory) : (s.withMem m).submode = s.submode := rfl
@[simp] theorem withMem_wmbytes (s : State) (m : Memory) : (s.withMem m).wmbytes = s.wmbytes := rfl
@[simp] theorem withMem_mem (s : State) (m : Memory) : (s.withMem m).mem = m := rfl
@[simp] theorem withMem_epoch (s : State) (m : Memory) : (s.withMem m).epoch = s.epoch := rfl
@[simp] theorem withMem_freeReads (s : State) (m : Memory) : (s.withMem m).freeReads = s.freeReads := rfl
@[simp] theorem withMem_pending (s : State) (m : Memory) : (s.withMem m).pending = s.pending := rfl
@[simp] theorem withMem_replies (s : State) (m : Memory) : (s.withMem m).replies = s.replies := rfl

@[simp] theorem withPending_cmd (s : State) (l : List Arrival) : (s.withPending l).cmd = s.cmd := rfl
@[simp] theorem withPending_status (s : State) (l : List Arrival) : (s.withPending l).status = s.status := rfl
@[simp] theorem withPending_ctrl (s : State) (l : List Arrival) : (s.withPending l).ctrl = s.ctrl := rfl
@[simp] theorem withPending_rows (s : State) (l : List Arrival) : (s.withPending l).rows = s.rows := rfl
@[simp] theorem withPending_cols (s : State) (l : List Arrival) : (s.withPending l).cols = s.cols := rfl
@[simp] theorem withPending_bsize (s : State) (l : List Arrival) : (s.withPending l).bsize = s.bsize := rfl
@[simp] theorem withPending_scale0 (s : State) (l : List Arrival) : (s.withPending l).scale0 = s.scale0 := rfl
@[simp] theorem withPending_scale1 (s : State) (l : List Arrival) : (s.withPending l).scale1 = s.scale1 := rfl
@[simp] theorem withPending_scale2 (s : State) (l : List Arrival) : (s.withPending l).scale2 = s.scale2 := rfl
@[simp] theorem withPending_submode (s : State) (l : List Arrival) : (s.withPending l).submode = s.submode := rfl
@[simp] theorem withPending_wmbytes (s : State) (l : List Arrival) : (s.withPending l).wmbytes = s.wmbytes := rfl
@[simp] theorem withPending_mem (s : State) (l : List Arrival) : (s.withPending l).mem = s.mem := rfl
@[simp] theorem withPending_epoch (s : State) (l : List Arrival) : (s.withPending l).epoch = s.epoch := rfl
@[simp] theorem withPending_freeReads (s : State) (l : List Arrival) : (s.withPending l).freeReads = s.freeReads := rfl
@[simp] theorem withPending_pending (s : State) (l : List Arrival) : (s.withPending l).pending = l := rfl
@[simp] theorem withPending_replies (s : State) (l : List Arrival) : (s.withPending l).replies = s.replies := rfl

@[simp] theorem reply_cmd (s : State) (r : Reply) : (s.reply r).cmd = s.cmd := rfl
@[simp] theorem reply_status (s : State) (r : Reply) : (s.reply r).status = s.status := rfl
@[simp] theorem reply_ctrl (s : State) (r : Reply) : (s.reply r).ctrl = s.ctrl := rfl
@[simp] theorem reply_rows (s : State) (r : Reply) : (s.reply r).rows = s.rows := rfl
@[simp] theorem reply_cols (s : State) (r : Reply) : (s.reply r).cols = s.cols := rfl
@[simp] theorem reply_bsize (s : State) (r : Reply) : (s.reply r).bsize = s.bsize := rfl
@[simp] theorem reply_scale0 (s : State) (r : Reply) : (s.reply r).scale0 = s.scale0 := rfl
@[simp] theorem reply_scale1 (s : State) (r : Reply) : (s.reply r).scale1 = s.scale1 := rfl
@[simp] theorem reply_scale2 (s : State) (r : Reply) : (s.reply r).scale2 = s.scale2 := rfl
@[simp] theorem reply_submode (s : State) (r : Reply) : (s.reply r).submode = s.submode := rfl
@[simp] theorem reply_wmbytes (s : State) (r : Reply) : (s.reply r).wmbytes = s.wmbytes := rfl
@[simp] theorem reply_mem (s : State) (r : Reply) : (s.reply r).mem = s.mem := rfl
@[simp] theorem reply_epoch (s : State) (r : Reply) : (s.reply r).epoch = s.epoch := rfl
@[simp] theorem reply_freeReads (s : State) (r : Reply) : (s.reply r).freeReads = s.freeReads := rfl
@[simp] theorem reply_pending (s : State) (r : Reply) : (s.reply r).pending = s.pending := rfl
@[simp] theorem reply_replies (s : State) (r : Reply) : (s.reply r).replies = r :: s.replies := rfl

@[simp] theorem setOvr_cmd (s : State) : s.setOvr.cmd = s.cmd := rfl
@[simp] theorem setOvr_status (s : State) : s.setOvr.status = { s.status with ovr := true } := rfl
@[simp] theorem setOvr_ctrl (s : State) : s.setOvr.ctrl = s.ctrl := rfl
@[simp] theorem setOvr_rows (s : State) : s.setOvr.rows = s.rows := rfl
@[simp] theorem setOvr_cols (s : State) : s.setOvr.cols = s.cols := rfl
@[simp] theorem setOvr_bsize (s : State) : s.setOvr.bsize = s.bsize := rfl
@[simp] theorem setOvr_scale0 (s : State) : s.setOvr.scale0 = s.scale0 := rfl
@[simp] theorem setOvr_scale1 (s : State) : s.setOvr.scale1 = s.scale1 := rfl
@[simp] theorem setOvr_scale2 (s : State) : s.setOvr.scale2 = s.scale2 := rfl
@[simp] theorem setOvr_submode (s : State) : s.setOvr.submode = s.submode := rfl
@[simp] theorem setOvr_wmbytes (s : State) : s.setOvr.wmbytes = s.wmbytes := rfl
@[simp] theorem setOvr_mem (s : State) : s.setOvr.mem = s.mem := rfl
@[simp] theorem setOvr_epoch (s : State) : s.setOvr.epoch = s.epoch := rfl
@[simp] theorem setOvr_freeReads (s : State) : s.setOvr.freeReads = s.freeReads := rfl
@[simp] theorem setOvr_pending (s : State) : s.setOvr.pending = s.pending := rfl
@[simp] theorem setOvr_replies (s : State) : s.setOvr.replies = s.replies := rfl

@[simp] theorem setEmpty_cmd (s : State) (b : Bool) : (s.setEmpty b).cmd = s.cmd := rfl
@[simp] theorem setEmpty_status (s : State) (b : Bool) : (s.setEmpty b).status = { s.status with empty := b } := rfl
@[simp] theorem setEmpty_ctrl (s : State) (b : Bool) : (s.setEmpty b).ctrl = s.ctrl := rfl
@[simp] theorem setEmpty_rows (s : State) (b : Bool) : (s.setEmpty b).rows = s.rows := rfl
@[simp] theorem setEmpty_cols (s : State) (b : Bool) : (s.setEmpty b).cols = s.cols := rfl
@[simp] theorem setEmpty_bsize (s : State) (b : Bool) : (s.setEmpty b).bsize = s.bsize := rfl
@[simp] theorem setEmpty_scale0 (s : State) (b : Bool) : (s.setEmpty b).scale0 = s.scale0 := rfl
@[simp] theorem setEmpty_scale1 (s : State) (b : Bool) : (s.setEmpty b).scale1 = s.scale1 := rfl
@[simp] theorem setEmpty_scale2 (s : State) (b : Bool) : (s.setEmpty b).scale2 = s.scale2 := rfl
@[simp] theorem setEmpty_submode (s : State) (b : Bool) : (s.setEmpty b).submode = s.submode := rfl
@[simp] theorem setEmpty_wmbytes (s : State) (b : Bool) : (s.setEmpty b).wmbytes = s.wmbytes := rfl
@[simp] theorem setEmpty_mem (s : State) (b : Bool) : (s.setEmpty b).mem = s.mem := rfl
@[simp] theorem setEmpty_epoch (s : State) (b : Bool) : (s.setEmpty b).epoch = s.epoch := rfl
@[simp] theorem setEmpty_freeReads (s : State) (b : Bool) : (s.setEmpty b).freeReads = s.freeReads := rfl
@[simp] theorem setEmpty_pending (s : State) (b : Bool) : (s.setEmpty b).pending = s.pending := rfl
@[simp] theorem setEmpty_replies (s : State) (b : Bool) : (s.setEmpty b).replies = s.replies := rfl

@[simp] theorem raiseFault_cmd (s : State) (k : FaultKind) : (raiseFault k s).cmd = s.cmd := rfl
@[simp] theorem raiseFault_status (s : State) (k : FaultKind) : (raiseFault k s).status = { s.status with err := true, errCode := k.code } := rfl
@[simp] theorem raiseFault_ctrl (s : State) (k : FaultKind) : (raiseFault k s).ctrl = s.ctrl := rfl
@[simp] theorem raiseFault_rows (s : State) (k : FaultKind) : (raiseFault k s).rows = s.rows := rfl
@[simp] theorem raiseFault_cols (s : State) (k : FaultKind) : (raiseFault k s).cols = s.cols := rfl
@[simp] theorem raiseFault_bsize (s : State) (k : FaultKind) : (raiseFault k s).bsize = s.bsize := rfl
@[simp] theorem raiseFault_scale0 (s : State) (k : FaultKind) : (raiseFault k s).scale0 = s.scale0 := rfl
@[simp] theorem raiseFault_scale1 (s : State) (k : FaultKind) : (raiseFault k s).scale1 = s.scale1 := rfl
@[simp] theorem raiseFault_scale2 (s : State) (k : FaultKind) : (raiseFault k s).scale2 = s.scale2 := rfl
@[simp] theorem raiseFault_submode (s : State) (k : FaultKind) : (raiseFault k s).submode = s.submode := rfl
@[simp] theorem raiseFault_wmbytes (s : State) (k : FaultKind) : (raiseFault k s).wmbytes = s.wmbytes := rfl
@[simp] theorem raiseFault_mem (s : State) (k : FaultKind) : (raiseFault k s).mem = s.mem := rfl
@[simp] theorem raiseFault_epoch (s : State) (k : FaultKind) : (raiseFault k s).epoch = s.epoch := rfl
@[simp] theorem raiseFault_freeReads (s : State) (k : FaultKind) : (raiseFault k s).freeReads = s.freeReads := rfl
@[simp] theorem raiseFault_pending (s : State) (k : FaultKind) : (raiseFault k s).pending = s.pending := rfl
@[simp] theorem raiseFault_replies (s : State) (k : FaultKind) : (raiseFault k s).replies = s.replies := rfl

@[simp] theorem latchCommand_cmd (s : State) (w : Word) : (latchCommand w s).cmd = w := rfl
@[simp] theorem latchCommand_status (s : State) (w : Word) : (latchCommand w s).status = { s.status with done := false } := rfl
@[simp] theorem latchCommand_ctrl (s : State) (w : Word) : (latchCommand w s).ctrl = s.ctrl := rfl
@[simp] theorem latchCommand_rows (s : State) (w : Word) : (latchCommand w s).rows = s.rows := rfl
@[simp] theorem latchCommand_cols (s : State) (w : Word) : (latchCommand w s).cols = s.cols := rfl
@[simp] theorem latchCommand_bsize (s : State) (w : Word) : (latchCommand w s).bsize = s.bsize := rfl
@[simp] theorem latchCommand_scale0 (s : State) (w : Word) : (latchCommand w s).scale0 = s.scale0 := rfl
@[simp] theorem latchCommand_scale1 (s : State) (w : Word) : (latchCommand w s).scale1 = s.scale1 := rfl
@[simp] theorem latchCommand_scale2 (s : State) (w : Word) : (latchCommand w s).scale2 = s.scale2 := rfl
@[simp] theorem latchCommand_submode (s : State) (w : Word) : (latchCommand w s).submode = s.submode := rfl
@[simp] theorem latchCommand_wmbytes (s : State) (w : Word) : (latchCommand w s).wmbytes = s.wmbytes := rfl
@[simp] theorem latchCommand_mem (s : State) (w : Word) : (latchCommand w s).mem = s.mem := rfl
@[simp] theorem latchCommand_epoch (s : State) (w : Word) : (latchCommand w s).epoch = s.epoch := rfl
@[simp] theorem latchCommand_freeReads (s : State) (w : Word) : (latchCommand w s).freeReads = s.freeReads := rfl
@[simp] theorem latchCommand_pending (s : State) (w : Word) : (latchCommand w s).pending = s.pending := rfl
@[simp] theorem latchCommand_replies (s : State) (w : Word) : (latchCommand w s).replies = s.replies := rfl

@[simp] theorem acceptCommand_cmd (s : State) : (acceptCommand s).cmd = s.cmd := rfl
@[simp] theorem acceptCommand_status (s : State) : (acceptCommand s).status = { s.status with busy := true } := rfl
@[simp] theorem acceptCommand_ctrl (s : State) : (acceptCommand s).ctrl = s.ctrl := rfl
@[simp] theorem acceptCommand_rows (s : State) : (acceptCommand s).rows = s.rows := rfl
@[simp] theorem acceptCommand_cols (s : State) : (acceptCommand s).cols = s.cols := rfl
@[simp] theorem acceptCommand_bsize (s : State) : (acceptCommand s).bsize = s.bsize := rfl
@[simp] theorem acceptCommand_scale0 (s : State) : (acceptCommand s).scale0 = s.scale0 := rfl
@[simp] theorem acceptCommand_scale1 (s : State) : (acceptCommand s).scale1 = s.scale1 := rfl
@[simp] theorem acceptCommand_scale2 (s : State) : (acceptCommand s).scale2 = s.scale2 := rfl
@[simp] theorem acceptCommand_submode (s : State) : (acceptCommand s).submode = s.submode := rfl
@[simp] theorem acceptCommand_wmbytes (s : State) : (acceptCommand s).wmbytes = s.wmbytes := rfl
@[simp] theorem acceptCommand_mem (s : State) : (acceptCommand s).mem = s.mem := rfl
@[simp] theorem acceptCommand_epoch (s : State) : (acceptCommand s).epoch = s.epoch := rfl
@[simp] theorem acceptCommand_freeReads (s : State) : (acceptCommand s).freeReads = s.freeReads := rfl
@[simp] theorem acceptCommand_pending (s : State) : (acceptCommand s).pending = s.pending := rfl
@[simp] theorem acceptCommand_replies (s : State) : (acceptCommand s).replies = s.replies := rfl

@[simp] theorem complete_cmd (s : State) : (complete s).cmd = s.cmd := rfl
@[simp] theorem complete_status (s : State) : (complete s).status = { s.status with busy := false, done := true } := rfl
@[simp] theorem complete_ctrl (s : State) : (complete s).ctrl = s.ctrl := rfl
@[simp] theorem complete_rows (s : State) : (complete s).rows = s.rows := rfl
@[simp] theorem complete_cols (s : State) : (complete s).cols = s.cols := rfl
@[simp] theorem complete_bsize (s : State) : (complete s).bsize = s.bsize := rfl
@[simp] theorem complete_scale0 (s : State) : (complete s).scale0 = s.scale0 := rfl
@[simp] theorem complete_scale1 (s : State) : (complete s).scale1 = s.scale1 := rfl
@[simp] theorem complete_scale2 (s : State) : (complete s).scale2 = s.scale2 := rfl
@[simp] theorem complete_submode (s : State) : (complete s).submode = s.submode := rfl
@[simp] theorem complete_wmbytes (s : State) : (complete s).wmbytes = s.wmbytes := rfl
@[simp] theorem complete_mem (s : State) : (complete s).mem = s.mem := rfl
@[simp] theorem complete_epoch (s : State) : (complete s).epoch = s.epoch := rfl
@[simp] theorem complete_freeReads (s : State) : (complete s).freeReads = s.freeReads := rfl
@[simp] theorem complete_pending (s : State) : (complete s).pending = s.pending := rfl
@[simp] theorem complete_replies (s : State) : (complete s).replies = s.replies := rfl

@[simp] theorem withMem_self (s : State) : s.withMem s.mem = s := rfl
@[simp] theorem withMem_withMem (s : State) (m n : Memory) : (s.withMem m).withMem n = s.withMem n := rfl

end Sys2Proof.Machine
end

