-- ==== Sys2Proof/Laws/Ops.lean ====
section
/-!
SUPPORT. One lemma for each shared operation that says once what it does: reads after writes, the registers, taking a
fault, the resets, issue and completion.
-/

namespace Sys2Proof.Machine

/-! ### Bytes and words of the state -/

/-- The byte of a state depends on its buffers and its epoch only. -/
theorem byte_congr {s t : State} (hm : t.mem = s.mem) (he : t.epoch = s.epoch) (a : Nat) : t.byte a = s.byte a := by
  unfold State.byte; rw [hm, he]

theorem word_congr {s t : State} (h : ∀ a, t.byte a = s.byte a) (a : Nat) : t.word a = s.word a := by
  unfold State.word; simp only [h]

/-- Equal listed entries read equal. -/
theorem byte_eq_of_get? {s t : State} {a : Nat} (h : t.mem.get? a = s.mem.get? a) (he : t.epoch = s.epoch) :
    t.byte a = s.byte a := by
  unfold State.byte; rw [h, he]

/-- An address with no cell reads 0 (20_memory.md R66). -/
theorem byte_of_not_stored (s : State) {a : Nat} (h : stored a = false) : s.byte a = 0x00#8 := by
  unfold State.byte; simp [h]

theorem byte_of_get?_none {s : State} {a : Nat} {b : Byte} (h : s.mem.get? a = none) (hr : resetByte a = some b)
    (hs : stored a = true) : s.byte a = b := by
  unfold State.byte; simp [h, hr, hs]

/-- Reading a byte after the one write. -/
theorem byte_fill (s : State) (m : Memory) (lo n : Nat) (f : Nat → Byte) (a : Nat) :
    (s.withMem (m.fill lo n f)).byte a =
      if lo ≤ a ∧ a < lo + n ∧ stored a = true then f (a - lo) else (s.withMem m).byte a := by
  unfold State.byte
  simp only [withMem_mem, withMem_epoch, get?_fill]
  by_cases hs : stored a = true
  · by_cases hr : lo ≤ a ∧ a < lo + n
    · simp only [hs, hr, and_self, if_true]
      unfold Memory.entry
      by_cases he : resetByte a = some (f (a - lo))
      · simp [hs, he]
      · simp [hs, he]
    · have hr' : ¬ (lo ≤ a ∧ a < lo + n ∧ stored a = true) := fun h => hr ⟨h.1, h.2.1⟩
      rw [if_neg hr, if_neg hr']
  · have : ¬ (lo ≤ a ∧ a < lo + n ∧ stored a = true) := fun h => hs h.2.2
    simp [hs]

theorem byte_fill_of_lt (s : State) (m : Memory) {lo n : Nat} (f : Nat → Byte) {a : Nat} (h : a < lo ∨ lo + n ≤ a) :
    (s.withMem (m.fill lo n f)).byte a = (s.withMem m).byte a := by
  rw [byte_fill, if_neg (by omega)]

/-- Reading a byte of a block of words. -/
theorem byte_fillWords (s : State) (m : Memory) (base n : Nat) (f : Nat → Word) (a : Nat) :
    (s.withMem (m.fillWords base n f)).byte a =
      if base ≤ a ∧ a < base + 4 * n ∧ stored a = true then byteOf (f ((a - base) / 4)) ((a - base) % 4)
      else (s.withMem m).byte a :=
  byte_fill s m base (4 * n) _ a

/-- Reading word `j` of a block of words whose bytes all have cells. -/
theorem word_fillWords (s : State) (m : Memory) (base n : Nat) (f : Nat → Word) {j : Nat} (hj : j < n)
    (hs : ∀ k, k < 4 → stored (base + 4 * j + k) = true) :
    (s.withMem (m.fillWords base n f)).word (base + 4 * j) = f j := by
  have h : ∀ k, k < 4 → (s.withMem (m.fillWords base n f)).byte (base + 4 * j + k) = byteOf (f j) k := by
    intro k hk
    rw [byte_fillWords, if_pos ⟨by omega, by omega, hs k hk⟩]
    have h1 : (base + 4 * j + k - base) / 4 = j := by omega
    have h2 : (base + 4 * j + k - base) % 4 = k := by omega
    rw [h1, h2]
  unfold State.word
  rw [← Nat.add_zero (base + 4 * j), h 0 (by omega), h 1 (by omega), h 2 (by omega), h 3 (by omega), wordOf_byteOf]

/-- A word whose bytes lie outside a write reads as before. -/
theorem word_fill_of_lt (s : State) (m : Memory) {lo n : Nat} (f : Nat → Byte) {a : Nat} (h : a + 4 ≤ lo ∨ lo + n ≤ a) :
    (s.withMem (m.fill lo n f)).word a = (s.withMem m).word a := by
  unfold State.word
  rw [byte_fill_of_lt _ _ _ (by omega), byte_fill_of_lt _ _ _ (by omega), byte_fill_of_lt _ _ _ (by omega),
    byte_fill_of_lt _ _ _ (by omega)]

/-- A byte outside every write of a loop reads as before. -/
theorem byte_foldl_fill {α : Type} (s : State) (lo n : α → Nat) (f : α → Nat → Byte) (l : List α) (m : Memory) {a : Nat}
    (h : ∀ x ∈ l, a < lo x ∨ lo x + n x ≤ a) :
    (s.withMem (l.foldl (fun m x => m.fill (lo x) (n x) (f x)) m)).byte a = (s.withMem m).byte a := by
  induction l generalizing m with
  | nil => rfl
  | cons x l ih =>
    rw [List.foldl_cons, ih _ (fun y hy => h y (List.mem_cons_of_mem _ hy)),
      byte_fill_of_lt _ _ _ (h x (by simp))]

/-- A byte inside exactly one write of a loop, the writes of the other rounds lying elsewhere. -/
theorem byte_foldl_fill_hit {α : Type} (s : State) (lo n : α → Nat) (f : α → Nat → Byte) (l : List α) (m : Memory)
    {a : Nat} {x : α} (hx : x ∈ l) (hl : l.Nodup) (hin : lo x ≤ a ∧ a < lo x + n x) (hs : stored a = true)
    (h : ∀ y ∈ l, y ≠ x → a < lo y ∨ lo y + n y ≤ a) :
    (s.withMem (l.foldl (fun m x => m.fill (lo x) (n x) (f x)) m)).byte a = f x (a - lo x) := by
  induction l generalizing m with
  | nil => simp at hx
  | cons y l ih =>
    have hnd := List.nodup_cons.mp hl
    rw [List.foldl_cons]
    by_cases hy : y = x
    · subst hy
      rw [byte_foldl_fill, byte_fill, if_pos ⟨hin.1, hin.2, hs⟩]
      intro z hz
      exact h z (List.mem_cons_of_mem _ hz) (fun he => hnd.1 (he ▸ hz))
    · have hxl : x ∈ l := by
        rcases List.mem_cons.mp hx with h' | h'
        · exact absurd h'.symm hy
        · exact h'
      exact ih _ hxl hnd.2 (fun z hz => h z (List.mem_cons_of_mem _ hz))

/-- Reading a byte after a range goes back to its reset contents. -/
theorem byte_restore_of_lt (s : State) (m : Memory) {lo n a : Nat} (h : a < lo ∨ lo + n ≤ a) :
    (s.withMem (m.restore lo n)).byte a = (s.withMem m).byte a := by
  refine byte_eq_of_get? ?_ rfl
  simp only [withMem_mem]
  rw [get?_restore, if_neg (by omega)]

theorem byte_restore_hit (s : State) (m : Memory) {lo n a : Nat} {b : Byte} (h : lo ≤ a ∧ a < lo + n)
    (hs : stored a = true) (hr : resetByte a = some b) : (s.withMem (m.restore lo n)).byte a = b :=
  byte_of_get?_none (by simp only [withMem_mem]; rw [get?_restore, if_pos h]) hr hs

/-- A state's buffers are canonical after a store if they were before. -/
theorem storeWord_wf {s : State} (h : s.mem.wf) (a : Nat) (w : Word) : (s.storeWord a w).mem.wf :=
  wf_fillWords h a 1 (fun _ => w)

/-- A store of a word changes its four bytes and nothing else. -/
theorem storeWord_byte (s : State) (a : Nat) (w : Word) (x : Nat) :
    (s.storeWord a w).byte x =
      if a ≤ x ∧ x < a + 4 ∧ stored x = true then byteOf w (x - a) else s.byte x := by
  unfold State.storeWord
  rw [byte_fillWords, withMem_self]
  by_cases h : a ≤ x ∧ x < a + 4 * 1 ∧ stored x = true
  · rw [if_pos h, if_pos (by omega)]
    congr 1
    omega
  · rw [if_neg h, if_neg (by omega)]

/-- Reading back a stored word whose bytes all have cells. -/
theorem storeWord_word (s : State) {a : Nat} (w : Word) (hs : ∀ k, k < 4 → stored (a + k) = true) :
    (s.storeWord a w).word a = w := by
  have := word_fillWords s s.mem a 1 (fun _ => w) (j := 0) (by omega) (by simpa using hs)
  simpa [State.storeWord] using this

theorem storeWord_word_of_lt (s : State) {a x : Nat} (w : Word) (h : x + 4 ≤ a ∨ a + 4 ≤ x) :
    (s.storeWord a w).word x = s.word x := by
  have := word_fill_of_lt s s.mem (lo := a) (n := 4 * 1) (fun k => byteOf w (k % 4)) (a := x) (by omega)
  simpa [State.storeWord, Memory.fillWords] using this

/-- A store changes no field but the buffers. -/
theorem storeWord_eq (s : State) (a : Nat) (w : Word) :
    s.storeWord a w = s.withMem (s.mem.fillWords a 1 (fun _ => w)) := rfl

/-! ### Bytes through the named updates -/

@[simp] theorem byte_withPending (s : State) (l : List Arrival) (a : Nat) : (s.withPending l).byte a = s.byte a := rfl
@[simp] theorem byte_reply (s : State) (r : Reply) (a : Nat) : (s.reply r).byte a = s.byte a := rfl
@[simp] theorem byte_setOvr (s : State) (a : Nat) : s.setOvr.byte a = s.byte a := rfl
@[simp] theorem byte_setEmpty (s : State) (b : Bool) (a : Nat) : (s.setEmpty b).byte a = s.byte a := rfl
@[simp] theorem byte_raiseFault (k : FaultKind) (s : State) (a : Nat) : (raiseFault k s).byte a = s.byte a := rfl
@[simp] theorem byte_latchCommand (w : Word) (s : State) (a : Nat) : (latchCommand w s).byte a = s.byte a := rfl
@[simp] theorem byte_acceptCommand (s : State) (a : Nat) : (acceptCommand s).byte a = s.byte a := rfl
@[simp] theorem byte_complete (s : State) (a : Nat) : (complete s).byte a = s.byte a := rfl
@[simp] theorem word_complete (s : State) (a : Nat) : (complete s).word a = s.word a :=
  word_congr (byte_complete s) a
@[simp] theorem pixel_complete (s : State) (k c : Nat) : (complete s).pixel k c = s.pixel k c :=
  byte_complete s _
@[simp] theorem sample_complete (s : State) (ch : Channel) (k : Nat) : (complete s).sample ch k = s.sample ch k :=
  byte_complete s _
@[simp] theorem coeff_complete (s : State) (b : Subband) (k : Nat) : (complete s).coeff b k = s.coeff b k :=
  congrArg BitVec.toInt (word_complete s _)
@[simp] theorem ones_complete (s : State) (p : Nat) : (complete s).ones p = s.ones p := word_complete s _
@[simp] theorem total_complete (s : State) (p : Nat) : (complete s).total p = s.total p := word_complete s _

/-! ### Issue -/

/-- What an issue does to `STATUS` (30_encoding.md R95, 60_exceptions.md R226). -/
theorem issue_status (w : Word) (c : Option FaultKind) (s : State) :
    (issue w c s).status =
      match c with
      | some k => { s.status with done := false, err := true, errCode := k.code }
      | none => { s.status with done := false, busy := true } := by
  cases c <;> rfl

/-- An issue changes `CMD` and `STATUS` and nothing else (R95: "No other state changes at issue"). -/
theorem issue_eq (w : Word) (c : Option FaultKind) (s : State) :
    issue w c s = { s with cmd := w, status := (issue w c s).status } := by
  cases c <;> rfl

@[simp] theorem byte_issue (w : Word) (c : Option FaultKind) (s : State) (a : Nat) :
    (issue w c s).byte a = s.byte a := by
  cases c <;> rfl

/-! ### Resets -/

/-- The registers after a soft reset (70_reset_and_hazards.md R251). -/
theorem softReset_registers (s : State) (i : Nat) : (softReset s).readReg i = State.reset.readReg i := by
  unfold State.readReg softReset
  rfl

/-- The registers after a hard reset (R250). -/
theorem hardReset_registers (s : State) (i : Nat) : (hardReset s).readReg i = State.reset.readReg i := by
  unfold State.readReg hardReset
  rfl

/-- A soft reset leaves every byte outside `PIN`, `POUT`, `ONES` and `TOTAL` (R251). -/
theorem softReset_byte (s : State) {a : Nat} (h1 : a < pinBase ∨ pinBase + 0x200 ≤ a)
    (h2 : a < onesBase ∨ onesBase + 0x4000 ≤ a) : (softReset s).byte a = s.byte a := by
  have : (softReset s).byte a = (s.withMem ((s.mem.restore pinBase 0x200).restore onesBase 0x4000)).byte a :=
    byte_congr rfl rfl a
  rw [this, byte_restore_of_lt _ _ h2, byte_restore_of_lt _ _ h1, withMem_self]

/-- After a soft reset the bytes with reset contents hold them (R251). -/
theorem softReset_byte_hit (s : State) {a : Nat} {b : Byte}
    (h : (pinBase ≤ a ∧ a < pinBase + 0x200) ∨ (onesBase ≤ a ∧ a < onesBase + 0x4000)) (hs : stored a = true)
    (hr : resetByte a = some b) : (softReset s).byte a = b := by
  refine byte_of_get?_none ?_ hr hs
  show ((s.mem.restore pinBase 0x200).restore onesBase 0x4000).get? a = none
  rw [get?_restore, get?_restore]
  rcases h with h | h
  · rw [if_neg (by simp only [onesBase, pinBase] at *; omega), if_pos h]
  · rw [if_pos h]

/-- After a hard reset every byte with reset contents holds them, and the others are free (R250; log 6). -/
theorem hardReset_byte (s : State) (a : Nat) :
    (hardReset s).byte a =
      if stored a then (resetByte a).getD (Config.powerOn (s.epoch + 1) a) else 0x00#8 := by
  show (if stored a then _ else _) = _
  congr 1
  show (match resetByte a with | some b => b | none => Config.powerOn (s.epoch + 1) a) = _
  cases resetByte a <;> rfl

theorem softReset_wf {s : State} (h : s.mem.wf) : (softReset s).mem.wf := wf_restore (wf_restore h _ _) _ _

theorem hardReset_wf (s : State) : (hardReset s).mem.wf := wf_nil

/-! ### Registers -/

/-- The writes of the host to registers keep the canonical form. -/
theorem writeReg_wf {s : State} (h : s.mem.wf) (i : Nat) (w : Word) : (s.writeReg i w).mem.wf := by
  unfold State.writeReg State.writeCtrl
  split
  · split
    · exact softReset_wf h
    · exact h
  all_goals exact h

/-- A register write other than a soft reset changes no byte. -/
theorem writeReg_byte (s : State) (i : Nat) (w : Word) (h : i ≠ 2 ∨ srstBit w = false) (a : Nat) :
    (s.writeReg i w).byte a = s.byte a := by
  unfold State.writeReg State.writeCtrl
  split
  · rcases h with h | h
    · exact absurd rfl h
    · rw [h]; rfl
  all_goals rfl

end Sys2Proof.Machine
end

