-- ==== Sys2Proof/Laws/Command.lean ====
section
/-!
SUPPORT. What a command can do, said once: the effect of each command, what an effect leaves alone, the canonical form
after it, and the three ways `exec` can answer.
-/

namespace Sys2Proof.Machine

/-! ### The operands depend on the configuration registers only -/

/-- All that the operands take from the registers is the same in two states with the same configuration. -/
theorem operands_congr {s t : State} (h : s.sameConfig t) :
    t.nRows = s.nRows ∧ t.nCols = s.nCols ∧ t.blk = s.blk ∧ t.area = s.area ∧ t.regionRows = s.regionRows ∧
      t.regionCols = s.regionCols ∧ t.subRows = s.subRows ∧ t.subCols = s.subCols ∧ t.blockRows = s.blockRows ∧
      t.blockCols = s.blockCols ∧ t.nBlocks = s.nBlocks ∧ t.nBytes = s.nBytes ∧ t.wmLen = s.wmLen ∧
      (∀ ch, t.scale ch = s.scale ch) ∧ t.selected = s.selected ∧ (∀ r c, t.gridCell r c = s.gridCell r c) ∧
      (∀ i j, t.subCell i j = s.subCell i j) ∧ (∀ i p, t.blockCell i p = s.blockCell i p) ∧
      (∀ k, t.evenCell k = s.evenCell k) := by
  obtain ⟨h1, h2, h3, h4, h5, h6, h7, h8⟩ := h
  refine ⟨?_, ?_, ?_, ?_, ?_, ?_, ?_, ?_, ?_, ?_, ?_, ?_, ?_, ?_, ?_, ?_, ?_, ?_, ?_⟩
  case refine_14 => intro ch; cases ch <;> simp only [State.scale, h4, h5, h6]
  all_goals
    simp only [State.nRows, State.nCols, State.blk, State.area, State.regionRows, State.regionCols, State.subRows,
      State.subCols, State.blockRows, State.blockCols, State.nBlocks, State.nBytes, State.wmLen, State.selected,
      State.gridCell, State.subCell, State.blockCell, State.evenCell, h1, h2, h3, h7, h8, implies_true]

/-- The checks depend on the configuration registers only (60_exceptions.md R227). -/
theorem check_congr {s t : State} (h : s.sameConfig t) (i : Instr) : check i t = check i s := by
  obtain ⟨-, -, hb, ha, -, -, -, -, -, -, -, hn, -, hs, -⟩ := operands_congr h
  unfold check State.badBlock
  rw [hb, ha, hn, h.2.2.2.2.2.2.1]
  simp only [hs]

theorem checkWord_congr {s t : State} (h : s.sameConfig t) (w : Word) : checkWord w t = checkWord w s := by
  unfold checkWord
  split
  · rfl
  · exact check_congr h _

/-! ### Effects -/

/-- An effect that changes the buffers and nothing else. -/
def OnlyMem (e : State → State) : Prop := ∀ s, e s = s.withMem (e s).mem

theorem onlyMem_id : OnlyMem id := fun _ => rfl

theorem OnlyMem.comp {e f : State → State} (he : OnlyMem e) (hf : OnlyMem f) : OnlyMem (fun s => e (f s)) := by
  intro s
  show e (f s) = s.withMem (e (f s)).mem
  rw [he (f s), hf s]
  rfl

theorem OnlyMem.foldl {α : Type} {g : State → α → State} (hg : ∀ x, OnlyMem (fun s => g s x)) (l : List α) :
    OnlyMem (fun s => l.foldl g s) := by
  induction l with
  | nil => exact onlyMem_id
  | cons x l ih => exact OnlyMem.comp ih (hg x)

/-- An effect that changes the buffers only leaves every other field. -/
theorem OnlyMem.same {e : State → State} (he : OnlyMem e) (s : State) :
    s.sameOutside (e s) ∧ (e s).status = s.status := by
  rw [he s]
  simp [State.sameOutside, State.sameConfig]

theorem onlyMem_rgb2yuv : OnlyMem rgb2yuvEffect := fun _ => rfl
theorem onlyMem_yuv2rgb : OnlyMem yuv2rgbEffect := fun _ => rfl
theorem onlyMem_dwtfwd (ch : Channel) : OnlyMem (dwtfwdEffect ch) := fun _ => rfl
theorem onlyMem_dwtinv (ch : Channel) : OnlyMem (dwtinvEffect ch) := fun _ => rfl
theorem onlyMem_vclear : OnlyMem vclearEffect := fun _ => rfl
theorem onlyMem_subsamplePlane (ch : Channel) : OnlyMem (subsamplePlane ch) := fun _ => rfl
theorem onlyMem_appendVote (p : Nat) (b : Bool) : OnlyMem (appendVote p b) := fun _ => rfl
theorem onlyMem_extractBlock (ch : Channel) (i : Nat) : OnlyMem (fun s => extractBlock ch s i) := fun _ => rfl

theorem onlyMem_subsamp : OnlyMem subsampEffect := by
  intro s
  have := OnlyMem.foldl (g := fun t ch => subsamplePlane ch t) onlyMem_subsamplePlane s.selected s
  exact this

theorem onlyMem_embed (ch : Channel) : OnlyMem (embedEffect ch) := by
  intro s
  unfold embedEffect
  split <;> rfl

theorem onlyMem_extract (ch : Channel) : OnlyMem (extractEffect ch) := by
  intro s
  unfold extractEffect
  split
  · rfl
  · exact OnlyMem.foldl (g := extractBlock ch) (onlyMem_extractBlock ch) (List.range s.nBlocks) s

theorem onlyMem_encodeChannel (ch : Channel) : OnlyMem (fun s => encodeChannel s ch) := by
  intro s
  show encodeChannel s ch = s.withMem (encodeChannel s ch).mem
  unfold encodeChannel
  split
  · exact OnlyMem.comp (onlyMem_dwtinv ch) (OnlyMem.comp (onlyMem_embed ch) (onlyMem_dwtfwd ch)) s
  · rfl

theorem onlyMem_decodeChannel (ch : Channel) : OnlyMem (fun s => decodeChannel s ch) := by
  intro s
  show decodeChannel s ch = s.withMem (decodeChannel s ch).mem
  unfold decodeChannel
  split
  · exact OnlyMem.comp (onlyMem_extract ch) (onlyMem_dwtfwd ch) s
  · rfl

theorem onlyMem_encode : OnlyMem encodeEffect := by
  have h : OnlyMem (fun s => yuv2rgbEffect (Channel.all.foldl encodeChannel (subsampEffect (rgb2yuvEffect s)))) :=
    OnlyMem.comp onlyMem_yuv2rgb (OnlyMem.comp (OnlyMem.foldl onlyMem_encodeChannel Channel.all)
      (OnlyMem.comp onlyMem_subsamp onlyMem_rgb2yuv))
  exact h

/-- The votes of `DECODE`, before its `TALLY`, change the buffers only. -/
theorem onlyMem_decodeVotes :
    OnlyMem (fun s => Channel.all.foldl decodeChannel (vclearEffect (rgb2yuvEffect s))) :=
  OnlyMem.comp (OnlyMem.foldl onlyMem_decodeChannel Channel.all) (OnlyMem.comp onlyMem_vclear onlyMem_rgb2yuv)

/-- The effect of a command at its completion; a channel field that selects no channel has none. -/
def effectOf (i : Instr) (s : State) : State :=
  match i with
  | .nop => nopEffect s
  | .rgb2yuv => rgb2yuvEffect s
  | .yuv2rgb => yuv2rgbEffect s
  | .subsamp => subsampEffect s
  | .dwtfwd f => (Channel.ofField f).elim s (fun ch => dwtfwdEffect ch s)
  | .dwtinv f => (Channel.ofField f).elim s (fun ch => dwtinvEffect ch s)
  | .embed f => (Channel.ofField f).elim s (fun ch => embedEffect ch s)
  | .extract f => (Channel.ofField f).elim s (fun ch => extractEffect ch s)
  | .vclear => vclearEffect s
  | .tally => tallyEffect s
  | .encode => encodeEffect s
  | .decode => decodeEffect s

theorem onlyMem_channel {g : Channel → State → State} (hg : ∀ ch, OnlyMem (g ch)) (o : Option Channel) :
    OnlyMem (fun s => o.elim s (fun ch => g ch s)) := by
  cases o with
  | none => exact onlyMem_id
  | some ch => exact hg ch

/-- Every command but `TALLY` and `DECODE` changes the buffers only (70_reset_and_hazards.md R258). -/
theorem onlyMem_effectOf {i : Instr} (h1 : i ≠ .tally) (h2 : i ≠ .decode) : OnlyMem (effectOf i) := by
  cases i with
  | nop => exact onlyMem_id
  | rgb2yuv => exact onlyMem_rgb2yuv
  | yuv2rgb => exact onlyMem_yuv2rgb
  | subsamp => exact onlyMem_subsamp
  | dwtfwd f => exact onlyMem_channel onlyMem_dwtfwd _
  | dwtinv f => exact onlyMem_channel onlyMem_dwtinv _
  | embed f => exact onlyMem_channel onlyMem_embed _
  | extract f => exact onlyMem_channel onlyMem_extract _
  | vclear => exact onlyMem_vclear
  | tally => exact absurd rfl h1
  | encode => exact onlyMem_encode
  | decode => exact absurd rfl h2

/-- What `TALLY` changes: the buffers and `EMPTY`. -/
theorem tallyEffect_eq (s : State) : tallyEffect s = (s.withMem (tallyEffect s).mem).setEmpty s.someEmpty := rfl

/-- Every command's effect changes the buffers and `STATUS.EMPTY` and nothing else. -/
theorem effectOf_eq (i : Instr) (s : State) :
    effectOf i s = (s.withMem (effectOf i s).mem).setEmpty (effectOf i s).status.empty := by
  by_cases h1 : i = .tally
  · subst h1; rfl
  · by_cases h2 : i = .decode
    · subst h2
      show decodeEffect s = _
      unfold effectOf decodeEffect
      rw [tallyEffect_eq]
      have h := onlyMem_decodeVotes s
      simp only at h
      rw [h]
      rfl
    · have h := onlyMem_effectOf h1 h2 s
      rw [h]
      rfl

/-- Every field but the buffers and `STATUS` is as before an effect; of `STATUS` only `EMPTY` may change. -/
theorem effectOf_same (i : Instr) (s : State) :
    s.sameOutside (effectOf i s) ∧
      (effectOf i s).status = { s.status with empty := (effectOf i s).status.empty } := by
  rw [effectOf_eq i s]
  simp [State.sameOutside, State.sameConfig]

/-! ### The canonical form after an effect -/

/-- An effect that keeps the canonical form. -/
def KeepsWf (e : State → State) : Prop := ∀ s : State, s.mem.wf → (e s).mem.wf

theorem keepsWf_foldl {α : Type} {g : State → α → State} (hg : ∀ x, KeepsWf (fun s => g s x)) (l : List α) :
    KeepsWf (fun s => l.foldl g s) := by
  induction l with
  | nil => exact fun s h => h
  | cons x l ih => exact fun s h => ih (g s x) (hg x s h)

theorem keepsWf_rgb2yuv : KeepsWf rgb2yuvEffect := fun _ h => wf_fill (wf_fill (wf_fill h _ _ _) _ _ _) _ _ _

theorem keepsWf_yuv2rgb : KeepsWf yuv2rgbEffect := by
  intro s h
  unfold yuv2rgbEffect
  rw [withMem_mem]
  exact wf_fillWords h _ _ _

theorem keepsWf_subsamp : KeepsWf subsampEffect := fun s h =>
  keepsWf_foldl (g := fun t ch => subsamplePlane ch t) (fun _ t ht => wf_fill (m := t.mem) ht _ _ _) s.selected s h

theorem keepsWf_dwtfwd (ch : Channel) : KeepsWf (dwtfwdEffect ch) := fun _ h =>
  wf_fillWords (wf_fillWords (wf_fillWords (wf_fillWords h _ _ _) _ _ _) _ _ _) _ _ _

theorem keepsWf_dwtinv (ch : Channel) : KeepsWf (dwtinvEffect ch) := fun s h =>
  wf_foldl (fillRegionRow ch s) (fun _ _ hm => wf_fill hm _ _ _) _ h

theorem keepsWf_embed (ch : Channel) : KeepsWf (embedEffect ch) := by
  intro s h
  unfold embedEffect
  split
  · exact h
  · exact wf_foldl (embedBlock ch s) (fun _ _ hm => wf_fillWords hm _ _ _) _ h

theorem keepsWf_appendVote (p : Nat) (b : Bool) : KeepsWf (appendVote p b) := fun _ h =>
  storeWord_wf (storeWord_wf h _ _) _ _

theorem keepsWf_extract (ch : Channel) : KeepsWf (extractEffect ch) := by
  intro s h
  unfold extractEffect
  split
  · exact h
  · exact keepsWf_foldl (g := extractBlock ch) (fun i t ht => keepsWf_appendVote _ _ t ht) _ s h

theorem keepsWf_vclear : KeepsWf vclearEffect := fun _ h => wf_restore (wf_restore h _ _) _ _

theorem keepsWf_tally : KeepsWf tallyEffect := fun s h => wf_fill (m := s.mem) h _ _ _

theorem keepsWf_encode : KeepsWf encodeEffect := by
  intro s h
  refine keepsWf_yuv2rgb _ (keepsWf_foldl (g := encodeChannel) ?_ Channel.all _ (keepsWf_subsamp _ (keepsWf_rgb2yuv _ h)))
  intro ch t ht
  show (encodeChannel t ch).mem.wf
  unfold encodeChannel
  split
  · exact keepsWf_dwtinv ch _ (keepsWf_embed ch _ (keepsWf_dwtfwd ch _ ht))
  · exact ht

theorem keepsWf_decode : KeepsWf decodeEffect := by
  intro s h
  refine keepsWf_tally _ (keepsWf_foldl (g := decodeChannel) ?_ Channel.all _ (keepsWf_vclear _ (keepsWf_rgb2yuv _ h)))
  intro ch t ht
  show (decodeChannel t ch).mem.wf
  unfold decodeChannel
  split
  · exact keepsWf_extract ch _ (keepsWf_dwtfwd ch _ ht)
  · exact ht

theorem keepsWf_channel {g : Channel → State → State} (hg : ∀ ch, KeepsWf (g ch)) (o : Option Channel) :
    KeepsWf (fun s => o.elim s (fun ch => g ch s)) := by
  cases o with
  | none => exact fun s h => h
  | some ch => exact hg ch

/-- Every effect keeps the canonical form of the buffers. -/
theorem effectOf_wf (i : Instr) : KeepsWf (effectOf i) := by
  cases i with
  | nop => exact fun s h => h
  | rgb2yuv => exact keepsWf_rgb2yuv
  | yuv2rgb => exact keepsWf_yuv2rgb
  | subsamp => exact keepsWf_subsamp
  | dwtfwd f => exact keepsWf_channel keepsWf_dwtfwd _
  | dwtinv f => exact keepsWf_channel keepsWf_dwtinv _
  | embed f => exact keepsWf_channel keepsWf_embed _
  | extract f => exact keepsWf_channel keepsWf_extract _
  | vclear => exact keepsWf_vclear
  | tally => exact keepsWf_tally
  | encode => exact keepsWf_encode
  | decode => exact keepsWf_decode

/-! ### The three ways `exec` answers -/

/-- A legal channel field selects a channel, the illegal one none (30_encoding.md R90). -/
theorem ofField_isSome (f : ChannelField) : (Channel.ofField f).isSome = channelLegal f := by
  revert f; decide

theorem ofField_of_legal {f : ChannelField} (h : channelLegal f = true) : ∃ ch, Channel.ofField f = some ch :=
  Option.isSome_iff_exists.mp ((ofField_isSome f).trans h)

theorem runChannel_busy {f : ChannelField} {s : State} (i : Instr) (g : Channel → State → State)
    (hb : s.status.busy = true) :
    runChannel i f g s =
      if channelLegal f then .next (complete ((Channel.ofField f).elim s (fun ch => g ch s)))
      else .fault .illegalInFlight := by
  have h := ofField_isSome f
  unfold runChannel runCommand
  cases hc : Channel.ofField f with
  | none => rw [hc] at h; simp at h; simp [← h, hb]
  | some ch => rw [hc] at h; simp at h; simp [← h, hb]

theorem runChannel_idle {f : ChannelField} {s : State} (i : Instr) (g : Channel → State → State)
    (hb : s.status.busy = false) : runChannel i f g s = .next (issueCommand i s) := by
  unfold runChannel runCommand
  cases Channel.ofField f <;> simp [hb]

/-- With a command in flight, `exec` is its completion (30_encoding.md R97). -/
theorem exec_busy {i : Instr} {s : State} (hb : s.status.busy = true) :
    exec i s = if i.wellFormed then .next (complete (effectOf i s)) else .fault .illegalInFlight := by
  cases i with
  | dwtfwd f => exact runChannel_busy _ _ hb
  | dwtinv f => exact runChannel_busy _ _ hb
  | embed f => exact runChannel_busy _ _ hb
  | extract f => exact runChannel_busy _ _ hb
  | _ => exact if_pos hb

/-- With none in flight, `exec` is the command's issue (R95, R96). -/
theorem exec_idle {i : Instr} {s : State} (hb : s.status.busy = false) : exec i s = .next (issueCommand i s) := by
  have hb' : ¬ s.status.busy = true := by simp [hb]
  cases i with
  | dwtfwd f => exact runChannel_idle _ _ hb
  | dwtinv f => exact runChannel_idle _ _ hb
  | embed f => exact runChannel_idle _ _ hb
  | extract f => exact runChannel_idle _ _ hb
  | _ => exact if_neg hb'

/-- The completion of a legal command. -/
theorem exec_completes {i : Instr} {s : State} (hb : s.status.busy = true) (hi : i.wellFormed = true) :
    exec i s = .next (complete (effectOf i s)) := by
  rw [exec_busy hb, if_pos hi]

theorem complete_same {s u : State} (h : s.sameOutside u) : s.sameOutside (complete u) := h

theorem complete_empty {s u : State} (h : u.status = { s.status with empty := u.status.empty }) :
    (complete u).status = { s.status with busy := false, done := true, empty := (complete u).status.empty } := by
  unfold complete
  rw [h]

/-- All that the completion of a legal command does outside the buffers (R97): `BUSY`, `DONE`, and perhaps `EMPTY`. -/
theorem completion_same (i : Instr) (s : State) :
    s.sameOutside (complete (effectOf i s)) ∧
      (complete (effectOf i s)).status =
        { s.status with busy := false, done := true, empty := (complete (effectOf i s)).status.empty } :=
  ⟨complete_same (effectOf_same i s).1, complete_empty (effectOf_same i s).2⟩

/-- All that `exec` can answer with a next state. -/
theorem exec_next_cases {i : Instr} {s t : State} (h : exec i s = .next t) :
    (s.status.busy = true ∧ i.wellFormed = true ∧ t = complete (effectOf i s)) ∨
    (s.status.busy = false ∧ s.status.err = true ∧ t = s.setOvr) ∨
    (s.status.busy = false ∧ s.status.err = false ∧ t = issue (Sys2Proof.encode i) (check i s) s) := by
  cases hb : s.status.busy with
  | true =>
    rw [exec_busy hb] at h
    split at h
    · rename_i hi; exact .inl ⟨rfl, hi, by simpa using h.symm⟩
    · cases h
  | false =>
    rw [exec_idle hb] at h
    unfold issueCommand at h
    cases he : s.status.err with
    | true => rw [he] at h; exact .inr (.inl ⟨rfl, rfl, by simpa using h.symm⟩)
    | false => rw [he] at h; exact .inr (.inr ⟨rfl, rfl, by simpa using h.symm⟩)

/-- A command whose checks pass is legal. -/
theorem wellFormed_of_check {i : Instr} {s : State} (h : check i s = none) : i.wellFormed = true := by
  unfold check at h
  cases hw : i.wellFormed with
  | true => rfl
  | false => simp [hw] at h

/-- The checks give none of the reserved kinds (60_exceptions.md R224). -/
theorem check_produced {i : Instr} {s : State} {k : FaultKind} (h : check i s = some k) : k.code ∈ producedCodes := by
  unfold check at h
  split at h
  · cases h; decide
  split at h
  · cases h; decide
  split at h
  · cases h; decide
  split at h
  · cases h; decide
  split at h
  · cases h; decide
  split at h
  · cases h; decide
  split at h
  · cases h; decide
  split at h
  · cases h; decide
  · cases h

end Sys2Proof.Machine
end

