-- ==== Sys2Proof/Laws/Bus.lean ====
section
/-!
SUPPORT. What the host port and one step can do, said once.
-/

namespace Sys2Proof.Machine

/-- All that a read can do (20_memory.md R62, R64, R72). -/
theorem busRead_cases (addr : Word) (width : Nat) (s : State) :
    (busTarget addr width = none ∧ busRead addr width s = s.reply .busError) ∨
    (busTarget addr width = some .reg ∧ busRead addr width s = s.reply (.data (s.readReg (addr.toNat / 4)))) ∨
    (∃ win, win ≠ .reg ∧ busTarget addr width = some win ∧ s.status.busy = false ∧
      busRead addr width s = s.reply (.data (s.word addr.toNat))) ∨
    (∃ win, win ≠ .reg ∧ busTarget addr width = some win ∧ s.status.busy = true ∧
      busRead addr width s =
        { (s.setOvr.reply (.data (Config.busyRead s.freeReads))) with freeReads := s.freeReads + 1 }) := by
  unfold busRead
  cases ht : busTarget addr width with
  | none => exact .inl ⟨rfl, rfl⟩
  | some win =>
    cases hb : s.status.busy <;> cases win <;> simp

/-- All that a write to `CMD` of an idle CORE can do (30_encoding.md R95, R96). -/
theorem writeCmd_cases {w : Word} {s : State} (hb : s.status.busy = false) :
    (s.status.err = true ∧ writeCmd w s = .next s.setOvr) ∨
    (s.status.err = false ∧ ∃ i, Sys2Proof.decode w = .ok i ∧
      writeCmd w s = .next (issue (Sys2Proof.encode i) (check i s) s)) ∨
    (s.status.err = false ∧ (∃ e, Sys2Proof.decode w = .error e) ∧
      writeCmd w s = .next (issue w (some .illegalCommand) s)) := by
  unfold writeCmd
  cases he : s.status.err with
  | true => exact .inl ⟨rfl, rfl⟩
  | false =>
    refine .inr ?_
    cases hd : Sys2Proof.decode w with
    | error e => exact .inr ⟨rfl, ⟨e, rfl⟩, rfl⟩
    | ok i => exact .inl ⟨rfl, i, rfl, by simp [exec_idle hb, issueCommand, he]⟩

/-- All that a write can do (20_memory.md R62, R64, R65, R71). -/
theorem busWrite_cases (addr : Word) (width : Nat) (w : Word) (s : State) :
    (busTarget addr width = none ∧ busWrite addr width w s = .next (s.reply .busError)) ∨
    (s.status.busy = true ∧ (busTarget addr width).isSome ∧
      busWrite addr width w s = .next (s.setOvr.reply .written)) ∨
    (s.status.busy = false ∧ busTarget addr width = some .reg ∧ addr.toNat = 0 ∧
      busWrite addr width w s = writeCmd w (s.reply .written)) ∨
    (s.status.busy = false ∧ busTarget addr width = some .reg ∧ addr.toNat ≠ 0 ∧
      busWrite addr width w s = .next ((s.writeReg (addr.toNat / 4) w).reply .written)) ∨
    (∃ win, win ≠ .reg ∧ s.status.busy = false ∧ busTarget addr width = some win ∧
      busWrite addr width w s = .next ((s.storeWord addr.toNat w).reply .written)) := by
  unfold busWrite
  cases ht : busTarget addr width with
  | none => exact .inl ⟨rfl, rfl⟩
  | some win =>
    refine .inr ?_
    cases hb : s.status.busy with
    | true => exact .inl ⟨rfl, rfl, by simp⟩
    | false =>
      refine .inr ?_
      cases win with
      | reg =>
        by_cases ha : addr.toNat = 0
        · exact .inl ⟨rfl, rfl, ha, by simp [ha]⟩
        · exact .inr (.inl ⟨rfl, rfl, ha, by simp [ha]⟩)
      | _ => exact .inr (.inr ⟨_, by simp, rfl, rfl, by simp⟩)

/-- A host operation always has a next state (R60). -/
theorem serve_next (op : HostOp) (s : State) : ∃ t, serve op s = .next t := by
  cases op with
  | read addr width => exact ⟨_, rfl⟩
  | hardReset => exact ⟨_, rfl⟩
  | write addr width w =>
    show ∃ t, busWrite addr width w s = .next t
    rcases busWrite_cases addr width w s with h | h | ⟨hb, -, -, h⟩ | h | ⟨_, -, h⟩
    · exact ⟨_, h.2⟩
    · exact ⟨_, h.2.2⟩
    · have hb' : (s.reply .written).status.busy = false := hb
      rw [h]
      rcases writeCmd_cases (w := w) hb' with h | ⟨-, i, -, h⟩ | h
      · exact ⟨_, h.2⟩
      · exact ⟨_, h⟩
      · exact ⟨_, h.2.2⟩
    · exact ⟨_, h.2.2.2⟩
    · exact ⟨_, h.2.2⟩

/-- The completion of a legal command in flight (30_encoding.md R97). -/
theorem completeInFlight_cases {s : State} (hb : s.status.busy = true) :
    (∃ i, Sys2Proof.decode s.cmd = .ok i ∧ i.wellFormed = true ∧
      completeInFlight s = .next (complete (effectOf i s))) ∨
    (completeInFlight s = .fault .illegalInFlight ∧
      ∀ i, Sys2Proof.decode s.cmd = .ok i → i.wellFormed = false) := by
  unfold completeInFlight
  cases hd : Sys2Proof.decode s.cmd with
  | error e => exact .inr ⟨rfl, by simp⟩
  | ok i =>
    cases hw : i.wellFormed with
    | true => exact .inl ⟨i, rfl, hw, exec_completes hb hw⟩
    | false => exact .inr ⟨by simp [exec_busy hb, hw], by simp [hw]⟩

/-- One step, by cases on the schedule: the CORE waits, completes its command, or serves the next transaction. -/
theorem step_cases (s : State) :
    (s.pending = [] ∧ s.status.busy = false ∧ step s = .next s) ∨
    (s.status.busy = true ∧ (∀ x ∈ s.pending.head?, x.overlaps = false) ∧ step s = completeInFlight s) ∨
    (∃ x rest, s.pending = x :: rest ∧ (s.status.busy = true → x.overlaps = true) ∧
      step s = serve x.op (s.withPending rest)) := by
  unfold step nextEvent
  cases hp : s.pending with
  | nil =>
    cases hb : s.status.busy with
    | true => exact .inr (.inl ⟨rfl, by simp, by simp⟩)
    | false => exact .inl ⟨rfl, rfl, by simp⟩
  | cons x rest =>
    by_cases h : s.status.busy = true ∧ x.overlaps = false
    · exact .inr (.inl ⟨h.1, by simpa using h.2, by simp [h]⟩)
    · refine .inr (.inr ⟨x, rest, rfl, ?_, by simp only [h, if_false]⟩)
      intro hb
      cases ho : x.overlaps with
      | true => rfl
      | false => exact absurd ⟨hb, ho⟩ h

end Sys2Proof.Machine
end

