-- ==== Sys2Proof/Laws/Congr.lean ====
section
/-!
SUPPORT. An effect depends on the buffers and the configuration registers only: not on `STATUS`, `CMD`, `CTRL` or the
host's transactions.
-/

namespace Sys2Proof.Machine

/-- Two states with the same buffers (in the same epoch) and the same configuration. -/
def State.sameReads (s t : State) : Prop := t.mem = s.mem ∧ t.epoch = s.epoch ∧ s.sameConfig t

theorem sameReads_refl (s : State) : s.sameReads s := ⟨rfl, rfl, rfl, rfl, rfl, rfl, rfl, rfl, rfl, rfl⟩

/-- Reads of bytes and words agree. -/
theorem sameReads_byte {s t : State} (h : s.sameReads t) : t.byte = s.byte :=
  funext fun a => byte_congr h.1 h.2.1 a

theorem sameReads_word {s t : State} (h : s.sameReads t) : t.word = s.word := by
  funext a
  unfold State.word
  rw [sameReads_byte h]

theorem sameReads_cells {s t : State} (h : s.sameReads t) :
    t.pixel = s.pixel ∧ t.sample = s.sample ∧ t.coeff = s.coeff ∧ t.ones = s.ones ∧ t.total = s.total ∧
      t.payloadBit = s.payloadBit := by
  have hb := sameReads_byte h
  have hw := sameReads_word h
  refine ⟨?_, ?_, ?_, ?_, ?_, ?_⟩
  · funext k c; unfold State.pixel; rw [hb]
  · funext ch k; unfold State.sample; rw [hb]
  · funext b k; unfold State.coeff State.signedWord; rw [hw]
  · funext p; unfold State.ones; rw [hw]
  · funext p; unfold State.total; rw [hw]
  · funext k; unfold State.payloadBit; rw [hb]

/-- The same write keeps two such states alike. -/
theorem sameReads_withMem {s t : State} (h : s.sameReads t) {m n : Memory} (hm : n = m) :
    (s.withMem m).sameReads (t.withMem n) := ⟨hm, h.2.1, h.2.2⟩

theorem sameReads_rgb2yuv {s t : State} (h : s.sameReads t) : (rgb2yuvEffect s).sameReads (rgb2yuvEffect t) := by
  obtain ⟨-, -, -, hA, -⟩ := operands_congr h.2.2
  have hv : t.yuvOf = s.yuvOf := by
    funext ch k; unfold State.yuvOf; rw [(sameReads_cells h).1]
  refine sameReads_withMem h ?_
  rw [hv, hA, h.1]

theorem sameReads_yuv2rgb {s t : State} (h : s.sameReads t) : (yuv2rgbEffect s).sameReads (yuv2rgbEffect t) := by
  obtain ⟨-, -, -, hA, -⟩ := operands_congr h.2.2
  have hv : t.rgbOf = s.rgbOf := by
    funext c k; unfold State.rgbOf; rw [(sameReads_cells h).2.1]
  refine sameReads_withMem h ?_
  rw [hv, hA, h.1]

theorem sameReads_subsamplePlane {s t : State} (h : s.sameReads t) (ch : Channel) :
    (subsamplePlane ch s).sameReads (subsamplePlane ch t) := by
  obtain ⟨-, -, -, hA, -, -, -, -, -, -, -, -, -, -, -, -, -, -, he⟩ := operands_congr h.2.2
  refine sameReads_withMem h ?_
  simp only [(sameReads_cells h).2.1, hA, he, h.1]

theorem sameReads_foldl {α : Type} {g : State → α → State}
    (hg : ∀ x s t, s.sameReads t → (g s x).sameReads (g t x)) (l : List α) {s t : State} (h : s.sameReads t) :
    (l.foldl g s).sameReads (l.foldl g t) := by
  induction l generalizing s t with
  | nil => exact h
  | cons x l ih => exact ih (hg x s t h)

theorem sameReads_subsamp {s t : State} (h : s.sameReads t) : (subsampEffect s).sameReads (subsampEffect t) := by
  obtain ⟨-, -, -, -, -, -, -, -, -, -, -, -, -, -, hs, -⟩ := operands_congr h.2.2
  unfold subsampEffect
  rw [hs]
  exact sameReads_foldl (fun ch _ _ h => sameReads_subsamplePlane h ch) _ h

theorem sameReads_dwtfwd {s t : State} (h : s.sameReads t) (ch : Channel) :
    (dwtfwdEffect ch s).sameReads (dwtfwdEffect ch t) := by
  obtain ⟨-, -, -, -, -, -, hr, hc, -, -, -, -, -, -, -, hg, -⟩ := operands_congr h.2.2
  have hf : t.forwardWord ch = s.forwardWord ch := by
    funext b k
    unfold State.forwardWord State.forwardCoeff State.sampleInt
    simp only [(sameReads_cells h).2.1, hg, hc]
  have hm : fillSubband ch t = fillSubband ch s := by
    funext m b; unfold fillSubband; rw [hf, hr, hc]
  refine sameReads_withMem h ?_
  rw [hm, h.1]

theorem sameReads_dwtinv {s t : State} (h : s.sameReads t) (ch : Channel) :
    (dwtinvEffect ch s).sameReads (dwtinvEffect ch t) := by
  obtain ⟨-, -, -, -, hrr, hrc, -, -, -, -, -, -, -, -, -, hg, hs, -⟩ := operands_congr h.2.2
  have hi : t.inverseSample = s.inverseSample := by
    funext r c; unfold State.inverseSample; rw [(sameReads_cells h).2.2.1, hs]
  have hm : fillRegionRow ch t = fillRegionRow ch s := by
    funext m r; unfold fillRegionRow; rw [hi, hg, hrc]
  refine sameReads_withMem h ?_
  rw [hm, hrr, h.1]

theorem sameReads_dominantCell {s t : State} (h : s.sameReads t) : t.dominantCell = s.dominantCell := by
  obtain ⟨-, -, hb, -, -, -, -, -, -, -, -, -, -, -, -, -, -, hc, -⟩ := operands_congr h.2.2
  funext i
  unfold State.dominantCell State.dominant State.blockCoeff
  simp only [(sameReads_cells h).2.2.1, hc, hb]

theorem sameReads_embed {s t : State} (h : s.sameReads t) (ch : Channel) :
    (embedEffect ch s).sameReads (embedEffect ch t) := by
  obtain ⟨-, -, -, -, -, -, -, -, -, -, hn, -, hw, hs, -⟩ := operands_congr h.2.2
  have he : t.embeddedWord ch = s.embeddedWord ch := by
    funext i
    unfold State.embeddedWord
    rw [(sameReads_cells h).2.2.1, (sameReads_cells h).2.2.2.2.2, sameReads_dominantCell h, hs, hw]
  have hm : embedBlock ch t = embedBlock ch s := by
    funext m i; unfold embedBlock; rw [he, sameReads_dominantCell h]
  unfold embedEffect
  rw [hs]
  split
  · exact h
  · refine sameReads_withMem h ?_
    rw [hm, hn, h.1]

theorem sameReads_storeWord {s t : State} (h : s.sameReads t) (a : Nat) (w : Word) :
    (s.storeWord a w).sameReads (t.storeWord a w) := by
  refine sameReads_withMem h ?_
  rw [h.1]

theorem sameReads_extractBlock {s t : State} (h : s.sameReads t) (ch : Channel) (i : Nat) :
    (extractBlock ch s i).sameReads (extractBlock ch t i) := by
  obtain ⟨-, -, -, -, -, -, -, -, -, -, -, -, hw, hs, -⟩ := operands_congr h.2.2
  have hv : t.blockVote ch i = s.blockVote ch i := by
    unfold State.blockVote
    rw [(sameReads_cells h).2.2.1, sameReads_dominantCell h, hs]
  unfold extractBlock appendVote
  rw [hv, hw, (sameReads_cells h).2.2.2.1, (sameReads_cells h).2.2.2.2.1]
  exact sameReads_storeWord (sameReads_storeWord h _ _) _ _

theorem sameReads_extract {s t : State} (h : s.sameReads t) (ch : Channel) :
    (extractEffect ch s).sameReads (extractEffect ch t) := by
  obtain ⟨-, -, -, -, -, -, -, -, -, -, hn, -, -, hs, -⟩ := operands_congr h.2.2
  unfold extractEffect
  rw [hs, hn]
  split
  · exact h
  · exact sameReads_foldl (fun i _ _ h => sameReads_extractBlock h ch i) _ h

theorem sameReads_vclear {s t : State} (h : s.sameReads t) : (vclearEffect s).sameReads (vclearEffect t) := by
  refine sameReads_withMem h ?_
  rw [h.1]

theorem sameReads_tally {s t : State} (h : s.sameReads t) :
    (tallyEffect s).sameReads (tallyEffect t) ∧ t.someEmpty = s.someEmpty := by
  obtain ⟨-, -, -, -, -, -, -, -, -, -, -, hn, hw, -⟩ := operands_congr h.2.2
  obtain ⟨-, -, -, ho, ht, -⟩ := sameReads_cells h
  have hp : t.packedByte = s.packedByte := by
    funext j; unfold State.packedByte State.finalBit; rw [ho, ht]
  constructor
  · have hm : t.mem.fill poutBase t.nBytes t.packedByte = s.mem.fill poutBase s.nBytes s.packedByte := by
      rw [hp, hn, h.1]
    exact ⟨hm, h.2.1, h.2.2⟩
  · unfold State.someEmpty
    rw [hw, ht]

theorem sameReads_encode {s t : State} (h : s.sameReads t) : (encodeEffect s).sameReads (encodeEffect t) := by
  refine sameReads_yuv2rgb (sameReads_foldl (fun ch u v hu => ?_) _ (sameReads_subsamp (sameReads_rgb2yuv h)))
  obtain ⟨-, -, -, -, -, -, -, -, -, -, -, -, -, hs, -⟩ := operands_congr hu.2.2
  unfold encodeChannel
  rw [hs]
  split
  · exact sameReads_dwtinv (sameReads_embed (sameReads_dwtfwd hu ch) ch) ch
  · exact hu

theorem sameReads_decodeVotes {s t : State} (h : s.sameReads t) :
    (Channel.all.foldl decodeChannel (vclearEffect (rgb2yuvEffect s))).sameReads
      (Channel.all.foldl decodeChannel (vclearEffect (rgb2yuvEffect t))) := by
  refine sameReads_foldl (fun ch u v hu => ?_) _ (sameReads_vclear (sameReads_rgb2yuv h))
  obtain ⟨-, -, -, -, -, -, -, -, -, -, -, -, -, hs, -⟩ := operands_congr hu.2.2
  unfold decodeChannel
  rw [hs]
  split
  · exact sameReads_extract (sameReads_dwtfwd hu ch) ch
  · exact hu

/-- An effect gives the same buffers from two states with the same buffers and configuration (30_encoding.md R97). -/
theorem sameReads_effectOf (i : Instr) {s t : State} (h : s.sameReads t) : (effectOf i s).sameReads (effectOf i t) := by
  have hch : ∀ {g : Channel → State → State}, (∀ ch, (g ch s).sameReads (g ch t)) → ∀ o : Option Channel,
      (o.elim s (fun ch => g ch s)).sameReads (o.elim t (fun ch => g ch t)) := by
    intro g hg o
    cases o with
    | none => exact h
    | some ch => exact hg ch
  cases i with
  | nop => exact h
  | rgb2yuv => exact sameReads_rgb2yuv h
  | yuv2rgb => exact sameReads_yuv2rgb h
  | subsamp => exact sameReads_subsamp h
  | dwtfwd f => exact hch (sameReads_dwtfwd h) _
  | dwtinv f => exact hch (sameReads_dwtinv h) _
  | embed f => exact hch (sameReads_embed h) _
  | extract f => exact hch (sameReads_extract h) _
  | vclear => exact sameReads_vclear h
  | tally => exact (sameReads_tally h).1
  | encode => exact sameReads_encode h
  | decode => exact (sameReads_tally (sameReads_decodeVotes h)).1

end Sys2Proof.Machine
end

