-- ==== Sys2Proof/Laws/Geometry.lean ====
section
/-!
SUPPORT. The geometry of a legal configuration (00_scope.md R13; 20_memory.md R74): what the checks give, and where the
cells of grids, subbands and blocks lie.
-/

namespace Sys2Proof.Machine

/-- Test 3 of 60_exceptions.md R227. -/
theorem badBlock_iff (s : State) : s.badBlock = true ↔ s.blk % 2 = 1 ∨ s.blk < 2 ∨ 64 < s.blk := by
  unfold State.badBlock
  simp only [Bool.or_eq_true, beq_iff_eq, decide_eq_true_eq, or_assoc]

/-- All that passed checks say (60_exceptions.md R227). -/
theorem check_none {i : Instr} {s : State} (h : check i s = none) :
    i.wellFormed = true ∧
      ((uses i).grid = true → 65536 ≤ s.area ∧ s.area ≤ 16777216) ∧
      ((uses i).bsize = true → s.blk % 2 = 0 ∧ 2 ≤ s.blk ∧ s.blk ≤ 64) ∧
      (∀ ch ∈ (uses i).scales, s.scale ch ≤ 32767) ∧
      ((uses i).wmbytes = true → 1 ≤ s.nBytes ∧ s.nBytes ≤ 256) ∧
      ((uses i).submode = true → s.submode.toNat ≤ 2) := by
  unfold check at h
  split at h
  · cases h
  split at h
  · cases h
  split at h
  · cases h
  split at h
  · cases h
  split at h
  · cases h
  split at h
  · cases h
  split at h
  · cases h
  split at h
  · cases h
  rename_i h1 h2 h3 h4 h5 h6 h7 h8
  simp only [Config.minArea, Config.maxArea, Config.pmax] at h2 h3 h6
  refine ⟨by simpa using h1, fun hu => ?_, fun hu => ?_, fun ch hc => ?_, fun hu => ?_, fun hu => ?_⟩
  · simp only [hu, true_and] at h2 h3; omega
  · simp only [hu, true_and, badBlock_iff] at h4
    omega
  · simp only [List.any_eq_true, decide_eq_true_eq, not_exists, not_and] at h5
    have := h5 ch hc
    simp only [Config.scaleMax] at this
    omega
  · simp only [hu, true_and] at h6; omega
  · simp only [hu, true_and] at h7 h8; omega

/-- A cell of a grid of `n` columns, by row and column. -/
theorem cell_divMod {r c n : Nat} (hc : c < n) : (r * n + c) / n = r ∧ (r * n + c) % n = c := by
  constructor
  · rw [Nat.mul_comm, Nat.mul_add_div (by omega), Nat.div_eq_of_lt hc, Nat.add_zero]
  · rw [Nat.mul_comm, Nat.mul_add_mod, Nat.mod_eq_of_lt hc]

theorem cell_lt {r c m n : Nat} (hr : r < m) (hc : c < n) : r * n + c < m * n := by
  calc r * n + c < r * n + n := by omega
    _ = (r + 1) * n := by ring
    _ ≤ m * n := Nat.mul_le_mul_right n hr

theorem cell_inj {r c r' c' n : Nat} (hc : c < n) (hc' : c' < n) (h : r * n + c = r' * n + c') : r = r' ∧ c = c' := by
  have h1 := cell_divMod (r := r) hc
  have h2 := cell_divMod (r := r') hc'
  rw [h] at h1
  exact ⟨h1.1.symm.trans h2.1, h1.2.symm.trans h2.2⟩

/-- A linear cell of a grid lies in its row and column. -/
theorem cell_split {k m n : Nat} (h : k < m * n) : k / n < m ∧ k % n < n ∧ k / n * n + k % n = k := by
  have hn : 0 < n := by
    rcases Nat.eq_zero_or_pos n with h0 | h0
    · simp [h0] at h
    · exact h0
  exact ⟨(Nat.div_lt_iff_lt_mul hn).mpr h, Nat.mod_lt _ hn, Nat.div_add_mod' k n⟩

theorem gridCell_lt (s : State) {r c : Nat} (hr : r < s.nRows) (hc : c < s.nCols) : s.gridCell r c < s.area :=
  cell_lt hr hc

theorem gridCell_inj (s : State) {r c r' c' : Nat} (hc : c < s.nCols) (hc' : c' < s.nCols)
    (h : s.gridCell r c = s.gridCell r' c') : r = r' ∧ c = c' := cell_inj hc hc' h

theorem subCell_lt (s : State) {i j : Nat} (hi : i < s.subRows) (hj : j < s.subCols) :
    s.subCell i j < s.subRows * s.subCols := cell_lt hi hj

theorem regionRows_le (s : State) : s.regionRows ≤ s.nRows := Nat.sub_le _ _

theorem regionCols_le (s : State) : s.regionCols ≤ s.nCols := Nat.sub_le _ _

theorem even_sub_mod {n b : Nat} (hb : b % 2 = 0) : (n - n % b) % 2 = 0 := by
  have h := Nat.div_add_mod n b
  have : n - n % b = b * (n / b) := by omega
  rw [this, Nat.mul_mod, hb]
  simp

/-- With an even block size the region is an exact double of the subband (R13). -/
theorem region_even (s : State) (hb : s.blk % 2 = 0) :
    s.regionRows = 2 * s.subRows ∧ s.regionCols = 2 * s.subCols := by
  have h1 : s.regionRows % 2 = 0 := even_sub_mod hb
  have h2 : s.regionCols % 2 = 0 := even_sub_mod hb
  unfold State.subRows State.subCols
  omega

/-- Four subband cells take no more than the grid (20_memory.md R68). -/
theorem sub_area_le (s : State) : 4 * (s.subRows * s.subCols) ≤ s.area := by
  have h1 : 2 * s.subRows ≤ s.nRows := Nat.le_trans (Nat.mul_div_le _ _) (regionRows_le s)
  have h2 : 2 * s.subCols ≤ s.nCols := Nat.le_trans (Nat.mul_div_le _ _) (regionCols_le s)
  calc 4 * (s.subRows * s.subCols) = (2 * s.subRows) * (2 * s.subCols) := by ring
    _ ≤ s.nRows * s.nCols := Nat.mul_le_mul h1 h2

/-- The row and column in the subband of a position of a block (43_embed.md R161). -/
theorem block_rowCol (s : State) {i p : Nat} (hi : i < s.nBlocks) (hp : p < s.blk * s.blk) :
    i / s.blockCols * s.blk + p / s.blk < s.subRows ∧ i % s.blockCols * s.blk + p % s.blk < s.subCols ∧
      i / s.blockCols < s.blockRows ∧ i % s.blockCols < s.blockCols ∧ p / s.blk < s.blk ∧ p % s.blk < s.blk := by
  obtain ⟨h1, h2, -⟩ := cell_split hi
  obtain ⟨h3, h4, -⟩ := cell_split hp
  refine ⟨?_, ?_, h1, h2, h3, h4⟩
  · exact Nat.lt_of_lt_of_le (cell_lt h1 h3) (Nat.div_mul_le_self _ _)
  · exact Nat.lt_of_lt_of_le (cell_lt h2 h4) (Nat.div_mul_le_self _ _)

theorem blockCell_lt (s : State) {i p : Nat} (hi : i < s.nBlocks) (hp : p < s.blk * s.blk) :
    s.blockCell i p < s.subRows * s.subCols := by
  obtain ⟨h1, h2, -⟩ := block_rowCol s hi hp
  exact cell_lt h1 h2

/-- Blocks are disjoint and positions of a block are distinct cells (43_embed.md R164). -/
theorem blockCell_inj (s : State) {i p i' p' : Nat} (hi : i < s.nBlocks) (hi' : i' < s.nBlocks)
    (hp : p < s.blk * s.blk) (hp' : p' < s.blk * s.blk) (h : s.blockCell i p = s.blockCell i' p') :
    i = i' ∧ p = p' := by
  obtain ⟨-, h2, -, h4, h5, h6⟩ := block_rowCol s hi hp
  obtain ⟨-, h2', -, h4', h5', h6'⟩ := block_rowCol s hi' hp'
  obtain ⟨hr, hc⟩ := cell_inj h2 h2' h
  obtain ⟨a1, a2⟩ := cell_inj h5 h5' hr
  obtain ⟨b1, b2⟩ := cell_inj h6 h6' hc
  constructor
  · rw [← (cell_split hi).2.2, ← (cell_split hi').2.2, a1, b1]
  · rw [← (cell_split hp).2.2, ← (cell_split hp').2.2, a2, b2]

/-- The even cell of a cell of the plane lies in the plane, in the row and column rounded down (41_subsample.md R131). -/
theorem evenCell_eq (s : State) {r c : Nat} (hc : c < s.nCols) :
    s.evenCell (s.gridCell r c) = s.gridCell (r - r % 2) (c - c % 2) := by
  obtain ⟨h1, h2⟩ := cell_divMod (r := r) hc
  unfold State.evenCell
  rw [show s.gridCell r c / s.nCols = r from h1, show s.gridCell r c % s.nCols = c from h2]

theorem evenCell_lt (s : State) {k : Nat} (hk : k < s.area) : s.evenCell k < s.area := by
  obtain ⟨h1, h2, -⟩ := cell_split hk
  exact gridCell_lt s (Nat.lt_of_le_of_lt (Nat.sub_le _ _) h1) (Nat.lt_of_le_of_lt (Nat.sub_le _ _) h2)

end Sys2Proof.Machine
end

