-- ==== Sys2Proof/Laws/Effects.lean ====
section
/-!
SUPPORT. What the effect of each command leaves in the buffers: the cells it writes, and the bytes it leaves alone.
-/

namespace Sys2Proof.Machine

/-! ### Cells of the windows -/

theorem planeBase_eq (ch : Channel) : planeBase ch = 0x08000000 + ch.index * 0x01000000 := rfl

theorem subbandBase_eq (b : Subband) : subbandBase b = 0x0C000000 + b.index * 0x01000000 := rfl

theorem Channel.index_lt (ch : Channel) : ch.index < 3 := by cases ch <;> decide

theorem Channel.index_inj {ch ch' : Channel} (h : ch.index = ch'.index) : ch = ch' := by
  revert h; cases ch <;> cases ch' <;> decide

theorem Subband.index_lt (b : Subband) : b.index < 4 := by cases b <;> decide

theorem Subband.index_inj {b b' : Subband} (h : b.index = b'.index) : b = b' := by
  revert h; cases b <;> cases b' <;> decide

/-- A byte equal at every address of a word makes the word equal. -/
theorem word_congr_at {s t : State} {a : Nat} (h : ∀ k, k < 4 → t.byte (a + k) = s.byte (a + k)) :
    t.word a = s.word a := by
  have h0 := h 0 (by omega)
  rw [Nat.add_zero] at h0
  unfold State.word
  rw [h0, h 1 (by omega), h 2 (by omega), h 3 (by omega)]

theorem coeff_congr_at {s t : State} {b : Subband} {k : Nat}
    (h : ∀ j, j < 4 → t.byte (subbandAddr b k + j) = s.byte (subbandAddr b k + j)) : t.coeff b k = s.coeff b k := by
  unfold State.coeff State.signedWord
  rw [word_congr_at h]

/-- The bytes of a word whose four bytes all have cells. -/
theorem word_of_bytes {s : State} {a : Nat} {w : Word} (h : ∀ k, k < 4 → s.byte (a + k) = byteOf w k) :
    s.word a = w := by
  have h0 := h 0 (by omega)
  rw [Nat.add_zero] at h0
  unfold State.word
  rw [h0, h 1 (by omega), h 2 (by omega), h 3 (by omega), wordOf_byteOf]

/-! ### RGB2YUV and YUV2RGB -/

/-- `RGB2YUV` writes the planes over the grid (40_colour.md R112). -/
theorem rgb2yuv_sample (s : State) (hA : s.area ≤ 16777216) (ch : Channel) {k : Nat} (hk : k < s.area) :
    (rgb2yuvEffect s).sample ch k = s.yuvOf ch k := by
  have hs := stored_plane ch (k := k) (by omega)
  have hb : planeBase .y = 134217728 ∧ planeBase .u = 150994944 ∧ planeBase .v = 167772160 := by decide
  unfold State.sample sampleAddr rgb2yuvEffect
  cases ch
  · rw [byte_fill_of_lt _ _ _ (by omega), byte_fill_of_lt _ _ _ (by omega), byte_fill, if_pos ⟨by omega, by omega, hs⟩,
      Nat.add_sub_cancel_left]
  · rw [byte_fill_of_lt _ _ _ (by omega), byte_fill, if_pos ⟨by omega, by omega, hs⟩, Nat.add_sub_cancel_left]
  · rw [byte_fill, if_pos ⟨by omega, by omega, hs⟩, Nat.add_sub_cancel_left]

/-- `RGB2YUV` leaves every byte outside the planes over the grid. -/
theorem rgb2yuv_byte (s : State) {a : Nat} (h : ∀ ch, ¬ s.planeBytes ch a) : (rgb2yuvEffect s).byte a = s.byte a := by
  have h0 := h .y
  have h1 := h .u
  have h2 := h .v
  unfold State.planeBytes within at h0 h1 h2
  unfold rgb2yuvEffect
  rw [byte_fill_of_lt _ _ _ (by omega), byte_fill_of_lt _ _ _ (by omega), byte_fill_of_lt _ _ _ (by omega),
    withMem_self]

theorem byteOf_pixelWord (r g b : Byte) :
    byteOf (pixelWord r g b) 0 = r ∧ byteOf (pixelWord r g b) 1 = g ∧ byteOf (pixelWord r g b) 2 = b ∧
      byteOf (pixelWord r g b) 3 = 0x00#8 := byteOf_wordOf r g b 0x00#8

/-- `YUV2RGB` writes the grid (R115). -/
theorem yuv2rgb_pixel (s : State) (hA : s.area ≤ 16777216) {k c : Nat} (hk : k < s.area) (hc : c < 3) :
    (yuv2rgbEffect s).pixel k c = s.rgbOf c k := by
  have hs : stored (pixelAddr k c) = true := by
    unfold pixelAddr
    rw [Nat.add_assoc, stored_rgb (by omega)]
    simp only [bne_iff_ne]
    omega
  unfold State.pixel yuv2rgbEffect
  rw [byte_fillWords, if_pos ⟨by unfold pixelAddr; omega, by unfold pixelAddr; omega, hs⟩]
  have h1 : (pixelAddr k c - rgbBase) / 4 = k := by unfold pixelAddr; omega
  have h2 : (pixelAddr k c - rgbBase) % 4 = c := by unfold pixelAddr; omega
  rw [h1, h2]
  obtain ⟨e0, e1, e2, -⟩ := byteOf_pixelWord (s.rgbOf 0 k) (s.rgbOf 1 k) (s.rgbOf 2 k)
  rcases (by omega : c = 0 ∨ c = 1 ∨ c = 2) with rfl | rfl | rfl
  · exact e0
  · exact e1
  · exact e2

/-- `YUV2RGB` leaves every byte outside the grid, and the fourth byte of a pixel word. -/
theorem yuv2rgb_byte (s : State) {a : Nat} (h : ¬ s.gridBytes a ∨ stored a = false) :
    (yuv2rgbEffect s).byte a = s.byte a := by
  unfold State.gridBytes within at h
  unfold yuv2rgbEffect
  rw [byte_fillWords, if_neg, withMem_self]
  rcases h with h | h
  · omega
  · simp [h]

/-! ### SUBSAMP -/

theorem subsamplePlane_byte (s : State) (ch : Channel) {a : Nat} (h : ¬ s.planeBytes ch a) :
    (subsamplePlane ch s).byte a = s.byte a := by
  unfold State.planeBytes within at h
  unfold subsamplePlane
  rw [byte_fill_of_lt _ _ _ (by omega), withMem_self]

theorem subsamplePlane_sample (s : State) (hA : s.area ≤ 16777216) (ch : Channel) {k : Nat} (hk : k < s.area) :
    (subsamplePlane ch s).sample ch k = s.sample ch (s.evenCell k) := by
  have hs := stored_plane ch (k := k) (by omega)
  unfold subsamplePlane
  rw [State.sample, byte_fill, if_pos ⟨by unfold sampleAddr; omega, by unfold sampleAddr; omega, hs⟩]
  unfold sampleAddr
  rw [Nat.add_sub_cancel_left]

theorem planeBytes_disjoint (s : State) (hA : s.area ≤ 16777216) {ch ch' : Channel} {k : Nat} (hk : k < s.area)
    (h : ch ≠ ch') : ¬ s.planeBytes ch' (sampleAddr ch k) := by
  have hi : ch.index ≠ ch'.index := fun he => h (Channel.index_inj he)
  have := ch.index_lt
  have := ch'.index_lt
  unfold State.planeBytes within sampleAddr
  rw [planeBase_eq, planeBase_eq]
  omega

theorem subsample_other (s : State) (hA : s.area ≤ 16777216) {ch ch' : Channel} (h : ch ≠ ch') {k : Nat}
    (hk : k < s.area) : (subsamplePlane ch' s).sample ch k = s.sample ch k :=
  subsamplePlane_byte s ch' (planeBytes_disjoint s hA hk h)

theorem planeBytes_withMem (s : State) (m : Memory) (ch : Channel) (a : Nat) :
    (s.withMem m).planeBytes ch a ↔ s.planeBytes ch a := Iff.rfl

/-- `SUBSAMP` gives every cell of a selected plane the value of its even cell before (41_subsample.md R132). -/
theorem subsamp_sample (s : State) (hA : s.area ≤ 16777216) {ch : Channel} (hc : ch ∈ s.selected) {k : Nat}
    (hk : k < s.area) : (subsampEffect s).sample ch k = s.sample ch (s.evenCell k) := by
  have he := evenCell_lt s hk
  unfold subsampEffect
  unfold State.selected at hc ⊢
  split
  · rename_i hm; rw [hm] at hc
    simp only [List.mem_singleton] at hc; subst hc
    exact subsamplePlane_sample s hA .u hk
  · rename_i hm; rw [hm] at hc
    simp only [List.mem_singleton] at hc; subst hc
    exact subsamplePlane_sample s hA .v hk
  · rename_i hm; rw [hm] at hc
    simp only [List.mem_cons, List.not_mem_nil, or_false] at hc
    show (subsamplePlane .v (subsamplePlane .u s)).sample ch k = _
    rcases hc with rfl | rfl
    · rw [subsample_other (subsamplePlane .u s) hA (by decide) hk]
      exact subsamplePlane_sample s hA .u hk
    · rw [subsamplePlane_sample (subsamplePlane .u s) hA .v hk]
      exact subsample_other s hA (by decide) he
  · rename_i h1 h2 h3
    split at hc
    · exact absurd (by assumption) h1
    · exact absurd (by assumption) h2
    · exact absurd (by assumption) h3
    · simp at hc

/-- `SUBSAMP` leaves every byte outside the selected planes over the grid. -/
theorem subsamp_byte (s : State) {a : Nat} (h : ∀ ch ∈ s.selected, ¬ s.planeBytes ch a) :
    (subsampEffect s).byte a = s.byte a := by
  unfold subsampEffect
  have hl : ∀ (l : List Channel) (t : State), t.area = s.area → (∀ ch ∈ l, ¬ s.planeBytes ch a) →
      (l.foldl (fun t ch => subsamplePlane ch t) t).byte a = t.byte a := by
    intro l
    induction l with
    | nil => intro t _ _; rfl
    | cons ch l ih =>
      intro t ht hn
      rw [List.foldl_cons, ih (subsamplePlane ch t) ht (fun c hc => hn c (List.mem_cons_of_mem _ hc))]
      refine subsamplePlane_byte t ch ?_
      have := hn ch (by simp)
      unfold State.planeBytes at this ⊢
      rwa [ht]
  exact hl _ s rfl h

/-! ### DWTFWD and DWTINV -/

/-- `DWTFWD` writes the four subbands (42_wavelet.md R143). -/
theorem dwtfwd_word (s : State) (ch : Channel) (b : Subband) (hA : 4 * (s.subRows * s.subCols) ≤ 16777216) {k : Nat}
    (hk : k < s.subRows * s.subCols) : (dwtfwdEffect ch s).word (subbandAddr b k) = s.forwardWord ch b k := by
  have hs : ∀ j, j < 4 → stored (subbandBase b + 4 * k + j) = true := fun j hj => by
    rw [Nat.add_assoc]; exact stored_subband b (by omega)
  unfold dwtfwdEffect subbandAddr fillSubband
  have hw : ∀ (m : Memory) (b' : Subband), b ≠ b' →
      (s.withMem (m.fillWords (subbandBase b') (s.subRows * s.subCols) (s.forwardWord ch b'))).word
        (subbandBase b + 4 * k) = (s.withMem m).word (subbandBase b + 4 * k) := by
    intro m b' hb
    have hi : b.index ≠ b'.index := fun he => hb (Subband.index_inj he)
    refine word_fill_of_lt s m _ ?_
    rw [subbandBase_eq, subbandBase_eq]
    omega
  cases b
  · rw [hw _ .sd (by decide), hw _ .sv (by decide), hw _ .sh (by decide)]
    exact word_fillWords s _ _ _ _ hk hs
  · rw [hw _ .sd (by decide), hw _ .sv (by decide)]
    exact word_fillWords s _ _ _ _ hk hs
  · rw [hw _ .sd (by decide)]
    exact word_fillWords s _ _ _ _ hk hs
  · exact word_fillWords s _ _ _ _ hk hs

/-- `DWTFWD` leaves every byte outside the subbands of the geometry. -/
theorem dwtfwd_byte (s : State) (ch : Channel) {a : Nat} (h : ¬ s.subbandBytes a) :
    (dwtfwdEffect ch s).byte a = s.byte a := by
  have hb : ∀ b, ¬ within (subbandBase b) (4 * (s.subRows * s.subCols)) a := fun b hb => h ⟨b, hb⟩
  have hw : ∀ (m : Memory) (b : Subband), (s.withMem (fillSubband ch s m b)).byte a = (s.withMem m).byte a := by
    intro m b
    have := hb b
    unfold within at this
    exact byte_fill_of_lt s m _ (by omega)
  unfold dwtfwdEffect
  rw [hw, hw, hw, hw, withMem_self]

/-- The forward coefficients of 8-bit samples fit their cells (42_wavelet.md R142; 00_scope.md R14). -/
theorem forwardWord_toInt (s : State) (ch : Channel) (b : Subband) (k : Nat) :
    (s.forwardWord ch b k).toInt = s.forwardCoeff ch b (k / s.subCols) (k % s.subCols) := by
  refine wrap32_toInt ?_ ?_ <;>
  · have h : ∀ r c, 0 ≤ s.sampleInt ch r c ∧ s.sampleInt ch r c ≤ 255 := fun r c => by
      unfold State.sampleInt
      have := (s.sample ch (s.gridCell r c)).isLt
      omega
    have h0 := h (2 * (k / s.subCols)) (2 * (k % s.subCols))
    have h1 := h (2 * (k / s.subCols)) (2 * (k % s.subCols) + 1)
    have h2 := h (2 * (k / s.subCols) + 1) (2 * (k % s.subCols))
    have h3 := h (2 * (k / s.subCols) + 1) (2 * (k % s.subCols) + 1)
    unfold State.forwardCoeff haarCoeff haarGain
    simp only [Config.haarDiv]
    cases b <;> simp only <;> omega

/-- `DWTFWD` as coefficients. -/
theorem dwtfwd_coeff (s : State) (ch : Channel) (b : Subband) (hA : 4 * (s.subRows * s.subCols) ≤ 16777216) {i j : Nat}
    (hi : i < s.subRows) (hj : j < s.subCols) :
    (dwtfwdEffect ch s).coeff b (s.subCell i j) = s.forwardCoeff ch b i j := by
  unfold State.coeff State.signedWord
  rw [dwtfwd_word s ch b hA (subCell_lt s hi hj), forwardWord_toInt]
  obtain ⟨h1, h2⟩ := cell_divMod (r := i) hj
  rw [show s.subCell i j / s.subCols = i from h1, show s.subCell i j % s.subCols = j from h2]

/-- `DWTINV` writes the region (42_wavelet.md R146). -/
theorem dwtinv_sample (s : State) (ch : Channel) (hA : s.area ≤ 16777216) {r c : Nat} (hr : r < s.regionRows)
    (hc : c < s.regionCols) : (dwtinvEffect ch s).sample ch (s.gridCell r c) = s.inverseSample r c := by
  have hc' : c < s.nCols := Nat.lt_of_lt_of_le hc (regionCols_le s)
  have hr' : r < s.nRows := Nat.lt_of_lt_of_le hr (regionRows_le s)
  have hlt := gridCell_lt s hr' hc'
  have key := byte_foldl_fill_hit s (fun r => sampleAddr ch (s.gridCell r 0)) (fun _ => s.regionCols)
    (fun r => s.inverseSample r) (List.range s.regionRows) s.mem (a := sampleAddr ch (s.gridCell r c)) (x := r)
    (List.mem_range.mpr hr) List.nodup_range
    (by simp only [sampleAddr, State.gridCell]; omega)
    (stored_plane ch (by omega))
    (by
      intro y hy hne
      have hle := regionCols_le s
      simp only [sampleAddr, State.gridCell]
      rcases Nat.lt_or_ge y r with h | h
      · right
        have : (y + 1) * s.nCols ≤ r * s.nCols := Nat.mul_le_mul_right _ h
        rw [Nat.add_mul, Nat.one_mul] at this
        omega
      · left
        have : (r + 1) * s.nCols ≤ y * s.nCols := Nat.mul_le_mul_right _ (by omega)
        rw [Nat.add_mul, Nat.one_mul] at this
        omega)
  have hsub : sampleAddr ch (s.gridCell r c) - sampleAddr ch (s.gridCell r 0) = c := by
    simp only [sampleAddr, State.gridCell]; omega
  rw [hsub] at key
  exact key

/-- `DWTINV` leaves every byte outside the region of its plane. -/
theorem dwtinv_byte (s : State) (ch : Channel) {a : Nat} (h : ¬ s.regionBytes ch a) :
    (dwtinvEffect ch s).byte a = s.byte a := by
  have key := byte_foldl_fill s (fun r => sampleAddr ch (s.gridCell r 0)) (fun _ => s.regionCols)
    (fun r => s.inverseSample r) (List.range s.regionRows) s.mem (a := a)
    (by
      intro r hr
      by_contra hn
      refine h ⟨r, a - sampleAddr ch (s.gridCell r 0), List.mem_range.mp hr, ?_, ?_⟩
      · omega
      · simp only [sampleAddr, State.gridCell] at hn ⊢; omega)
  rw [withMem_self] at key
  exact key

/-! ### EMBED -/

/-- The dominant position is a position of its block other than 0 (43_embed.md R162). -/
theorem dominant_lt (s : State) (hb : 2 ≤ s.blk) (i : Nat) : 1 ≤ s.dominant i ∧ s.dominant i < s.blk * s.blk := by
  obtain ⟨h1, h2, -⟩ := argMax_spec (fun p => (s.blockCoeff i p).natAbs) (s.blk * s.blk - 2)
  have : 2 * 2 ≤ s.blk * s.blk := Nat.mul_le_mul hb hb
  unfold State.dominant
  omega

theorem dominantCell_lt (s : State) (hb : 2 ≤ s.blk) {i : Nat} (hi : i < s.nBlocks) :
    s.dominantCell i < s.subRows * s.subCols := blockCell_lt s hi (dominant_lt s hb i).2

theorem dominantCell_inj (s : State) (hb : 2 ≤ s.blk) {i j : Nat} (hi : i < s.nBlocks) (hj : j < s.nBlocks)
    (h : s.dominantCell i = s.dominantCell j) : i = j :=
  (blockCell_inj s hi hj (dominant_lt s hb i).2 (dominant_lt s hb j).2 h).1

/-- `EMBED` writes the dominant cell of every block, from the state before the command (R164). -/
theorem embed_word (s : State) (ch : Channel) (hb : 2 ≤ s.blk) (hA : 4 * (s.subRows * s.subCols) ≤ 16777216)
    (hs : 0 < s.scale ch) {i : Nat} (hi : i < s.nBlocks) :
    (embedEffect ch s).word (subbandAddr .sa (s.dominantCell i)) = s.embeddedWord ch i := by
  have hlt := dominantCell_lt s hb hi
  unfold embedEffect
  rw [if_neg (by omega)]
  refine word_of_bytes fun k hk => ?_
  have key := byte_foldl_fill_hit s (fun i => subbandAddr .sa (s.dominantCell i)) (fun _ => 4 * 1)
    (fun i k => byteOf (s.embeddedWord ch i) (k % 4)) (List.range s.nBlocks) s.mem
    (a := subbandAddr .sa (s.dominantCell i) + k) (x := i) (List.mem_range.mpr hi) List.nodup_range (by omega)
    (by unfold subbandAddr; rw [Nat.add_assoc]; exact stored_subband .sa (by omega))
    (by
      intro j hj hne
      have hd : s.dominantCell j ≠ s.dominantCell i :=
        fun he => hne (dominantCell_inj s hb (List.mem_range.mp hj) hi he)
      simp only [subbandAddr]
      omega)
  have h1 : subbandAddr .sa (s.dominantCell i) + k - subbandAddr .sa (s.dominantCell i) = k := by omega
  rw [h1, Nat.mod_eq_of_lt hk] at key
  exact key

/-- `EMBED` leaves every byte outside the dominant cells. -/
theorem embed_byte (s : State) (ch : Channel) {a : Nat} (h : s.scale ch ≤ 0 ∨ ¬ s.dominantBytes a) :
    (embedEffect ch s).byte a = s.byte a := by
  unfold embedEffect
  split
  · rfl
  · rename_i hs
    have hd : ¬ s.dominantBytes a := h.resolve_left hs
    have key := byte_foldl_fill s (fun i => subbandAddr .sa (s.dominantCell i)) (fun _ => 4 * 1)
      (fun i k => byteOf (s.embeddedWord ch i) (k % 4)) (List.range s.nBlocks) s.mem (a := a)
      (by
        intro i hi
        by_contra hn
        exact hd ⟨i, List.mem_range.mp hi, by unfold within; omega⟩)
    rw [withMem_self] at key
    exact key

/-! ### EXTRACT, VCLEAR and TALLY -/

theorem stored_counter {a : Nat} (h : 0x4000 ≤ a) (h' : a < 0x8000) : stored a = true := by
  rcases Nat.lt_or_ge a 0x6000 with hl | hl
  · have := stored_ones (k := a - onesBase) (by unfold onesBase; omega)
    rwa [show onesBase + (a - onesBase) = a by unfold onesBase; omega] at this
  · have := stored_total (k := a - totalBase) (by unfold totalBase; omega)
    rwa [show totalBase + (a - totalBase) = a by unfold totalBase; omega] at this

/-- One vote adds to the two counters of its position (44_extract_vote.md R175). -/
theorem appendVote_counters (s : State) {p q : Nat} (hp : p < 2048) (hq : q < 2048) (b : Bool) :
    (appendVote p b s).ones q = (if q = p then s.ones p + BitVec.ofNat 32 b.toNat else s.ones q) ∧
      (appendVote p b s).total q = (if q = p then s.total p + 1#32 else s.total q) := by
  have h1 : ∀ k, k < 4 → stored (onesAddr p + k) = true := fun k hk =>
    stored_counter (by unfold onesAddr onesBase; omega) (by unfold onesAddr onesBase; omega)
  have h2 : ∀ k, k < 4 → stored (totalAddr p + k) = true := fun k hk =>
    stored_counter (by unfold totalAddr totalBase; omega) (by unfold totalAddr totalBase; omega)
  unfold appendVote
  constructor
  · rw [State.ones, storeWord_word_of_lt _ _ (by unfold onesAddr totalAddr onesBase totalBase; omega)]
    split
    · rename_i h; subst h; exact storeWord_word _ _ h1
    · exact storeWord_word_of_lt _ _ (by unfold onesAddr; omega)
  · unfold State.total
    split
    · rename_i h; subst h; exact storeWord_word _ _ h2
    · rw [storeWord_word_of_lt _ _ (by unfold totalAddr; omega)]
      exact storeWord_word_of_lt _ _ (by unfold onesAddr totalAddr onesBase totalBase; omega)

/-- One vote changes no byte but those of its two counters. -/
theorem appendVote_byte (s : State) (p : Nat) (b : Bool) {a : Nat} (h1 : ¬ within (onesAddr p) 4 a)
    (h2 : ¬ within (totalAddr p) 4 a) : (appendVote p b s).byte a = s.byte a := by
  unfold within at h1 h2
  unfold appendVote
  rw [storeWord_byte, if_neg (by omega), storeWord_byte, if_neg (by omega)]

/-- The dominant search and the vote depend on the configuration and the block's cells only. -/
theorem dominant_congr {s t : State} (hc : s.sameConfig t) (hb : 2 ≤ s.blk) {i : Nat}
    (h : ∀ p, p < s.blk * s.blk → t.blockCoeff i p = s.blockCoeff i p) :
    t.dominant i = s.dominant i ∧ t.dominantCell i = s.dominantCell i ∧
      t.coeff .sa (t.dominantCell i) = s.coeff .sa (s.dominantCell i) := by
  obtain ⟨-, -, hblk, -, -, -, -, -, -, -, -, -, -, -, -, -, -, hcell, -⟩ := operands_congr hc
  have hd : t.dominant i = s.dominant i := by
    unfold State.dominant
    rw [hblk]
    refine argMax_congr fun q h1 h2 => ?_
    have : 2 * 2 ≤ s.blk * s.blk := Nat.mul_le_mul hb hb
    rw [h q (by omega)]
  have hdc : t.dominantCell i = s.dominantCell i := by
    unfold State.dominantCell
    rw [hd, hcell]
  refine ⟨hd, hdc, ?_⟩
  have := h (s.dominant i) (dominant_lt s hb i).2
  unfold State.blockCoeff at this
  rw [hcell] at this
  unfold State.dominantCell
  rw [hd, hcell]
  exact this

/-- A vote leaves the cells of `SA`, so every later vote is as before it. -/
theorem appendVote_blockVote (s : State) {p : Nat} (hp : p < 2048) (b : Bool) (ch : Channel) (i : Nat) :
    (appendVote p b s).blockVote ch i = s.blockVote ch i := by
  have hcoeff : ∀ k, (appendVote p b s).coeff .sa k = s.coeff .sa k := by
    intro k
    refine coeff_congr_at fun j hj => appendVote_byte s p b ?_ ?_
    · unfold within subbandAddr subbandBase onesAddr onesBase; omega
    · unfold within subbandAddr subbandBase totalAddr totalBase; omega
  have hd : (appendVote p b s).dominantCell i = s.dominantCell i := by
    unfold State.dominantCell State.dominant State.blockCoeff
    simp only [hcoeff]
    rfl
  unfold State.blockVote
  rw [hd, hcoeff]
  rfl

/-- The loop of `EXTRACT`: for a position in use, `ONES` grows by the ones voted and `TOTAL` by the votes (R178). -/
theorem extract_fold (ch : Channel) (l : List Nat) (s : State) (h1 : 1 ≤ s.wmLen) (h2 : s.wmLen ≤ 2048) {k : Nat}
    (hk : k < s.wmLen) :
    (l.foldl (extractBlock ch) s).ones k =
        s.ones k + BitVec.ofNat 32 ((l.filter (fun i => i % s.wmLen = k)).countP (s.blockVote ch)) ∧
      (l.foldl (extractBlock ch) s).total k = s.total k + BitVec.ofNat 32 (l.filter (fun i => i % s.wmLen = k)).length := by
  induction l generalizing s with
  | nil => simp
  | cons i l ih =>
    have hp : i % s.wmLen < 2048 := Nat.lt_of_lt_of_le (Nat.mod_lt _ h1) h2
    obtain ⟨i1, i2⟩ := ih (extractBlock ch s i) h1 h2 hk
    obtain ⟨c1, c2⟩ := appendVote_counters s hp (by omega : k < 2048) (s.blockVote ch i)
    rw [List.foldl_cons, i1, i2]
    have hv : (extractBlock ch s i).blockVote ch = s.blockVote ch :=
      funext fun j => appendVote_blockVote s hp _ ch j
    have hw : (extractBlock ch s i).wmLen = s.wmLen := rfl
    rw [hv, hw]
    unfold extractBlock
    rw [c1, c2]
    by_cases he : i % s.wmLen = k
    · subst he
      simp only [if_true, List.filter_cons, decide_true, List.countP_cons, List.length_cons]
      cases s.blockVote ch i
      · simp only [Bool.toNat_false, Bool.false_eq_true, if_false, BitVec.ofNat_add, Nat.add_zero]
        exact ⟨by simp, by ac_rfl⟩
      · simp only [Bool.toNat_true, if_true, BitVec.ofNat_add]
        exact ⟨by ac_rfl, by ac_rfl⟩
    · have he' : ¬ k = i % s.wmLen := fun h => he h.symm
      simp [he, he']

/-- The loop of `EXTRACT` leaves every byte but those of the counters in use. -/
theorem extract_fold_byte (ch : Channel) (l : List Nat) (s : State) (h1 : 1 ≤ s.wmLen) {a : Nat}
    (h : ¬ s.voteBytes a) : (l.foldl (extractBlock ch) s).byte a = s.byte a := by
  induction l generalizing s with
  | nil => rfl
  | cons i l ih =>
    have hp : i % s.wmLen < s.wmLen := Nat.mod_lt _ h1
    rw [List.foldl_cons, ih (extractBlock ch s i) h1 h]
    unfold State.voteBytes within at h
    refine appendVote_byte s _ _ ?_ ?_
    · unfold within onesAddr; omega
    · unfold within totalAddr; omega

/-- `VCLEAR` empties every counter (R176). -/
theorem vclear_byte (s : State) {a : Nat} (h : allVoteBytes a) : (vclearEffect s).byte a = 0x00#8 := by
  unfold allVoteBytes within at h
  simp only [Config.vmax, Config.pmax] at h
  unfold vclearEffect
  simp only [Config.vmax, Config.pmax]
  have hs : stored a = true := by
    refine stored_counter ?_ ?_ <;> unfold onesBase totalBase at h <;> omega
  by_cases ht : totalBase ≤ a ∧ a < totalBase + 4 * (8 * 256)
  · refine byte_restore_hit s _ ht hs ?_
    have := resetByte_total (k := a - totalBase) (by omega)
    rwa [show totalBase + (a - totalBase) = a by omega] at this
  · rw [byte_restore_of_lt _ _ (by omega)]
    refine byte_restore_hit s _ (lo := onesBase) (by omega) hs ?_
    have := resetByte_ones (k := a - onesBase) (by omega)
    rwa [show onesBase + (a - onesBase) = a by omega] at this

theorem vclear_byte_of_not (s : State) {a : Nat} (h : ¬ allVoteBytes a) : (vclearEffect s).byte a = s.byte a := by
  unfold allVoteBytes within at h
  unfold vclearEffect
  rw [byte_restore_of_lt _ _ (by omega), byte_restore_of_lt _ _ (by omega), withMem_self]

/-- `TALLY` writes the bytes in use of `POUT` and leaves every other byte (R182). -/
theorem tally_byte (s : State) (h : s.nBytes ≤ 256) (a : Nat) :
    (tallyEffect s).byte a = if within poutBase s.nBytes a then s.packedByte (a - poutBase) else s.byte a := by
  unfold tallyEffect
  rw [byte_setEmpty, byte_fill, withMem_self]
  by_cases hw : within poutBase s.nBytes a
  · have hs : stored a = true := by
      have := stored_pout (k := a - poutBase) (by omega)
      rwa [show poutBase + (a - poutBase) = a by omega] at this
    rw [if_pos hw, if_pos ⟨hw.1, hw.2, hs⟩]
  · rw [if_neg hw, if_neg (fun h => hw ⟨h.1, h.2.1⟩)]

end Sys2Proof.Machine
end

