-- ==== Sys2Proof/Laws/PerInstr.lean ====
section
/-!
SUPPORT. Statements about every instruction as syntax, one lemma for each constructor.
-/

namespace Sys2Proof.Laws

/-- The encoded word carries the opcode in bits 7:0, the channel in bits 9:8 and zero above (30_encoding.md R90). -/
def EncodeFields.Statement (i : Instr) : Prop :=
  opField (encode i) = i.opcode ∧ chField (encode i) = i.channelField ∧ zeroField (encode i) = 0#22

/-- The three fields of a word put together from them (R90). -/
theorem fields_of_append (ch : ChannelField) (op : BitVec 8) :
    opField (0#22 ++ ch ++ op) = op ∧ chField (0#22 ++ ch ++ op) = ch ∧ zeroField (0#22 ++ ch ++ op) = 0#22 := by
  refine ⟨?_, ?_, ?_⟩ <;> ext i hi <;> simp [opField, chField, zeroField] <;> grind

theorem EncodeFields.nop : EncodeFields.Statement .nop := fields_of_append _ _
theorem EncodeFields.rgb2yuv : EncodeFields.Statement .rgb2yuv := fields_of_append _ _
theorem EncodeFields.yuv2rgb : EncodeFields.Statement .yuv2rgb := fields_of_append _ _
theorem EncodeFields.subsamp : EncodeFields.Statement .subsamp := fields_of_append _ _
theorem EncodeFields.dwtfwd (ch : ChannelField) : EncodeFields.Statement (.dwtfwd ch) := fields_of_append _ _
theorem EncodeFields.dwtinv (ch : ChannelField) : EncodeFields.Statement (.dwtinv ch) := fields_of_append _ _
theorem EncodeFields.embed (ch : ChannelField) : EncodeFields.Statement (.embed ch) := fields_of_append _ _
theorem EncodeFields.extract (ch : ChannelField) : EncodeFields.Statement (.extract ch) := fields_of_append _ _
theorem EncodeFields.vclear : EncodeFields.Statement .vclear := fields_of_append _ _
theorem EncodeFields.tally : EncodeFields.Statement .tally := fields_of_append _ _
theorem EncodeFields.encode : EncodeFields.Statement .encode := fields_of_append _ _
theorem EncodeFields.decode : EncodeFields.Statement .decode := fields_of_append _ _

end Sys2Proof.Laws
end

