-- ==== Sys2Proof/Tests/Slice0.lean ====
section
/-!
SUPPORT. Tests: words and vectors taken from the spec (30_encoding.md R92, 95_test_vectors.md V1 to V75 and the worked
examples of the rules), and a witness for the hypotheses of each obligation that has any.
-/

namespace Sys2Proof.Tests

open Sys2Proof.Machine Sys2Proof.Stated

/-! ### WellFormed and Decode -/

theorem test_wf_refuses_dwtfwd_3 : (Instr.dwtfwd 3#2).wellFormed = false := by decide
theorem test_wf_refuses_dwtinv_3 : (Instr.dwtinv 3#2).wellFormed = false := by decide
theorem test_wf_refuses_embed_3 : (Instr.embed 3#2).wellFormed = false := by decide
theorem test_wf_refuses_extract_3 : (Instr.extract 3#2).wellFormed = false := by decide

-- The words are written out from the fields of R90: zero (22 bits), ch (2 bits), op (8 bits).
theorem test_decode_nop : decode 0b0000000000000000000000_00_00000000#32 = .ok .nop := by decide
theorem test_decode_rgb2yuv : decode 0b0000000000000000000000_00_00000001#32 = .ok .rgb2yuv := by decide
theorem test_decode_yuv2rgb : decode 0b0000000000000000000000_00_00000010#32 = .ok .yuv2rgb := by decide
theorem test_decode_subsamp : decode 0b0000000000000000000000_00_00000011#32 = .ok .subsamp := by decide
theorem test_decode_dwtfwd : decode 0b0000000000000000000000_01_00000100#32 = .ok (.dwtfwd 1#2) := by decide
theorem test_decode_dwtinv : decode 0b0000000000000000000000_10_00000101#32 = .ok (.dwtinv 2#2) := by decide
theorem test_decode_embed : decode 0b0000000000000000000000_00_00000110#32 = .ok (.embed 0#2) := by decide
theorem test_decode_extract : decode 0b0000000000000000000000_10_00000111#32 = .ok (.extract 2#2) := by decide
theorem test_decode_vclear : decode 0b0000000000000000000000_00_00001000#32 = .ok .vclear := by decide
theorem test_decode_tally : decode 0b0000000000000000000000_00_00001001#32 = .ok .tally := by decide
theorem test_decode_encode : decode 0b0000000000000000000000_00_00001010#32 = .ok .encode := by decide
theorem test_decode_decode : decode 0b0000000000000000000000_00_00001011#32 = .ok .decode := by decide
-- V45 to V48
theorem test_decode_rejects :
    decode 0x0000000C#32 = .error .unknownOpcode ∧ decode 0x00000304#32 = .error .illegalChannel ∧
      decode 0x00000101#32 = .error .unexpectedChannel ∧ decode 0x00000400#32 = .error .upperBitsSet := by decide
theorem test_encode_words :
    encode (.dwtfwd 1#2) = 0x00000104#32 ∧ encode (.embed 2#2) = 0x00000206#32 ∧ encode .decode = 0x0000000B#32 := by
  decide
theorem test_table_word : decodeTableWord 32 0x205 = some (.dwtinv 2#2) ∧ decodeTableWord 32 0x305 = none := by decide

/-! ### Small states -/

/-- A geometry and the entries of the buffers, with a command in flight: only a completion reads so small a grid. -/
def small (rows cols b : Nat) (m : Memory) : State :=
  { State.reset with
    rows := BitVec.ofNat 32 rows
    cols := BitVec.ofNat 32 cols
    bsize := BitVec.ofNat 32 b
    wmbytes := 1#32
    mem := m
    status := { Status.reset with busy := true } }

/-- Whether `exec` answers a next state of which `p` holds. -/
def gives (i : Instr) (s : State) (p : State → Bool) : Bool :=
  match exec i s with
  | .next t => p t
  | _ => false

/-- Whether the step answers a next state of which `p` holds. -/
def steps (s : State) (p : State → Bool) : Bool :=
  match step s with
  | .next t => p t
  | _ => false

/-- Bytes from an address up. -/
def bytesAt (lo : Nat) (l : List Nat) : Memory := l.mapIdx (fun k b => (lo + k, BitVec.ofNat 8 b))

/-- Words from an address up, little-endian. -/
def wordsAt (lo : Nat) (l : List Int) : Memory :=
  (l.mapIdx (fun k w => bytesAt (lo + 4 * k)
    [(wrap32 w).toNat % 256, (wrap32 w).toNat / 256 % 256, (wrap32 w).toNat / 65536 % 256,
      (wrap32 w).toNat / 16777216])).flatten

/-! ### One step of each command -/

-- V59: STATUS 1 then 2
theorem test_nop_issue : steps (State.reset.withFetchWord 32 0) (fun t => t.status.word = 1#32) := by decide
theorem test_nop_completes : gives .nop (small 0 0 4 []) (fun t => t.status.word = 2#32) := by decide
-- V5 and V10
theorem test_rgb2yuv_vectors :
    gives .rgb2yuv (small 1 2 4 (bytesAt rgbBase [255, 0, 0] ++ bytesAt (rgbBase + 4) [0, 0, 250])) (fun t =>
      (t.sample .y 0, t.sample .u 0, t.sample .v 0) = (76#8, 90#8, 255#8) ∧
      (t.sample .y 1, t.sample .u 1, t.sample .v 1) = (29#8, 237#8, 102#8)) := by decide +kernel
-- V17 and V15
theorem test_yuv2rgb_vectors :
    gives .yuv2rgb (small 1 2 4 (bytesAt (planeBase .y) [128, 0] ++ bytesAt (planeBase .u) [131, 0]
      ++ bytesAt (planeBase .v) [128, 0])) (fun t =>
      t.word rgbBase = 0x00877E81#32 ∧ t.word (rgbBase + 4) = 0x00007C00#32) := by decide +kernel
-- R132 worked example
theorem test_subsamp_example :
    gives .subsamp (small 2 4 4 (bytesAt (planeBase .u) [10, 20, 30, 40, 50, 60, 70, 80])) (fun t =>
      (List.range 8).map (t.sample .u) = [10#8, 10#8, 30#8, 30#8, 10#8, 10#8, 30#8, 30#8]) := by decide +kernel
-- R143 worked example
theorem test_dwtfwd_example :
    gives (.dwtfwd 1#2) (small 2 2 2 (bytesAt (planeBase .u) [10, 20, 30, 40])) (fun t =>
      (t.coeff .sa 0, t.coeff .sh 0, t.coeff .sv 0, t.coeff .sd 0) = (200, -80, -40, 0)) := by decide +kernel
-- R146 worked example; column 2 is outside the region
theorem test_dwtinv_example :
    gives (.dwtinv 1#2) (small 2 3 2 (bytesAt (planeBase .u) [1, 2, 3, 4, 5, 6]
      ++ wordsAt (subbandBase .sa) [200] ++ wordsAt (subbandBase .sh) [-80] ++ wordsAt (subbandBase .sv) [-40]
      ++ wordsAt (subbandBase .sd) [0])) (fun t =>
      (List.range 6).map (t.sample .u) = [10#8, 30#8, 3#8, 20#8, 40#8, 6#8]) := by decide +kernel
-- Block 0 of V29: dominant 3, bit 1, 750 becomes 828
theorem test_embed_vector :
    gives (.embed 1#2) (small 4 4 2 (bytesAt pinBase [0xA0] ++ wordsAt (subbandBase .sa) [94, 358, 390, 750])) (fun t =>
      (List.range 4).map (t.coeff .sa) = [94, 358, 390, 828]) := by decide +kernel
-- V24 to V28c
theorem test_embed_cells :
    (embedCell 0 36 true, embedCell (-1000) 36 true, embedCell 1140 36 false, embedCell 2040 32767 true,
      embedCell 575 36 false, embedCell 576 36 false) =
    (108#32, wrap32 (-972), 1044#32, 98301#32, 468#32, 612#32) := by decide +kernel
-- Block 0 of V38: 828 reads as 1
theorem test_extract_vector :
    gives (.extract 1#2) (small 4 4 2 (wordsAt (subbandBase .sa) [94, 358, 390, 828])) (fun t =>
      (t.ones 0, t.total 0, t.ones 1, t.total 1) = (1#32, 1#32, 0#32, 0#32)) := by decide +kernel
-- V32 to V37
theorem test_extract_bits :
    [extractBit 1044 36, extractBit 1116 36, extractBit 1080 36, extractBit 1081 36, extractBit (-972) 36,
      extractBit 0 36] = [false, true, false, true, true, false] := by decide +kernel
-- R176 worked example, on the first and last counters
theorem test_vclear_example :
    gives .vclear (small 0 0 4 (wordsAt onesBase [7] ++ wordsAt (totalBase + 0x1FFC) [9])) (fun t =>
      t.ones 0 = 0#32 ∧ t.total 2047 = 0#32 ∧ t.mem = []) := by decide +kernel
-- V39
theorem test_tally_vector :
    gives .tally (small 0 0 4 (wordsAt onesBase [0, 4, 1, 3, 2, 0, 127, 128]
      ++ wordsAt totalBase [4, 4, 4, 4, 4, 0, 255, 255])) (fun t =>
      t.byte poutBase = 0x59#8 ∧ t.status.word = 0x12#32) := by decide +kernel
-- R119 example: without a positive scale ENCODE is the colour round trip; pure red goes to (221, 17, 0)
theorem test_encode_round_trip :
    gives .encode { small 1 1 2 (bytesAt rgbBase [255, 0, 0]) with scale1 := 0#32, scale2 := 0#32 } (fun t =>
      t.word rgbBase = 0x000011DD#32) := by decide +kernel
-- P4 (R200 corner case): without a block every byte is 0 and EMPTY is set
theorem test_decode_no_block :
    gives .decode (small 1 2 2 (bytesAt rgbBase [0, 0, 0] ++ bytesAt (rgbBase + 4) [1, 0, 0])) (fun t =>
      t.byte poutBase = 0#8 ∧ t.status.word = 0x12#32) := by decide +kernel

/-! ### The port -/

/-- An idle state with one transaction to come. -/
def offering (op : HostOp) : State := { State.reset with pending := [{ op := op, overlaps := true }] }

-- V44, V46
theorem test_issue_faults :
    steps (State.reset.withFetchWord 32 1) (fun t => t.status.word = 0x104#32 ∧ t.cmd = 1#32) ∧
      steps (State.reset.withFetchWord 32 0x304) (fun t => t.status.word = 0x1004#32) := by decide
-- V61, V62
theorem test_read_reset :
    steps (offering (.read 0x1000#32 4)) (fun t => t.replies = [.data 0x32564453#32]) ∧
      steps (offering (.read 0x1C#32 4)) (fun t => t.replies = [.data 36#32]) := by decide +kernel
-- V63, V64, V65
theorem test_bus_errors :
    steps (offering (.read 0x1002#32 4)) (fun t => t.replies = [.busError]) ∧
      steps (offering (.read 0x1000#32 1)) (fun t => t.replies = [.busError]) ∧
      steps (offering (.write 0x0B000000#32 4 0#32)) (fun t => t.replies = [.busError]) := by decide +kernel
-- V66
theorem test_pixel_write :
    steps (offering (.write 0x04000000#32 4 0xFF123456#32)) (fun t =>
      t.word 0x04000000 = 0x00123456#32 ∧ t.mem.wf) := by decide +kernel
-- V70
theorem test_busy_write :
    steps { offering (.write 0x0C#32 4 7#32) with status := { Status.reset with busy := true } } (fun t =>
      t.rows = 0#32 ∧ t.status.word = 9#32) := by decide
-- V74
theorem test_soft_reset :
    steps { offering (.write 0x08#32 4 1#32) with
        status := { Status.reset with err := true, errCode := 4#8 }
        mem := bytesAt pinBase [1] ++ bytesAt (planeBase .y) [9] } (fun t =>
      t.status.word = 0#32 ∧ t.byte pinBase = 0x53#8 ∧ t.sample .y 0 = 9#8) := by decide +kernel
-- R25: every field of STATUS in its place
theorem test_status_word :
    Status.word { busy := true, done := false, err := true, ovr := false, empty := true, errCode := 0xA5#8 } =
      0x0000A515#32 := by decide
-- R99: LOADTEXT packs four bytes a word
theorem test_loadtext :
    (Line.loadtext [0x54#8, 0x45#8, 0x53#8, 0x54#8]).arrivals true =
      [arriveWrite true 0x1000#32 0x54534554#32, arriveWrite true 0x28#32 4#32] := by decide +kernel

-- R98, R99 and U4: without a WAIT a line lands before or after the completion, as the schedule says
theorem test_script_schedule :
    scriptArrivals (fun k => decide (k < 1)) [.cmd .nop, .wr .rows 7#32] =
        [arriveWrite true 0x00#32 0#32, arriveWrite false 0x0C#32 7#32] ∧
      scriptArrivals (fun _ => true) [.run .nop 1] =
        [arriveWrite true 0x00#32 0#32, arriveRead true 0x04#32, arriveRead false 0x04#32] := by decide

/-! ### Witnesses for the hypotheses of the obligations -/

/-- A 256 by 256 grid with the reset configuration, a command in flight. -/
def legal : State :=
  { State.reset with rows := 256#32, cols := 256#32, status := { Status.reset with busy := true } }

/-- The same, idle. -/
def legalIdle : State := { legal with status := Status.reset }

/-- The same with a fault recorded. -/
def faulted : State := { legalIdle with status := { Status.reset with err := true, errCode := 0x01#8 } }

/-- A state whose next event is `op`, followed by nothing. -/
def next (op : HostOp) (s : State) : State := { s with pending := [{ op := op, overlaps := true }] }

theorem next_lands (op : HostOp) (s : State) : lands op [] (next op s) := ⟨true, rfl, fun _ => rfl⟩

/-- `legal` with one more entry, in `POUT`. -/
def legalOther : State := { legal with mem := [(0x1100, 1#8)] }

theorem legalOther_byte {a : Nat} (h : a ≠ 0x1100) : legalOther.byte a = legal.byte a := by
  refine byte_eq_of_get? ?_ rfl
  show Memory.get? [(0x1100, 1#8)] a = Memory.get? [] a
  simp [get?_cons, Ne.symm h]

-- R64, R65, R61: first and last words of the windows
theorem witness_map_boundaries :
    ∀ r ∈ mapTable, busTarget (BitVec.ofNat 32 r.2.1) 4 = some r.1 ∧
      busTarget (BitVec.ofNat 32 (r.2.2 - 3)) 4 = some r.1 ∧ busTarget (BitVec.ofNat 32 (r.2.2 + 2)) 4 = none := by
  decide +kernel
theorem witness_unmapped :
    busTarget 0x1200#32 4 = none ∧ busTarget 0x3FFC#32 4 = none ∧ busTarget 0x8000#32 4 = none ∧
      busTarget 0x10000000#32 4 = none ∧ busTarget 0x1000#32 8 = none := by decide +kernel

theorem witness_PackedCellsLittleEndian : 16777215 < 16777216 := by decide
theorem witness_IllegalWordsFault :
    (∃ e, decode 0x0000000C#32 = .error e) ∧
      lands (.write 0x00000000#32 4 0x0000000C#32) [] (next (.write 0#32 4 0x0000000C#32) legalIdle) ∧
      legalIdle.status.busy = false ∧ legalIdle.status.err = false := ⟨⟨_, rfl⟩, next_lands _ _, rfl, rfl⟩
theorem witness_StepRunsOfferedCommand :
    lands (.write 0x00000000#32 4 0x0000000A#32) [] (next (.write 0#32 4 0x0000000A#32) legalIdle) ∧
      legalIdle.status.busy = false ∧ legalIdle.status.err = false ∧ decode 0x0000000A#32 = .ok .encode :=
  ⟨next_lands _ _, rfl, rfl, by decide⟩
theorem witness_StepRunsCommandInFlight :
    legal.status.busy = true ∧ (∀ x ∈ legal.pending.head?, x.overlaps = false) ∧ decode legal.cmd = .ok .nop ∧
      legalIdle.status.busy = false ∧ legalIdle.pending = [] := by decide
theorem witness_IssueLatchesAndChecks :
    lands (.write 0x00000000#32 4 0x0000000A#32) [] (next (.write 0#32 4 0x0000000A#32) legalIdle) ∧
      legalIdle.status.busy = false ∧ legalIdle.status.err = false ∧ checkWord 0x0000000A#32 legalIdle = none ∧
      checkWord 0x0000000A#32 State.reset = some .imageTooSmall := ⟨next_lands _ _, by decide +kernel⟩
theorem witness_CommandDroppedWhenBusyOrFaulted :
    lands (.write 0x00000000#32 4 0#32) [] (next (.write 0#32 4 0#32) legal) ∧ legal.status.busy = true ∧
      lands (.write 0x00000000#32 4 0#32) [] (next (.write 0#32 4 0#32) faulted) ∧ faulted.status.err = true :=
  ⟨next_lands _ _, rfl, next_lands _ _, rfl⟩
theorem witness_AccessWhileBusy :
    legal.status.busy = true ∧
      lands (.read 0x00000FFC#32 4) [] (next (.read 0xFFC#32 4) legal) ∧ busTarget 0x00000FFC#32 4 = some .reg ∧
      lands (.write 0x0FFFFFFC#32 4 1#32) [] (next (.write 0x0FFFFFFC#32 4 1#32) legal) ∧
      (busTarget 0x0FFFFFFC#32 4).isSome = true ∧
      lands (.read 0x00001000#32 4) [] (next (.read 0x1000#32 4) legal) ∧ busTarget 0x00001000#32 4 = some .pin :=
  ⟨rfl, next_lands _ _, by decide, next_lands _ _, by decide +kernel, next_lands _ _, by decide +kernel⟩
theorem witness_AccessWhileFaulted :
    faulted.status.busy = false ∧ faulted.status.err = true ∧
      lands (.read 0x00000FFC#32 4) [] (next (.read 0xFFC#32 4) faulted) ∧ busTarget 0x00000FFC#32 4 = some .reg ∧
      lands (.read 0x00001000#32 4) [] (next (.read 0x1000#32 4) faulted) ∧ busTarget 0x00001000#32 4 = some .pin ∧
      lands (.write 0x00000004#32 4 1#32) [] (next (.write 0x4#32 4 1#32) faulted) ∧
      busTarget 0x00000004#32 4 = some .reg ∧
      lands (.write 0x00001000#32 4 1#32) [] (next (.write 0x1000#32 4 1#32) faulted) ∧
      lands (.write 0x00000000#32 4 1#32) [] (next (.write 0#32 4 1#32) faulted) :=
  ⟨rfl, rfl, next_lands _ _, by decide, next_lands _ _, by decide +kernel, next_lands _ _, by decide, next_lands _ _,
    next_lands _ _⟩
theorem witness_AddressMapAndBusErrors :
    busTarget 0x00001002#32 4 = none ∧ lands (.read 0x00001002#32 4) [] (next (.read 0x1002#32 4) legal) ∧
      lands (.write 0x00001002#32 4 0#32) [] (next (.write 0x1002#32 4 0#32) legal) :=
  ⟨by decide, next_lands _ _, next_lands _ _⟩
theorem witness_RegisterWindow :
    legalIdle.status.busy = false ∧
      (∀ i ∈ [0, 1023], lands (.read (BitVec.ofNat 32 (4 * i)) 4) []
        (next (.read (BitVec.ofNat 32 (4 * i)) 4) legalIdle)) ∧
      ∀ i ∈ [1, 3, 10, 11, 1023], lands (.write (BitVec.ofNat 32 (4 * i)) 4 5#32) []
        (next (.write (BitVec.ofNat 32 (4 * i)) 4 5#32) legalIdle) :=
  ⟨rfl, fun _ _ => next_lands _ _, fun _ _ => next_lands _ _⟩
theorem witness_OnlyIssueOrResetChangesCmd :
    (∃ t, step (next (.write 0#32 4 1#32) faulted) = .next t) ∧ ¬ resetEvent (next (.write 0#32 4 1#32) faulted) ∧
      ¬ ∃ w rest, lands (.write 0x00000000#32 4 w) rest (next (.write 0#32 4 1#32) faulted) ∧
        (next (.write 0#32 4 1#32) faulted).status.busy = false ∧
        (next (.write 0#32 4 1#32) faulted).status.err = false := by
  refine ⟨⟨_, rfl⟩, ?_, ?_⟩
  · rintro ⟨rest, ⟨ov, h, -⟩ | ⟨w, -, -, ov, h, -⟩⟩ <;> simp [next] at h
  · rintro ⟨w, rest, -, -, h⟩
    simp [next, faulted] at h
theorem witness_CtrlWrite :
    (6#32).getLsbD 0 = false ∧ (7#32).getLsbD 0 = true ∧ legalIdle.status.busy = false ∧ legal.status.busy = true ∧
      ∀ w s, lands (.write 0x00000008#32 4 w) [] (next (.write 0x8#32 4 w) s) :=
  ⟨by decide, by decide, rfl, rfl, fun _ _ => next_lands _ _⟩
theorem witness_SoftResetRestores :
    (1#32).getLsbD 0 = true ∧ faulted.status.busy = false ∧ legal.status.busy = true ∧
      ∀ s, lands (.write 0x00000008#32 4 1#32) [] (next (.write 0x8#32 4 1#32) s) :=
  ⟨by decide, rfl, rfl, fun _ => next_lands _ _⟩
theorem witness_HardResetRestores : lands .hardReset [] (next .hardReset legal) := next_lands _ _
theorem witness_InterruptLine :
    lands (.write 0x00000000#32 4 0#32) [] (next (.write 0#32 4 0#32) legalIdle) ∧ legalIdle.status.busy = false ∧
      legalIdle.status.err = false ∧ legal.status.busy = true ∧ legal.status.err = false ∧
      ∃ t, exec .nop legal = .next t := ⟨next_lands _ _, rfl, rfl, rfl, rfl, _, rfl⟩
theorem witness_BufferWriteThenRead :
    legalIdle.status.busy = false ∧ busTarget 0x04000000#32 4 = some .rgb ∧ busTarget 0x07FFFFFC#32 4 = some .rgb ∧
      busTarget 0x00001000#32 4 = some .pin ∧ busTarget 0x0FFFFFFC#32 4 = some (.subband .sd) ∧
      (∀ a, lands (.write a 4 1#32) [] (next (.write a 4 1#32) legalIdle)) ∧
      ∀ a, lands (.read a 4) [] (next (.read a 4) legalIdle) :=
  ⟨rfl, by decide +kernel, by decide +kernel, by decide +kernel, by decide +kernel, fun _ => next_lands _ _,
    fun _ => next_lands _ _⟩
/-- `legal` with blocks of side 2 and the first block's cells written: 94, -358, 390, -750. -/
def legalBlocks : State :=
  { legal with
    bsize := 2#32
    mem := bytesAt pinBase [0xA0] ++ wordsAt (subbandBase .sa) [94, -358]
      ++ wordsAt (subbandBase .sa + 4 * 128) [390, -750] }

/-- `legal` with every scale positive and each other register at a bound. -/
def legalScales : State := { legal with scale0 := 32767#32, bsize := 64#32, wmbytes := 256#32, submode := 2#32 }

/-- `legal` with no positive scale. -/
def legalNoScale : State := { legal with scale1 := 0#32, scale2 := 0xFFFFFFFF#32 }

/-- The configuration checks pass at their bounds: the least and the greatest area. -/
theorem witness_legal_bounds :
    gridFault legal = none ∧ gridFault { legal with rows := 1#32, cols := 16777216#32 } = none ∧
      check .encode legalScales = none ∧ check .encode legalBlocks = none ∧ check .decode legalNoScale = none := by
  decide +kernel
theorem witness_Rgb2yuvWritesPlanes :
    legal.status.busy = true ∧ gridFault legal = none ∧ 0 < legal.nRows ∧ 255 < legal.nRows ∧ 255 < legal.nCols := by
  decide
theorem witness_Yuv2rgbWritesGrid :
    legal.status.busy = true ∧ gridFault legal = none ∧ 0 < legal.nRows ∧ 255 < legal.nRows ∧ 255 < legal.nCols := by
  decide
theorem witness_SubsampOverwritesOddCells :
    legal.status.busy = true ∧ check .subsamp legal = none ∧ legal.submode.toNat = 0 ∧
      check .subsamp { legal with submode := 1#32 } = none ∧ check .subsamp { legal with submode := 2#32 } = none ∧
      255 < legal.nRows ∧ 255 < legal.nCols := by decide
theorem witness_DwtfwdWritesSubbands :
    legal.status.busy = true ∧ (∀ ch ∈ Channel.all, check (.dwtfwd (fieldOf ch)) legal = none) ∧ 127 < legal.subRows ∧
      127 < legal.subCols := by decide
theorem witness_DwtinvWritesRegion :
    legal.status.busy = true ∧ (∀ ch ∈ Channel.all, check (.dwtinv (fieldOf ch)) legal = none) ∧ 127 < legal.subRows ∧
      127 < legal.subCols := by decide
theorem witness_DominantIsLeastMaximum : 2 ≤ legalBlocks.blk ∧ legalBlocks.dominant 0 = 3 := by decide +kernel
theorem witness_isDominant : isDominant legalBlocks 0 3 := by
  have hb : legalBlocks.blk = 2 := by decide
  have hc : ∀ q ∈ List.range 3, (legalBlocks.blockCoeff 0 (q + 1)).natAbs ≤ (legalBlocks.blockCoeff 0 3).natAbs ∧
      (q < 2 → (legalBlocks.blockCoeff 0 (q + 1)).natAbs < (legalBlocks.blockCoeff 0 3).natAbs) := by decide +kernel
  unfold isDominant
  rw [hb]
  refine ⟨by omega, fun q h1 h2 => ?_, fun q h1 h2 => ⟨3, by omega, by omega, ?_⟩⟩
  · have := (hc (q - 1) (List.mem_range.mpr (by omega))).1
    rwa [show q - 1 + 1 = q by omega] at this
  · have := (hc (q - 1) (List.mem_range.mpr (by omega))).2 (by omega)
    rwa [show q - 1 + 1 = q by omega] at this
theorem witness_EmbedWritesDominantCells :
    legalBlocks.status.busy = true ∧ (∀ ch ∈ Channel.all, check (.embed (fieldOf ch)) legalBlocks = none) ∧
      0 < legalBlocks.scale .u ∧ legalBlocks.scale .y ≤ 0 ∧ 0 < legalBlocks.nBlocks ∧ 31 < legalBlocks.wmLen ∧
      isDominant legalBlocks 0 3 := by
  refine ⟨rfl, by decide, by decide, by decide, by decide +kernel, by decide, witness_isDominant⟩
theorem witness_ExtractCountsVotes :
    legalBlocks.status.busy = true ∧ (∀ ch ∈ Channel.all, check (.extract (fieldOf ch)) legalBlocks = none) ∧
      0 < legalBlocks.scale .u ∧ legalBlocks.scale .y ≤ 0 ∧ 0 < legalBlocks.wmLen ∧ 31 < legalBlocks.wmLen := by decide
theorem witness_VclearEmptiesAccumulator : legal.status.busy = true := rfl
theorem witness_TallyThresholdsAndPacks :
    legal.status.busy = true ∧ lengthFault legal = none ∧ 3 < legal.nBytes ∧
      lengthFault { legal with wmbytes := 1#32 } = none ∧ lengthFault { legal with wmbytes := 256#32 } = none := by decide
theorem witness_EncodeRunsSequence :
    legal.status.busy = true ∧ check .encode legal = none ∧ check .encode legalScales = none ∧
      check .encode legalNoScale = none ∧ (encodeSequence legal).length = 9 ∧ (encodeSequence legalScales).length = 12 ∧
      (encodeSequence legalNoScale).length = 3 ∧ encodeSequence legal = [] ++ .rgb2yuv :: (encodeSequence legal).tail ∧
      encodeSequence legal = (encodeSequence legal).take 8 ++ .yuv2rgb :: [] := by decide +kernel
theorem witness_DecodeRunsSequence :
    legal.status.busy = true ∧ check .decode legal = none ∧ check .decode legalScales = none ∧
      check .decode legalNoScale = none ∧ (decodeSequence legal).length = 7 ∧ (decodeSequence legalScales).length = 9 ∧
      (decodeSequence legalNoScale).length = 3 ∧ decodeSequence legal = [] ++ .rgb2yuv :: (decodeSequence legal).tail ∧
      decodeSequence legal = (decodeSequence legal).take 6 ++ .tally :: [] := by decide +kernel
theorem witness_IndicesStayInBuffers :
    gridFault legal = none ∧ blockFault legal = none ∧ 255 < legal.nRows ∧ 127 < legal.subRows ∧ 1023 < legal.nBlocks ∧
      15 < legal.blk * legal.blk ∧ lengthFault legalScales = none ∧ 2047 < legalScales.wmLen ∧
      255 < legalScales.nBytes := by decide +kernel
theorem witness_NopCompletes :
    legal.status.busy = true ∧ legalIdle.status.busy = false ∧ legalIdle.status.err = false := ⟨rfl, rfl, rfl⟩
theorem witness_EncodeEqualsCommandsByHand :
    legalIdle.status.busy = false ∧ legalIdle.status.err = false ∧ check .encode legalIdle = none ∧
      (encodeSequence legalIdle).length = 9 := by decide +kernel
theorem witness_CommandsChangeOnlyTheirWriteSet :
    check .encode legal = none ∧ (∃ t, exec .encode legal = .next t) ∧ legalIdle.status.busy = false ∧
      ∃ t, exec .encode legalIdle = .next t := ⟨by decide +kernel, ⟨_, rfl⟩, rfl, _, rfl⟩
theorem witness_SimpleCommandsDependOnReadSet :
    legal.status.busy = true ∧ legalOther.status = legal.status ∧ legal.sameConfig legalOther ∧
      check .tally legal = none ∧ (∀ a, readSet .tally legal a → legalOther.byte a = legal.byte a) ∧
      (∃ t, exec .tally legal = .next t) ∧ ∃ t, exec .tally legalOther = .next t := by
  refine ⟨rfl, rfl, by decide, by decide, fun a h => legalOther_byte ?_, ⟨_, rfl⟩, _, rfl⟩
  simp only [readSet, State.voteBytes, within, onesBase, totalBase] at h
  omega
theorem witness_EncodeDependsOnGridAndPayload :
    legal.status.busy = true ∧ legalOther.status = legal.status ∧ legal.sameConfig legalOther ∧
      check .encode legal = none ∧ (∀ a, legal.gridBytes a ∨ legal.payloadBytes a → legalOther.byte a = legal.byte a) ∧
      (∃ t, exec .encode legal = .next t) ∧ ∃ t, exec .encode legalOther = .next t := by
  have h1 : legal.nBytes = 4 := by decide
  refine ⟨rfl, rfl, by decide, by decide +kernel, fun a h => legalOther_byte ?_, ⟨_, rfl⟩, _, rfl⟩
  simp only [State.gridBytes, State.payloadBytes, within, rgbBase, pinBase, h1] at h
  omega
theorem witness_DecodeDependsOnGrid :
    legal.status.busy = true ∧ legalOther.status = legal.status ∧ legal.sameConfig legalOther ∧
      check .decode legal = none ∧ (∀ a, legal.gridBytes a → legalOther.byte a = legal.byte a) ∧
      (∃ t, exec .decode legal = .next t) ∧ ∃ t, exec .decode legalOther = .next t := by
  refine ⟨rfl, rfl, by decide, by decide +kernel, fun a h => legalOther_byte ?_, ⟨_, rfl⟩, _, rfl⟩
  simp only [State.gridBytes, within, rgbBase] at h
  omega
theorem witness_StepKeepsInvariant : legal.inv ∧ ∃ t, step legal = .next t := ⟨by decide, _, rfl⟩
theorem witness_NoStepStops : legal.inv ∧ legal.status.busy = true := by decide
theorem witness_CompletionEventuallyTaken : legal.inv ∧ legal.status.busy = true := by decide
theorem witness_RunLineCompletes :
    legalIdle.status.busy = false ∧ legalIdle.status.err = false ∧ check .encode legalIdle = none ∧
      { legalIdle with pending := (Line.run .encode 2).arrivals false }.pending = (Line.run .encode 2).arrivals false :=
  ⟨rfl, rfl, by decide +kernel, rfl⟩
theorem witness_OnlyResetClearsFault :
    faulted.status.err = true ∧ faulted.status.busy = false ∧ (∃ t, step (next (.write 0#32 4 0#32) faulted) = .next t) ∧
      ¬ resetEvent (next (.write 0#32 4 0#32) faulted) := by
  refine ⟨rfl, rfl, ⟨_, rfl⟩, ?_⟩
  rintro ⟨rest, ⟨ov, h, -⟩ | ⟨w, -, -, ov, h, -⟩⟩ <;> simp [next] at h
theorem witness_OnlyIssueRaisesFault :
    ∃ t, step (next (.write 0#32 4 1#32) State.reset) = .next t ∧ State.reset.status.err = false ∧
      t.status.err = true := ⟨_, rfl, rfl, rfl⟩
theorem witness_OnlyHostWritesPin :
    legal.inv ∧ (∃ t, step legal = .next t) ∧ ¬ resetEvent legal ∧
      ¬ ∃ addr w rest, busTarget addr 4 = some .pin ∧ lands (.write addr 4 w) rest legal := by
  refine ⟨by decide, ⟨_, rfl⟩, ?_, ?_⟩
  · rintro ⟨rest, ⟨ov, h, -⟩ | ⟨w, -, -, ov, h, -⟩⟩ <;> simp [legal, State.reset] at h
  · rintro ⟨addr, w, rest, -, ov, h, -⟩
    simp [legal, State.reset] at h
theorem witness_ConfigurationFrozenInFlight :
    legal.status.busy = true ∧ (∃ t, step (next (.write 0xC#32 4 7#32) legal) = .next t) ∧
      ¬ ∃ rest, lands .hardReset rest (next (.write 0xC#32 4 7#32) legal) := by
  refine ⟨rfl, ⟨_, rfl⟩, ?_⟩
  rintro ⟨rest, ov, h, -⟩
  simp [next] at h
theorem witness_OneEventAtATime : ∃ t, step (next (.write 0xC#32 4 7#32) legal) = .next t := ⟨_, rfl⟩
theorem witness_SwapTransposesTiles :
    legal.status.busy = true ∧ 255 < legal.regionRows ∧ check (.dwtfwd (fieldOf .u)) legal = none ∧
      ∃ t, exec (.dwtfwd (fieldOf .u)) legal = .next t :=
  ⟨rfl, by decide, by decide, _, rfl⟩
theorem witness_SubsampledPlaneHasNoDetail :
    legal.status.busy = true ∧ check .subsamp legal = none ∧ check (.dwtfwd (fieldOf .u)) legal = none ∧
      Channel.u ∈ legal.selected ∧ 127 < legal.subRows ∧ ∃ t, exec .subsamp legal = .next t :=
  ⟨rfl, by decide, by decide, by decide, by decide, _, rfl⟩
theorem witness_SubsampIsIdempotent :
    legal.status.busy = true ∧ check .subsamp legal = none ∧ ∃ t, exec .subsamp legal = .next t :=
  ⟨rfl, by decide, _, rfl⟩
theorem witness_CoefficientsStayBounded :
    check (.dwtfwd (fieldOf .u)) legal = none ∧ check (.embed (fieldOf .v)) legal = none ∧
      ∃ t u, exec (.dwtfwd (fieldOf .u)) legal = .next t ∧ exec (.embed (fieldOf .v)) (inFlight t) = .next u :=
  ⟨by decide +kernel, by decide +kernel, _, _, rfl, rfl⟩
theorem witness_EmbeddedCellReadsBack : 1 ≤ 36 ∧ (1024 : ℤ).natAbs + 3 * 36 < 2 ^ 31 := by decide
theorem witness_TallyInvertsPayloadBits :
    let s := small 0 0 4 (bytesAt pinBase [0x80] ++ wordsAt onesBase [1] ++ wordsAt totalBase [1])
    s.status.busy = true ∧ lengthFault s = none ∧ (∀ p, p < s.wmLen → finalBit s p = payloadBit s p) ∧
      ∃ t, exec .tally s = .next t := ⟨rfl, by decide, by decide +kernel, _, rfl⟩
theorem witness_InverseColourNeverTies : 0 ≤ rgbNum 0 128#8 128#8 128#8 := by decide

end Sys2Proof.Tests
end

