-- ==== Sys2Proof/Proofs/Scope.lean ====
section
/-!
PROOFS. Statements of 00_scope.md: the index bounds of the geometry (R13, with 20_memory.md R74) and the bounds of the
subband cells (R14).
-/

namespace Sys2Proof.Machine

open Sys2Proof.Stated

/-! ### The tests of the statements, as bounds -/

/-- Test 2 of 60_exceptions.md R227 on the area. -/
theorem gridFault_eq_none_iff (s : State) : gridFault s = none ↔ 65536 ≤ s.area ∧ s.area ≤ 16777216 := by
  have harea : s.rows.toNat * s.cols.toNat = s.area := rfl
  unfold gridFault
  rw [harea]
  split
  · simp only [reduceCtorEq, false_iff]; omega
  split
  · simp only [reduceCtorEq, false_iff]; omega
  · simp only [true_iff]; omega

/-- Test 5 of R227 on the payload length. -/
theorem lengthFault_eq_none_iff (s : State) : lengthFault s = none ↔ 1 ≤ s.nBytes ∧ s.nBytes ≤ 256 := by
  have hlen : s.wmbytes.toNat = s.nBytes := rfl
  unfold lengthFault
  rw [hlen]
  split
  · simp only [reduceCtorEq, false_iff]; omega
  · simp only [true_iff]; omega

/-! ### Indices -/

/-- The 2 x 2 tile of a subband cell lies in the grid (00_scope.md R13; 42_wavelet.md R143). -/
theorem tile_in_grid (s : State) {i j : Nat} (hi : i < s.subRows) (hj : j < s.subCols) :
    2 * i + 1 < s.nRows ∧ 2 * j + 1 < s.nCols := by
  have hr := regionRows_le s
  have hc := regionCols_le s
  unfold State.subRows at hi
  unfold State.subCols at hj
  omega

/-- The cells of a subband number at most a quarter of the cells of a legal grid. -/
theorem subCell_lt_of_area_le (s : State) (hA : s.area ≤ 16777216) {i j : Nat} (hi : i < s.subRows)
    (hj : j < s.subCols) : s.subCell i j < 4194304 := by
  have h := subCell_lt s hi hj
  have h4 := sub_area_le s
  omega

/-- Settles O50: the geometry is by definition that of R13; the bounds are those of the grid, of a quarter of the grid
and of the blocks inside it. The BSIZE test is not needed: a block side of 0 leaves no block and no position. -/
theorem indicesStayInBuffers : Obligations.IndicesStayInBuffers := by
  intro s
  refine ⟨?geometry, ?grid, ?subbands, ?payload⟩
  case geometry =>
    exact ⟨⟨rfl, rfl, rfl, rfl⟩, ⟨rfl, rfl⟩, ⟨rfl, rfl⟩, rfl, rfl, fun _ _ => rfl, fun _ _ => rfl, fun _ _ => rfl⟩
  case grid =>
    intro hg r c hr hc
    obtain ⟨-, hA⟩ := (gridFault_eq_none_iff s).mp hg
    exact Nat.lt_of_lt_of_le (gridCell_lt s hr hc) hA
  case subbands =>
    intro hg _
    obtain ⟨-, hA⟩ := (gridFault_eq_none_iff s).mp hg
    refine ⟨fun i j hi hj => ⟨subCell_lt_of_area_le s hA hi hj, tile_in_grid s hi hj⟩, ?_, ?_⟩
    · exact fun i p hi hp => blockCell_lt s hi hp
    · exact fun i p i' p' hi hi' hp hp' he => blockCell_inj s hi hi' hp hp' he
  case payload =>
    intro hl
    obtain ⟨hpos, hmax⟩ := (lengthFault_eq_none_iff s).mp hl
    have hlen : s.wmLen = 8 * s.nBytes := rfl
    refine ⟨fun i => Nat.mod_lt i (by omega), fun k hk => ?_, fun j hj => ?_⟩ <;> omega

/-! ### Cells of `SA` after DWTFWD -/

theorem ofField_fieldOf (ch : Channel) : Channel.ofField (fieldOf ch) = some ch := by cases ch <;> rfl

theorem channelLegal_fieldOf (ch : Channel) : channelLegal (fieldOf ch) = true := by cases ch <;> rfl

/-- The completion of `DWTFWD ch` is its effect on plane `ch` (30_encoding.md R97; 42_wavelet.md R143). -/
theorem exec_dwtfwd_completes {s : State} (ch : Channel) (hb : s.status.busy = true) :
    exec (.dwtfwd (fieldOf ch)) s = .next (complete (dwtfwdEffect ch s)) := by
  have h := exec_completes (i := .dwtfwd (fieldOf ch)) hb (channelLegal_fieldOf ch)
  rwa [effectOf, ofField_fieldOf, Option.elim_some] at h

/-- The completion of `EMBED ch` is its effect with the scale of `ch` (R97; 43_embed.md R164). -/
theorem exec_embed_completes {s : State} (ch : Channel) (hb : s.status.busy = true) :
    exec (.embed (fieldOf ch)) s = .next (complete (embedEffect ch s)) := by
  have h := exec_completes (i := .embed (fieldOf ch)) hb (channelLegal_fieldOf ch)
  rwa [effectOf, ofField_fieldOf, Option.elim_some] at h

/-- `DWTFWD` as coefficients, by linear cell. -/
theorem dwtfwd_coeff_cell (s : State) (ch : Channel) (b : Subband) (hA : 4 * (s.subRows * s.subCols) ≤ 16777216)
    {k : Nat} (hk : k < s.subRows * s.subCols) :
    (dwtfwdEffect ch s).coeff b k = s.forwardCoeff ch b (k / s.subCols) (k % s.subCols) := by
  unfold State.coeff State.signedWord
  rw [dwtfwd_word s ch b hA hk, forwardWord_toInt]

theorem sampleInt_bounds (s : State) (ch : Channel) (r c : Nat) :
    0 ≤ s.sampleInt ch r c ∧ s.sampleInt ch r c ≤ 255 := by
  have h := (s.sample ch (s.gridCell r c)).isLt
  unfold State.sampleInt
  omega

/-- A coefficient of `SA` is twice a sum of four samples, so at most `2 * 4 * 255` (00_scope.md R14). -/
theorem forwardCoeff_sa_bounds (s : State) (ch : Channel) (i j : Nat) :
    0 ≤ s.forwardCoeff ch .sa i j ∧ s.forwardCoeff ch .sa i j ≤ 2040 := by
  have ha := sampleInt_bounds s ch (2 * i) (2 * j)
  have hb := sampleInt_bounds s ch (2 * i) (2 * j + 1)
  have hc := sampleInt_bounds s ch (2 * i + 1) (2 * j)
  have hd := sampleInt_bounds s ch (2 * i + 1) (2 * j + 1)
  have hgain : haarGain = 2 := rfl
  simp only [State.forwardCoeff, haarCoeff, hgain]
  omega

/-! ### Cells of `SA` after EMBED -/

/-- Embedding keeps a nonnegative coefficient nonnegative and raises it by at most three quarters of a quantization
cell (43_embed.md R163), as long as the result fits a word. -/
theorem embedCell_bounds {n : Int} {scale : Nat} (bit : Bool) (hn : 0 ≤ n) (hfit : n + 3 * scale < 2 ^ 31) :
    0 ≤ (embedCell n scale bit).toInt ∧ (embedCell n scale bit).toInt ≤ n + 3 * scale := by
  obtain ⟨-, hm⟩ := embedMagnitude_bounds n scale bit
  unfold embedCell
  rw [if_pos hn, wrap32_toInt (by omega) (by omega)]
  omega

/-- All that `EMBED` can do to a cell of `SA` (R164): leave it, or embed a payload bit at a positive scale. -/
theorem embed_coeff_cases (s : State) (ch : Channel) (hb : 2 ≤ s.blk) (hA : 4 * (s.subRows * s.subCols) ≤ 16777216)
    (k : Nat) :
    (embedEffect ch s).coeff .sa k = s.coeff .sa k ∨
      (0 < s.scale ch ∧ ∃ bit, (embedEffect ch s).coeff .sa k =
        (embedCell (s.coeff .sa k) (s.scale ch).toNat bit).toInt) := by
  by_cases hd : 0 < s.scale ch ∧ ∃ i, i < s.nBlocks ∧ s.dominantCell i = k
  · obtain ⟨hs, i, hi, rfl⟩ := hd
    refine .inr ⟨hs, s.payloadBit (i % s.wmLen), ?_⟩
    rw [State.coeff, State.signedWord, embed_word s ch hb hA hs hi, State.embeddedWord]
  · refine .inl (coeff_congr_at fun j hj => embed_byte s ch ?_)
    rcases lt_or_ge 0 (s.scale ch) with hs | hs
    · refine .inr fun hbytes => ?_
      obtain ⟨i, hi, hlo, hhi⟩ := hbytes
      refine hd ⟨hs, i, hi, ?_⟩
      unfold subbandAddr at hlo hhi
      omega
    · exact .inl hs

/-- With a legal scale, `EMBED` keeps a cell of `SA` that `DWTFWD` can make within `2040 + 3 * 32767` (00_scope.md
R14). -/
theorem embed_coeff_bounds {s : State} {ch : Channel} (hb : 2 ≤ s.blk)
    (hA : 4 * (s.subRows * s.subCols) ≤ 16777216) (hs : s.scale ch ≤ 32767) {k : Nat} (h0 : 0 ≤ s.coeff .sa k)
    (h1 : s.coeff .sa k ≤ 2040) :
    0 ≤ (embedEffect ch s).coeff .sa k ∧ (embedEffect ch s).coeff .sa k ≤ 100341 := by
  rcases embed_coeff_cases s ch hb hA k with he | ⟨hpos, bit, he⟩
  · rw [he]; omega
  · have hbound := embedCell_bounds (scale := (s.scale ch).toNat) bit h0 (by omega)
    rw [he]
    omega

/-- Putting a command in flight changes neither the buffers nor the configuration. -/
theorem sameReads_inFlight (s : State) : s.sameReads (inFlight s) := sameReads_refl s

/-- The geometry, the scales and the cells that `EMBED` meets right after `DWTFWD ch`. -/
theorem inFlight_dwtfwd (s : State) (ch : Channel) :
    s.sameConfig (inFlight (complete (dwtfwdEffect ch s))) ∧
      (inFlight (complete (dwtfwdEffect ch s))).coeff = (dwtfwdEffect ch s).coeff := by
  obtain ⟨-, -, hcoeff, -⟩ := sameReads_cells (sameReads_inFlight (complete (dwtfwdEffect ch s)))
  refine ⟨⟨rfl, rfl, rfl, rfl, rfl, rfl, rfl, rfl⟩, ?_⟩
  rw [hcoeff]
  funext b k
  exact coeff_complete _ b k

/-- Settles O55: `DWTFWD` leaves sums of four samples, doubled, in `SA`, and `EMBED` raises such a cell by at most three
times the scale. -/
theorem coefficientsStayBounded : Obligations.CoefficientsStayBounded := by
  intro s t u ch ch' hbusy hfwd hemb ht hu k hk
  rw [exec_dwtfwd_completes ch hbusy] at ht
  obtain rfl := Host.Outcome.next.inj ht
  rw [exec_embed_completes ch' rfl] at hu
  obtain rfl := Host.Outcome.next.inj hu
  obtain ⟨-, hgrid, hblock, -⟩ := check_none hfwd
  obtain ⟨-, -, -, hscale, -⟩ := check_none hemb
  obtain ⟨-, hArea⟩ := hgrid rfl
  obtain ⟨-, hblk, -⟩ := hblock rfl
  have hsub : 4 * (s.subRows * s.subCols) ≤ 16777216 := Nat.le_trans (sub_area_le s) hArea
  have hsc : s.scale ch' ≤ 32767 := hscale ch' (by simp [uses, ofField_fieldOf])
  obtain ⟨hlow, hhigh⟩ := forwardCoeff_sa_bounds s ch (k / s.subCols) (k % s.subCols)
  rw [← dwtfwd_coeff_cell s ch .sa hsub hk] at hlow hhigh
  obtain ⟨hconfig, hcoeff⟩ := inFlight_dwtfwd s ch
  obtain ⟨-, -, hb, -, -, -, hr, hc, -, -, -, -, -, hscales, -⟩ := operands_congr hconfig
  rw [← hb] at hblk
  rw [← hr, ← hc] at hsub
  rw [← hscales] at hsc
  rw [← hcoeff] at hlow hhigh
  have hembed := embed_coeff_bounds hblk hsub hsc hlow hhigh
  rw [hcoeff] at hlow hhigh
  rw [coeff_complete, coeff_complete]
  exact ⟨hlow, hhigh, hembed⟩

end Sys2Proof.Machine
end

