-- ==== Sys2Proof/Proofs/State.lean ====
section
/-!
PROOFS. Statements of 10_state.md: the register window, the state after reset, and what every step keeps. The one lemma
they share is `stepCase_of_step`, which names the seven things a step can do.
-/

namespace Sys2Proof.Machine

open Sys2Proof.Stated

/-! ### The command word -/

/-- What the format `CMD0` accepts (30_encoding.md R90). -/
theorem cmd0_eq_ok {i j : Instr} {ch : ChannelField} (h : cmd0 j ch = .ok i) : j = i ∧ ch = 0#2 := by
  unfold cmd0 at h
  split at h
  · rename_i hch
    exact ⟨Except.ok.inj h, hch⟩
  · cases h

/-- What the format `CMDC` accepts (R90). -/
theorem cmdC_eq_ok {i : Instr} {f : ChannelField → Instr} {ch : ChannelField} (h : cmdC f ch = .ok i) : f ch = i := by
  unfold cmdC at h
  split at h
  · exact Except.ok.inj h
  · cases h

/-- The word `w` carries the fields of the command `i` (30_encoding.md R90). -/
def CarriesFields (w : Word) (i : Instr) : Prop :=
  zeroField w = 0#22 ∧ chField w = i.channelField ∧ opField w = i.opcode

theorem carriesFields_of_cmd0 {w : Word} {i j : Instr} (hz : zeroField w = 0#22)
    (h : cmd0 j (chField w) = .ok i) (hop : opField w = j.opcode) (hj : j.channelField = 0#2) : CarriesFields w i := by
  obtain ⟨rfl, hch⟩ := cmd0_eq_ok h
  exact ⟨hz, hch.trans hj.symm, hop⟩

theorem carriesFields_of_cmdC {w : Word} {i : Instr} {f : ChannelField → Instr} (hz : zeroField w = 0#22)
    (h : cmdC f (chField w) = .ok i) (hop : opField w = (f (chField w)).opcode)
    (hf : (f (chField w)).channelField = chField w) : CarriesFields w i := by
  obtain rfl := cmdC_eq_ok h
  exact ⟨hz, hf.symm, hop⟩

/-- A word that decodes carries the fields of its command (R92), one row of the opcode map after the other. -/
theorem carriesFields_of_decode {w : Word} {i : Instr} (h : Sys2Proof.decode w = .ok i) : CarriesFields w i := by
  unfold Sys2Proof.decode at h
  rcases ite_eq_iff.mp h with ⟨-, h⟩ | ⟨hz, h⟩
  · cases h
  replace hz := not_not.mp hz
  rcases ite_eq_iff.mp h with ⟨hop, h⟩ | ⟨-, h⟩
  · exact carriesFields_of_cmd0 hz h hop rfl
  rcases ite_eq_iff.mp h with ⟨hop, h⟩ | ⟨-, h⟩
  · exact carriesFields_of_cmd0 hz h hop rfl
  rcases ite_eq_iff.mp h with ⟨hop, h⟩ | ⟨-, h⟩
  · exact carriesFields_of_cmd0 hz h hop rfl
  rcases ite_eq_iff.mp h with ⟨hop, h⟩ | ⟨-, h⟩
  · exact carriesFields_of_cmd0 hz h hop rfl
  rcases ite_eq_iff.mp h with ⟨hop, h⟩ | ⟨-, h⟩
  · exact carriesFields_of_cmdC hz h hop rfl
  rcases ite_eq_iff.mp h with ⟨hop, h⟩ | ⟨-, h⟩
  · exact carriesFields_of_cmdC hz h hop rfl
  rcases ite_eq_iff.mp h with ⟨hop, h⟩ | ⟨-, h⟩
  · exact carriesFields_of_cmdC hz h hop rfl
  rcases ite_eq_iff.mp h with ⟨hop, h⟩ | ⟨-, h⟩
  · exact carriesFields_of_cmdC hz h hop rfl
  rcases ite_eq_iff.mp h with ⟨hop, h⟩ | ⟨-, h⟩
  · exact carriesFields_of_cmd0 hz h hop rfl
  rcases ite_eq_iff.mp h with ⟨hop, h⟩ | ⟨-, h⟩
  · exact carriesFields_of_cmd0 hz h hop rfl
  rcases ite_eq_iff.mp h with ⟨hop, h⟩ | ⟨-, h⟩
  · exact carriesFields_of_cmd0 hz h hop rfl
  rcases ite_eq_iff.mp h with ⟨hop, h⟩ | ⟨-, h⟩
  · exact carriesFields_of_cmd0 hz h hop rfl
  · cases h

/-- The three fields make up the word (R90). -/
theorem append_fields (w : Word) : zeroField w ++ chField w ++ opField w = w := by
  refine BitVec.eq_of_getLsbD_eq fun k hk => ?_
  rw [BitVec.getLsbD_append, BitVec.getLsbD_append]
  simp only [zeroField, chField, opField, BitVec.getLsbD_extractLsb']
  grind

/-- A word that decodes to a command is that command's encoding. -/
theorem encode_of_decode {w : Word} {i : Instr} (h : Sys2Proof.decode w = .ok i) : Sys2Proof.encode i = w := by
  obtain ⟨hz, hch, hop⟩ := carriesFields_of_decode h
  calc Sys2Proof.encode i = zeroField w ++ chField w ++ opField w := by rw [hz, hch, hop]; rfl
    _ = w := append_fields w

theorem checkWord_of_decode {w : Word} {i : Instr} (s : State) (h : Sys2Proof.decode w = .ok i) :
    checkWord w s = check i s := by
  simp only [checkWord, h]

theorem checkWord_of_illegal {w : Word} {e : DecodeError} (s : State) (h : Sys2Proof.decode w = .error e) :
    checkWord w s = some .illegalCommand := by
  simp only [checkWord, h]

/-- The checks of a word give none of the reserved kinds (60_exceptions.md R224). -/
theorem checkWord_produced {w : Word} {s : State} {k : FaultKind} (h : checkWord w s = some k) :
    k.code ∈ producedCodes := by
  cases hd : Sys2Proof.decode w with
  | error e =>
    rw [checkWord_of_illegal s hd] at h
    obtain rfl := Option.some.inj h
    decide
  | ok i => exact check_produced ((checkWord_of_decode s hd).symm.trans h)

/-- A write to `CMD` with `BUSY = 0` and `ERR = 0` issues its word, legal or not (30_encoding.md R95). -/
theorem writeCmd_issues {w : Word} {s : State} (hb : s.status.busy = false) (he : s.status.err = false) :
    writeCmd w s = .next (issue w (checkWord w s) s) := by
  rcases writeCmd_cases (w := w) hb with ⟨he', -⟩ | ⟨-, i, hd, hw⟩ | ⟨-, ⟨e, hd⟩, hw⟩
  · rw [he] at he'; cases he'
  · rw [hw, encode_of_decode hd, checkWord_of_decode s hd]
  · rw [hw, checkWord_of_illegal s hd]

theorem sameConfig_refl (s : State) : s.sameConfig s := ⟨rfl, rfl, rfl, rfl, rfl, rfl, rfl, rfl⟩

/-- Taking a transaction off the list and answering it changes no check. -/
theorem checkWord_reply (s : State) (w : Word) (rest : List Arrival) (r : Reply) :
    checkWord w ((s.withPending rest).reply r) = checkWord w s :=
  checkWord_congr (sameConfig_refl s) w

/-! ### The words of `STATUS` and `CTRL` -/

/-- `STATUS` bit by bit (10_state.md R25). -/
theorem status_word_getLsbD (t : Status) (k : Nat) :
    t.word.getLsbD k =
      if k = 0 then t.busy
      else if k = 1 then t.done
      else if k = 2 then t.err
      else if k = 3 then t.ovr
      else if k = 4 then t.empty
      else if 8 ≤ k then t.errCode.getLsbD (k - 8)
      else false := by
  unfold Status.word
  rw [BitVec.getLsbD_append]
  simp only [BitVec.getLsbD_append]
  rcases Nat.lt_or_ge k 5 with hlow | hhigh
  · interval_cases k <;> simp
  · rw [if_neg (by omega), if_neg (by omega), if_neg (by omega), if_neg (by omega), if_neg (by omega)]
    grind

/-- A field of `STATUS` above the flags. -/
theorem status_word_field (t : Status) {lo : Nat} (hlo : 5 ≤ lo) (n : Nat) {k : Nat} (hk : k < n) :
    (t.word.extractLsb' lo n)[k] = if 8 ≤ lo + k then t.errCode.getLsbD (lo + k - 8) else false := by
  rw [BitVec.getElem_extractLsb', status_word_getLsbD]
  rw [if_neg (by omega), if_neg (by omega), if_neg (by omega), if_neg (by omega), if_neg (by omega)]

theorem status_word_errCode (t : Status) : t.word.extractLsb' 8 8 = t.errCode := by
  ext k hk
  rw [status_word_field t (by omega) 8 hk, if_pos (by omega), Nat.add_sub_cancel_left, BitVec.getLsbD_eq_getElem]

theorem status_word_reserved (t : Status) : t.word.extractLsb' 5 3 = 0#3 ∧ t.word.extractLsb' 16 16 = 0#16 := by
  constructor
  · ext k hk
    rw [status_word_field t (by omega) 3 hk, if_neg (by omega), BitVec.getElem_zero]
  · ext k hk
    rw [status_word_field t (by omega) 16 hk, if_pos (by omega), BitVec.getElem_zero, BitVec.getLsbD_of_ge]
    omega

/-- `CTRL` bit by bit (R26). -/
theorem ctrl_word_getLsbD (c : Ctrl) (k : Nat) :
    c.word.getLsbD k = if k = 1 then c.ieDone else if k = 2 then c.ieErr else false := by
  unfold Ctrl.word
  rw [BitVec.getLsbD_append]
  simp only [BitVec.getLsbD_append]
  grind

theorem ctrl_word_reserved (c : Ctrl) : c.word.extractLsb' 3 29 = 0#29 := by
  ext k hk
  rw [BitVec.getElem_extractLsb', ctrl_word_getLsbD, if_neg (by omega), if_neg (by omega), BitVec.getElem_zero]

/-- Of a word written to `CTRL`, bits 1 and 2 read back (R26). -/
theorem ofWord_word (w : Word) : (Ctrl.ofWord w).word = w &&& 0x00000006#32 := by
  have hmask : ∀ k, k < 32 → (0x00000006#32).getLsbD k = decide (k = 1 ∨ k = 2) := by decide
  refine BitVec.eq_of_getLsbD_eq fun k hk => ?_
  rw [ctrl_word_getLsbD, BitVec.getLsbD_and, hmask k hk, Ctrl.ofWord]
  grind

/-! ### Reads and writes of registers -/

/-- The reserved registers read 0 (10_state.md R21). -/
theorem readReg_reserved (s : State) {i : Nat} (hi : 11 ≤ i) : s.readReg i = 0#32 := by
  obtain ⟨k, rfl⟩ := Nat.exists_eq_add_of_le' hi
  rfl

/-- The registers after reset (R21). -/
theorem reset_readReg (i : Nat) : State.reset.readReg i = resetValue i := by
  rcases Nat.lt_or_ge i 11 with hlow | hhigh
  · interval_cases i <;> rfl
  · obtain ⟨k, rfl⟩ := Nat.exists_eq_add_of_le' hhigh
    rfl

/-- A configuration register reads back the word written (R27 to R31). -/
theorem writeReg_readReg_same (s : State) {i : Nat} (w : Word) (hi : 3 ≤ i ∧ i ≤ 10) :
    (s.writeReg i w).readReg i = w := by
  obtain ⟨hlow, hhigh⟩ := hi
  interval_cases i <;> rfl

/-- `STATUS` and the reserved registers ignore a write (R21, R25). -/
theorem writeReg_ignored (s : State) {i : Nat} (w : Word) (hi : i = 1 ∨ 11 ≤ i) : s.writeReg i w = s := by
  rcases hi with rfl | hi
  · rfl
  · obtain ⟨k, rfl⟩ := Nat.exists_eq_add_of_le' hi
    rfl

/-- A write to `CTRL` with `SRST` = 0 stores the two enables (R26). -/
theorem writeReg_ctrl (s : State) {w : Word} (hw : srstBit w = false) :
    s.writeReg 2 w = { s with ctrl := Ctrl.ofWord w } := by
  unfold State.writeReg State.writeCtrl
  rw [hw]
  rfl

/-- A write to `CTRL` with `SRST` = 1 is the soft reset (R26). -/
theorem writeReg_softReset (s : State) {w : Word} (hw : srstBit w = true) : s.writeReg 2 w = softReset s := by
  unfold State.writeReg State.writeCtrl
  rw [hw]
  rfl

/-- The register writes that are no soft reset. -/
abbrev PlainWrite (i : Nat) (w : Word) : Prop := i ≠ 2 ∨ srstBit w = false

/-- A register write that is no soft reset leaves every other register. -/
theorem writeReg_readReg_ne (s : State) {i j : Nat} {w : Word} (h : PlainWrite i w) (hj : j ≠ i) :
    (s.writeReg i w).readReg j = s.readReg j := by
  by_cases h2 : i = 2
  · subst h2
    rw [writeReg_ctrl s (h.resolve_left (absurd rfl))]
    unfold State.readReg
    split <;> simp_all
  · unfold State.writeReg State.readReg
    split
    case h_12 => rfl
    all_goals split <;> simp_all

/-- A register write that is no soft reset leaves `STATUS` and the buffers. -/
theorem writeReg_status_mem (s : State) {i : Nat} {w : Word} (h : PlainWrite i w) :
    (s.writeReg i w).status = s.status ∧ (s.writeReg i w).mem = s.mem ∧ (s.writeReg i w).epoch = s.epoch := by
  unfold State.writeReg
  split
  · unfold State.writeCtrl
    rw [h.resolve_left (absurd rfl)]
    exact ⟨rfl, rfl, rfl⟩
  all_goals exact ⟨rfl, rfl, rfl⟩

/-- A register write that is no soft reset leaves `CMD`: a write to `CMD` is no register write but an issue (R24). -/
theorem writeReg_cmd (s : State) {i : Nat} {w : Word} (h : PlainWrite i w) : (s.writeReg i w).cmd = s.cmd := by
  unfold State.writeReg
  split
  · unfold State.writeCtrl
    rw [h.resolve_left (absurd rfl)]
    rfl
  all_goals rfl

/-! ### The port -/

/-- A legal access is of 32 bits, aligned, and in the window of its address (20_memory.md R61, R62). -/
theorem busTarget_eq_some {addr : Word} {width : Nat} {win : Window} (h : busTarget addr width = some win) :
    width = 4 ∧ addr.toNat % 4 = 0 ∧ windowOf addr.toNat = some win := by
  unfold busTarget at h
  split at h
  · rename_i hlegal
    exact ⟨hlegal.1, hlegal.2, h⟩
  · cases h

/-- The address of register `i` (10_state.md R21). -/
theorem toNat_regAddr {i : Nat} (hi : i < 1024) : (BitVec.ofNat 32 (4 * i)).toNat = 4 * i := by
  rw [BitVec.toNat_ofNat]
  omega

theorem busTarget_regAddr {i : Nat} (hi : i < 1024) : busTarget (BitVec.ofNat 32 (4 * i)) 4 = some .reg := by
  unfold busTarget
  rw [toNat_regAddr hi, if_pos ⟨rfl, by omega⟩, windowOf, if_pos (by omega)]

/-- The next event is the transaction that lands (20_memory.md R75). -/
theorem step_of_lands {s : State} {op : HostOp} {rest : List Arrival} (h : lands op rest s) :
    step s = serve op (s.withPending rest) := by
  obtain ⟨ov, hp, hov⟩ := h
  have hserve : ¬ (s.status.busy = true ∧ ov = false) := by
    rintro ⟨hb, ho⟩
    rw [hov hb] at ho
    cases ho
  simp only [step, nextEvent, hp, hserve, if_false]

/-- A read of register `i` returns it, with a command in flight or not (R64, R72). -/
theorem step_reads_register {s : State} {i : Nat} {rest : List Arrival} (hi : i < 1024)
    (h : lands (.read (BitVec.ofNat 32 (4 * i)) 4) rest s) :
    step s = .next ((s.withPending rest).reply (.data (s.readReg i))) := by
  have hindex : 4 * i / 4 = i := by omega
  rw [step_of_lands h]
  simp only [serve, busRead, busTarget_regAddr hi, toNat_regAddr hi, hindex]
  rfl

/-- A write to a register other than `CMD` with `BUSY` = 0 (R64). -/
theorem step_writes_register {s : State} {i : Nat} {w : Word} {rest : List Arrival} (h0 : i ≠ 0) (hi : i < 1024)
    (hb : s.status.busy = false) (h : lands (.write (BitVec.ofNat 32 (4 * i)) 4 w) rest s) :
    step s = .next (((s.withPending rest).writeReg i w).reply .written) := by
  have hindex : 4 * i / 4 = i := by omega
  have hcmd : ¬ 4 * i = 0 := by omega
  rw [step_of_lands h]
  simp [serve, busWrite, busTarget_regAddr hi, toNat_regAddr hi, hindex, hcmd, hb]

/-- A write to a register with `BUSY` = 1 is dropped and sets `OVR` (R64). -/
theorem step_drops_write {s : State} {i : Nat} {w : Word} {rest : List Arrival} (hi : i < 1024)
    (hb : s.status.busy = true) (h : lands (.write (BitVec.ofNat 32 (4 * i)) 4 w) rest s) :
    step s = .next ((s.withPending rest).setOvr.reply .written) := by
  rw [step_of_lands h]
  simp [serve, busWrite, busTarget_regAddr hi, hb]

/-! ### What a step can do -/

/-- The seven things a step can do to a state. -/
inductive StepCase (s : State) : State → Prop
  /-- An idle wait, a read, a bus error or a dropped write: nothing of the CORE changes but `OVR`. -/
  | answered (ovr : Bool) (reads : Nat) (rest : List Arrival) (answers : List Reply) :
      StepCase s
        { s with
          status := { s.status with ovr := ovr }
          freeReads := reads
          pending := rest
          replies := answers }
  /-- The completion of the command in flight (30_encoding.md R97). -/
  | completed {i : Instr} (busy : s.status.busy = true) (decoded : Sys2Proof.decode s.cmd = .ok i)
      (legal : i.wellFormed = true) : StepCase s (complete (effectOf i s))
  /-- The reset input is asserted (70_reset_and_hazards.md R250). -/
  | hardReset {rest : List Arrival} (event : lands .hardReset rest s) : StepCase s (hardReset (s.withPending rest))
  /-- A write of `SRST` = 1 to `CTRL` (R251). -/
  | softReset {w : Word} {rest : List Arrival} (event : lands (.write 0x00000008#32 4 w) rest s)
      (idle : s.status.busy = false) (srst : srstBit w = true) :
      StepCase s ((softReset (s.withPending rest)).reply .written)
  /-- A write to `CMD` of an idle CORE with no fault recorded (30_encoding.md R95). -/
  | issued {w : Word} {rest : List Arrival} (event : lands (.write 0x00000000#32 4 w) rest s)
      (idle : s.status.busy = false) (noFault : s.status.err = false) :
      StepCase s (issue w (checkWord w s) ((s.withPending rest).reply .written))
  /-- A write to any other register (10_state.md R25 to R31). -/
  | configured {i : Nat} {w : Word} {rest : List Arrival} (idle : s.status.busy = false) (plain : PlainWrite i w) :
      StepCase s (((s.withPending rest).writeReg i w).reply .written)
  /-- A write to a buffer (20_memory.md R71). -/
  | stored {addr w : Word} {rest : List Arrival} {win : Window} (event : lands (.write addr 4 w) rest s)
      (idle : s.status.busy = false) (target : busTarget addr 4 = some win) (buffer : win ≠ .reg) :
      StepCase s (((s.withPending rest).storeWord addr.toNat w).reply .written)

/-- A read changes nothing of the CORE but `OVR`. -/
theorem stepCase_of_busRead (addr : Word) (width : Nat) (s : State) (rest : List Arrival) :
    StepCase s (busRead addr width (s.withPending rest)) := by
  rcases busRead_cases addr width (s.withPending rest) with ⟨-, h⟩ | ⟨-, h⟩ | ⟨_, -, -, -, h⟩ | ⟨_, -, -, -, h⟩
  · rw [h]; exact .answered s.status.ovr s.freeReads rest _
  · rw [h]; exact .answered s.status.ovr s.freeReads rest _
  · rw [h]; exact .answered s.status.ovr s.freeReads rest _
  · rw [h]; exact .answered true (s.freeReads + 1) rest _

/-- A write to `CMD` of an idle CORE is an issue, or is dropped while a fault is recorded (30_encoding.md R95, R96). -/
theorem stepCase_of_writeCmd {s t : State} {w : Word} {rest : List Arrival}
    (hl : lands (.write 0x00000000#32 4 w) rest s) (hb : s.status.busy = false)
    (h : writeCmd w ((s.withPending rest).reply .written) = .next t) : StepCase s t := by
  cases he : s.status.err with
  | true =>
    rw [writeCmd, if_pos (show ((s.withPending rest).reply .written).status.err = true from he)] at h
    obtain rfl := Host.Outcome.next.inj h
    exact .answered true s.freeReads rest _
  | false =>
    rw [writeCmd_issues (s := (s.withPending rest).reply .written) hb he, checkWord_reply] at h
    obtain rfl := Host.Outcome.next.inj h
    exact .issued hl hb he

/-- A write to a register other than `CMD` of an idle CORE is a soft reset or stores its word (10_state.md R25 to
R31). -/
theorem stepCase_of_writeReg {s : State} {addr w : Word} {rest : List Arrival} (hl : lands (.write addr 4 w) rest s)
    (hb : s.status.busy = false) (haligned : addr.toNat % 4 = 0) :
    StepCase s (((s.withPending rest).writeReg (addr.toNat / 4) w).reply .written) := by
  by_cases hreset : addr.toNat / 4 = 2 ∧ srstBit w = true
  · obtain ⟨hindex, hsrst⟩ := hreset
    have haddr : addr = 0x00000008#32 :=
      BitVec.eq_of_toNat_eq (show addr.toNat = 8 by omega)
    subst haddr
    rw [hindex, writeReg_softReset _ hsrst]
    exact .softReset hl hb hsrst
  · exact .configured hb (by simpa [PlainWrite, imp_iff_not_or] using hreset)

/-- All that a write can do (20_memory.md R62, R64, R65, R71). -/
theorem stepCase_of_busWrite {s t : State} {addr w : Word} {width : Nat} {rest : List Arrival}
    (hl : lands (.write addr width w) rest s) (h : busWrite addr width w (s.withPending rest) = .next t) :
    StepCase s t := by
  rcases busWrite_cases addr width w (s.withPending rest) with
    ⟨-, he⟩ | ⟨-, -, he⟩ | ⟨hb, ht, haddr, he⟩ | ⟨hb, ht, -, he⟩ | ⟨win, hwin, hb, ht, he⟩
  · obtain rfl := Host.Outcome.next.inj (he.symm.trans h)
    exact .answered s.status.ovr s.freeReads rest _
  · obtain rfl := Host.Outcome.next.inj (he.symm.trans h)
    exact .answered true s.freeReads rest _
  · obtain ⟨rfl, -, -⟩ := busTarget_eq_some ht
    obtain rfl : addr = 0x00000000#32 := BitVec.eq_of_toNat_eq haddr
    exact stepCase_of_writeCmd hl hb (he.symm.trans h)
  · obtain ⟨rfl, haligned, -⟩ := busTarget_eq_some ht
    obtain rfl := Host.Outcome.next.inj (he.symm.trans h)
    exact stepCase_of_writeReg hl hb haligned
  · obtain ⟨rfl, -, -⟩ := busTarget_eq_some ht
    obtain rfl := Host.Outcome.next.inj (he.symm.trans h)
    exact .stored hl hb ht hwin

/-- Every step with a next state does one of the seven things. -/
theorem stepCase_of_step {s t : State} (h : step s = .next t) : StepCase s t := by
  rcases step_cases s with ⟨-, -, hwait⟩ | ⟨hb, -, hdone⟩ | ⟨x, rest, hp, hov, hserve⟩
  · obtain rfl := Host.Outcome.next.inj (hwait.symm.trans h)
    exact .answered s.status.ovr s.freeReads s.pending s.replies
  · rw [hdone] at h
    rcases completeInFlight_cases hb with ⟨i, hd, hlegal, hi⟩ | ⟨hstop, -⟩
    · obtain rfl := Host.Outcome.next.inj (hi.symm.trans h)
      exact .completed hb hd hlegal
    · rw [hstop] at h; cases h
  · rw [hserve] at h
    obtain ⟨op, ov⟩ := x
    have hl : lands op rest s := ⟨ov, hp, hov⟩
    cases op with
    | read addr width =>
      obtain rfl := Host.Outcome.next.inj h
      exact stepCase_of_busRead addr width s rest
    | write addr width w => exact stepCase_of_busWrite hl h
    | hardReset =>
      obtain rfl := Host.Outcome.next.inj h
      exact .hardReset hl

theorem resetEvent_of_softReset {s : State} {w : Word} {rest : List Arrival}
    (hl : lands (.write 0x00000008#32 4 w) rest s) (hb : s.status.busy = false) (hw : srstBit w = true) :
    resetEvent s := ⟨rest, .inr ⟨w, hw, hb, hl⟩⟩

theorem resetEvent_of_hardReset {s : State} {rest : List Arrival} (hl : lands .hardReset rest s) : resetEvent s :=
  ⟨rest, .inl hl⟩

/-! ### The invariant -/

theorem flightLegal_of_idle {s : State} (h : s.status.busy = false) : s.flightLegal := by
  intro hb
  rw [h] at hb
  cases hb

/-- The legality of the command in flight rests on `BUSY`, `CMD` and the configuration only. -/
theorem flightLegal_congr {s t : State} (hb : t.status.busy = s.status.busy) (hcmd : t.cmd = s.cmd)
    (hconfig : s.sameConfig t) (h : s.flightLegal) : t.flightLegal := by
  intro hbusy
  rw [hcmd, checkWord_congr hconfig]
  exact h (hb.symm.trans hbusy)

theorem consistent_reset : Status.reset.consistent := by decide

/-- A completion leaves a consistent `STATUS` (30_encoding.md R97): a command in flight has no fault recorded. -/
theorem consistent_completion {t : Status} (h : t.consistent) (hb : t.busy = true) (e : Bool) :
    ({ t with busy := false, done := true, empty := e } : Status).consistent := by
  obtain ⟨hbusy, -, -, hcode⟩ := h
  obtain ⟨-, herr⟩ := hbusy hb
  exact ⟨by simp, fun _ => herr, by simp [herr], hcode⟩

/-- A fault raised at issue leaves a consistent `STATUS` (60_exceptions.md R226). -/
theorem consistent_fault {t : Status} (hb : t.busy = false) {k : FaultKind} (hk : k.code ∈ producedCodes) :
    ({ t with done := false, err := true, errCode := k.code } : Status).consistent :=
  ⟨by simp [hb], by simp, fun _ => hk, by simp⟩

/-- An accepted issue leaves a consistent `STATUS` (30_encoding.md R95). -/
theorem consistent_accept {t : Status} (h : t.consistent) (he : t.err = false) :
    ({ t with done := false, busy := true } : Status).consistent := by
  obtain ⟨-, -, -, hcode⟩ := h
  exact ⟨fun _ => ⟨rfl, he⟩, by simp, by simp [he], hcode⟩

/-- An issue of an idle CORE with no fault recorded keeps the invariant, whatever the word (R94, R95, R226). -/
theorem issue_inv {s : State} (w : Word) (h : s.inv) (hb : s.status.busy = false) (he : s.status.err = false) :
    (issue w (checkWord w s) s).inv := by
  obtain ⟨hwf, hcons, -⟩ := h
  cases hc : checkWord w s with
  | some k => exact ⟨hwf, consistent_fault (t := s.status) hb (checkWord_produced hc), flightLegal_of_idle hb⟩
  | none =>
    have hcheck : checkWord w (issue w none s) = checkWord w s :=
      checkWord_congr (sameConfig_refl s) w
    exact ⟨hwf, consistent_accept (t := s.status) hcons he, fun _ => hcheck.trans hc⟩

/-- The invariant rests on the buffers, `STATUS` but `OVR`, `CMD` and the configuration. -/
theorem inv_answered {s : State} (h : s.inv) (ovr : Bool) (reads : Nat) (rest : List Arrival) (answers : List Reply) :
    State.inv { s with
      status := { s.status with ovr := ovr }
      freeReads := reads
      pending := rest
      replies := answers } := by
  obtain ⟨hwf, hcons, hflight⟩ := h
  exact ⟨hwf, hcons, flightLegal_congr rfl rfl (sameConfig_refl s) hflight⟩

/-- The completion of a command in flight keeps the invariant (R97). -/
theorem complete_inv {s : State} (i : Instr) (h : s.inv) (hb : s.status.busy = true) :
    (complete (effectOf i s)).inv := by
  obtain ⟨hwf, hcons, -⟩ := h
  obtain ⟨-, hstatus⟩ := completion_same i s
  refine ⟨effectOf_wf i s hwf, ?_, flightLegal_of_idle rfl⟩
  rw [hstatus]
  exact consistent_completion hcons hb _

/-- Settles O40: each of the seven things a step can do keeps the canonical buffers, a consistent `STATUS` and the
legality of a command in flight; only an issue puts one in flight, and only after its checks. -/
theorem stepKeepsInvariant : Obligations.StepKeepsInvariant := by
  intro s t hinv hstep
  have ⟨hwf, hcons, _⟩ := hinv
  cases stepCase_of_step hstep with
  | answered ovr reads rest answers => exact inv_answered hinv ovr reads rest answers
  | completed busy => exact complete_inv _ hinv busy
  | hardReset => exact ⟨hardReset_wf _, consistent_reset, flightLegal_of_idle rfl⟩
  | @softReset _ rest =>
    exact ⟨softReset_wf (s := s.withPending rest) hwf, consistent_reset, flightLegal_of_idle rfl⟩
  | @issued w rest _ idle noFault =>
    have hanswered : ((s.withPending rest).reply .written).inv := inv_answered hinv s.status.ovr s.freeReads rest _
    have hissue := issue_inv w hanswered idle noFault
    rwa [checkWord_reply] at hissue
  | @configured i w rest idle plain =>
    obtain ⟨hstatus, hmem, -⟩ := writeReg_status_mem (s.withPending rest) plain
    have hs : (((s.withPending rest).writeReg i w).reply .written).status = s.status := hstatus
    refine ⟨writeReg_wf (s := s.withPending rest) hwf i w, ?_, flightLegal_of_idle ?_⟩
    · rw [hs]; exact hcons
    · rw [hs]; exact idle
  | @stored addr w rest _ _ idle =>
    exact ⟨storeWord_wf (s := s.withPending rest) hwf addr.toNat w, hcons, flightLegal_of_idle idle⟩

/-- Settles O39: no cell is listed, `STATUS` is 0 and nothing is in flight. -/
theorem resetMeetsInvariant : Obligations.ResetMeetsInvariant :=
  ⟨wf_nil, consistent_reset, flightLegal_of_idle rfl⟩

/-! ### The register window -/

/-- Settles O13: reads and writes at the port are `readReg` and `writeReg` of the index, and the two words with fields
are known bit by bit. -/
theorem registerWindow : Obligations.RegisterWindow := by
  refine ⟨fun i _ => reset_readReg i, ?read, ?write, fun s i hi => readReg_reserved s hi, ?fields⟩
  case read =>
    intro s i rest hi hl
    exact step_reads_register hi hl
  case write =>
    intro s i w rest hi hb hl
    refine ⟨fun hconfig => ?_, fun hignored => ?_⟩
    · have hplain : PlainWrite i w := .inl (by omega)
      obtain ⟨-, hmem, hepoch⟩ := writeReg_status_mem (s.withPending rest) hplain
      exact ⟨_, step_writes_register (by omega) hi hb hl, writeReg_readReg_same (s.withPending rest) w hconfig,
        fun j hj => writeReg_readReg_ne (s.withPending rest) hplain hj, hmem, hepoch⟩
    · rw [step_writes_register (by omega) hi hb hl, writeReg_ignored _ w hignored]
      rfl
  case fields =>
    intro s
    obtain ⟨hlow, hhigh⟩ := status_word_reserved s.status
    have hstatus := status_word_getLsbD s.status
    have hctrl := ctrl_word_getLsbD s.ctrl
    exact ⟨rfl,
      ⟨hstatus 0, hstatus 1, hstatus 2, hstatus 3, hstatus 4, hlow, status_word_errCode s.status, hhigh⟩,
      ⟨hctrl 0, hctrl 1, hctrl 2, ctrl_word_reserved s.ctrl⟩, rfl, rfl, rfl, rfl, rfl, rfl, rfl, rfl⟩

/-- Settles O14: the three cases of a write to `CTRL`. -/
theorem ctrlWrite : Obligations.CtrlWrite := by
  refine ⟨rfl, fun s w rest hl => ⟨fun hb hw => ?enables, fun hb hw => ?reset, fun hb => ?busy⟩⟩
  case enables =>
    have hplain : PlainWrite 2 w := .inr hw
    have hstep := step_writes_register (i := 2) (by omega) (by omega) hb hl
    have hothers := fun j (hj : j ≠ 2) => writeReg_readReg_ne (s.withPending rest) hplain hj
    rw [writeReg_ctrl _ hw] at hstep hothers
    exact ⟨_, hstep, ofWord_word w, rfl, rfl, hothers, rfl, rfl⟩
  case reset =>
    have hstep := step_writes_register (i := 2) (by omega) (by omega) hb hl
    rw [writeReg_softReset _ hw] at hstep
    exact ⟨_, hstep, (softReset_registers (s.withPending rest) 2).trans (reset_readReg 2), rfl, rfl, rfl⟩
  case busy => exact step_drops_write (i := 2) (by omega) hb hl

/-! ### The state after reset -/

/-- With no cell listed, a byte with reset contents holds them (R35 to R37). -/
theorem reset_byte {a : Nat} {b : Byte} (hs : stored a = true) (hr : resetByte a = some b) :
    State.reset.byte a = b :=
  byte_of_get?_none (get?_nil a) hr hs

theorem reset_byte_pin {k : Nat} (hk : k < 256) : State.reset.byte (0x1000 + k) = pinReset k :=
  reset_byte (stored_pin hk) (resetByte_pin hk)

theorem reset_byte_pout {k : Nat} (hk : k < 256) : State.reset.byte (0x1100 + k) = 0x00#8 :=
  reset_byte (stored_pout hk) (resetByte_pout hk)

theorem reset_byte_counters {k : Nat} (hk : k < 0x2000) :
    State.reset.byte (0x4000 + k) = 0x00#8 ∧ State.reset.byte (0x6000 + k) = 0x00#8 :=
  ⟨reset_byte (stored_ones hk) (resetByte_ones hk), reset_byte (stored_total hk) (resetByte_total hk)⟩

theorem byteOf_zero (k : Nat) : byteOf 0#32 k = 0x00#8 := by
  unfold byteOf
  exact BitVec.extractLsb'_zero ..

/-- After reset the counters are 0 (R37). -/
theorem reset_word_counters {p : Nat} (hp : p < 2048) :
    State.reset.word (0x4000 + 4 * p) = 0#32 ∧ State.reset.word (0x6000 + 4 * p) = 0#32 := by
  constructor <;> refine word_of_bytes fun k hk => ?_
  · rw [Nat.add_assoc, (reset_byte_counters (by omega)).1, byteOf_zero]
  · rw [Nat.add_assoc, (reset_byte_counters (by omega)).2, byteOf_zero]

theorem pinReset_of_le {k : Nat} (hk : 4 ≤ k) : pinReset k = 0x00#8 := by
  unfold pinReset
  rw [if_neg (by omega), if_neg (by omega), if_neg (by omega), if_neg (by omega)]

/-- Settles O17: with no cell listed every byte that has reset contents holds them. -/
theorem resetState : Obligations.ResetState := by
  refine ⟨reset_readReg, ⟨?_, ?_, ?_, ?_, ?_, ?_, ?_⟩, rfl, rfl⟩
  · exact reset_byte_pin (k := 0) (by omega)
  · exact reset_byte_pin (k := 1) (by omega)
  · exact reset_byte_pin (k := 2) (by omega)
  · exact reset_byte_pin (k := 3) (by omega)
  · exact fun k h4 hk => (reset_byte_pin hk).trans (pinReset_of_le h4)
  · exact fun k hk => reset_byte_pout hk
  · exact fun p hp => reset_word_counters hp

/-! ### The payload input -/

/-- An effect that changes no byte below `POUT`, so none of `PIN`. -/
def LeavesBelowPout (e : State → State) : Prop := ∀ (s : State) (a : Nat), a < poutBase → (e s).byte a = s.byte a

theorem LeavesBelowPout.comp {e f : State → State} (he : LeavesBelowPout e) (hf : LeavesBelowPout f) :
    LeavesBelowPout (fun s => e (f s)) :=
  fun s a ha => (he (f s) a ha).trans (hf s a ha)

theorem LeavesBelowPout.foldl {α : Type} {g : State → α → State} (hg : ∀ x, LeavesBelowPout (fun s => g s x))
    (l : List α) : LeavesBelowPout (fun s => l.foldl g s) := by
  induction l with
  | nil => exact fun _ _ _ => rfl
  | cons x l ih => exact LeavesBelowPout.comp ih (hg x)

theorem not_planeBytes_of_lt {s : State} {a : Nat} (ha : a < poutBase) (ch : Channel) : ¬ s.planeBytes ch a := by
  unfold State.planeBytes within
  rw [planeBase_eq]
  unfold poutBase at ha
  omega

theorem not_subbandBytes_of_lt {s : State} {a : Nat} (ha : a < poutBase) : ¬ s.subbandBytes a := by
  rintro ⟨b, hlow, -⟩
  rw [subbandBase_eq] at hlow
  unfold poutBase at ha
  omega

theorem leavesBelowPout_rgb2yuv : LeavesBelowPout rgb2yuvEffect := fun s _ ha =>
  rgb2yuv_byte s (not_planeBytes_of_lt ha)

theorem leavesBelowPout_yuv2rgb : LeavesBelowPout yuv2rgbEffect := by
  intro s a ha
  refine yuv2rgb_byte s (.inl ?_)
  unfold State.gridBytes within rgbBase
  unfold poutBase at ha
  omega

theorem leavesBelowPout_subsamp : LeavesBelowPout subsampEffect := fun s _ ha =>
  subsamp_byte s (fun ch _ => not_planeBytes_of_lt ha ch)

theorem leavesBelowPout_dwtfwd (ch : Channel) : LeavesBelowPout (dwtfwdEffect ch) := fun s _ ha =>
  dwtfwd_byte s ch (not_subbandBytes_of_lt ha)

theorem leavesBelowPout_dwtinv (ch : Channel) : LeavesBelowPout (dwtinvEffect ch) := by
  intro s a ha
  refine dwtinv_byte s ch ?_
  rintro ⟨r, c, -, -, rfl⟩
  unfold sampleAddr at ha
  rw [planeBase_eq] at ha
  unfold poutBase at ha
  omega

theorem leavesBelowPout_embed (ch : Channel) : LeavesBelowPout (embedEffect ch) := by
  intro s a ha
  refine embed_byte s ch (.inr ?_)
  rintro ⟨i, -, hlow, -⟩
  unfold subbandAddr at hlow
  rw [subbandBase_eq] at hlow
  unfold poutBase at ha
  omega

theorem leavesBelowPout_appendVote (p : Nat) (b : Bool) : LeavesBelowPout (appendVote p b) := by
  intro s a ha
  unfold poutBase at ha
  refine appendVote_byte s p b ?_ ?_
  · unfold within onesAddr onesBase; omega
  · unfold within totalAddr totalBase; omega

theorem leavesBelowPout_extract (ch : Channel) : LeavesBelowPout (extractEffect ch) := by
  intro s a ha
  unfold extractEffect
  split
  · rfl
  · exact LeavesBelowPout.foldl (g := extractBlock ch)
      (fun i t a ha => leavesBelowPout_appendVote _ (t.blockVote ch i) t a ha) _ s a ha

theorem leavesBelowPout_vclear : LeavesBelowPout vclearEffect := by
  intro s a ha
  refine vclear_byte_of_not s ?_
  unfold allVoteBytes within onesBase totalBase
  unfold poutBase at ha
  omega

theorem leavesBelowPout_tally : LeavesBelowPout tallyEffect := by
  intro s a ha
  unfold tallyEffect
  rw [byte_setEmpty, byte_fill_of_lt _ _ _ (.inl ha), withMem_self]

theorem leavesBelowPout_encodeChannel (ch : Channel) : LeavesBelowPout (fun s => encodeChannel s ch) := by
  intro s a ha
  show (encodeChannel s ch).byte a = s.byte a
  unfold encodeChannel
  split
  · exact (leavesBelowPout_dwtinv ch).comp ((leavesBelowPout_embed ch).comp (leavesBelowPout_dwtfwd ch)) s a ha
  · rfl

theorem leavesBelowPout_decodeChannel (ch : Channel) : LeavesBelowPout (fun s => decodeChannel s ch) := by
  intro s a ha
  show (decodeChannel s ch).byte a = s.byte a
  unfold decodeChannel
  split
  · exact (leavesBelowPout_extract ch).comp (leavesBelowPout_dwtfwd ch) s a ha
  · rfl

theorem leavesBelowPout_encode : LeavesBelowPout encodeEffect :=
  leavesBelowPout_yuv2rgb.comp ((LeavesBelowPout.foldl leavesBelowPout_encodeChannel Channel.all).comp
    (leavesBelowPout_subsamp.comp leavesBelowPout_rgb2yuv))

theorem leavesBelowPout_decode : LeavesBelowPout decodeEffect :=
  leavesBelowPout_tally.comp ((LeavesBelowPout.foldl leavesBelowPout_decodeChannel Channel.all).comp
    (leavesBelowPout_vclear.comp leavesBelowPout_rgb2yuv))

theorem leavesBelowPout_channel {g : Channel → State → State} (hg : ∀ ch, LeavesBelowPout (g ch))
    (o : Option Channel) : LeavesBelowPout (fun s => o.elim s (fun ch => g ch s)) := by
  cases o with
  | none => exact fun _ _ _ => rfl
  | some ch => exact hg ch

/-- No command writes below `POUT`, whatever the configuration: every window it writes begins there or above
(70_reset_and_hazards.md R258). -/
theorem leavesBelowPout_effectOf (i : Instr) : LeavesBelowPout (effectOf i) := by
  cases i with
  | nop => exact fun _ _ _ => rfl
  | rgb2yuv => exact leavesBelowPout_rgb2yuv
  | yuv2rgb => exact leavesBelowPout_yuv2rgb
  | subsamp => exact leavesBelowPout_subsamp
  | dwtfwd f => exact leavesBelowPout_channel leavesBelowPout_dwtfwd _
  | dwtinv f => exact leavesBelowPout_channel leavesBelowPout_dwtinv _
  | embed f => exact leavesBelowPout_channel leavesBelowPout_embed _
  | extract f => exact leavesBelowPout_channel leavesBelowPout_extract _
  | vclear => exact leavesBelowPout_vclear
  | tally => exact leavesBelowPout_tally
  | encode => exact leavesBelowPout_encode
  | decode => exact leavesBelowPout_decode

theorem windowOf_pin {k : Nat} (hk : k < 256) : windowOf (0x1000 + k) = some .pin := by
  unfold windowOf
  rw [if_neg (by omega), if_pos (by omega)]

/-- A word stored in another window leaves `PIN`: the bytes of one word lie in one window (20_memory.md R61). -/
theorem storeWord_byte_pin (s : State) {addr w : Word} {win : Window} (ht : busTarget addr 4 = some win)
    (hwin : win ≠ .pin) {k : Nat} (hk : k < 256) :
    (s.storeWord addr.toNat w).byte (0x1000 + k) = s.byte (0x1000 + k) := by
  obtain ⟨-, haligned, hwindow⟩ := busTarget_eq_some ht
  rw [storeWord_byte, if_neg]
  rintro ⟨hlow, hhigh, -⟩
  have hsame : windowOf addr.toNat = windowOf (0x1000 + k) := windowOf_word (by omega)
  rw [hwindow, windowOf_pin hk] at hsame
  exact hwin (Option.some.inj hsame)

/-- Settles O47. The invariant is not needed: a completion leaves `PIN` in every configuration. -/
theorem onlyHostWritesPin : Obligations.OnlyHostWritesPin := by
  intro s t _ hstep hreset hpin k hk
  cases stepCase_of_step hstep with
  | answered => rfl
  | completed => exact leavesBelowPout_effectOf _ s _ (by unfold poutBase; omega)
  | hardReset hl => exact absurd (resetEvent_of_hardReset hl) hreset
  | softReset hl idle srst => exact absurd (resetEvent_of_softReset hl idle srst) hreset
  | issued => exact byte_issue _ _ _ _
  | configured idle plain => exact writeReg_byte (s.withPending _) _ _ plain _
  | @stored addr w rest win hl idle target =>
    refine storeWord_byte_pin (s.withPending rest) target (fun hwin => ?_) hk
    exact hpin ⟨addr, w, rest, hwin ▸ target, hl⟩

/-! ### The command and its configuration -/

/-- Settles O48: with `BUSY` = 1 a step is a completion, a hard reset, or one that leaves all but `OVR`. -/
theorem configurationFrozenInFlight : Obligations.ConfigurationFrozenInFlight := by
  intro s t hbusy hstep hreset
  have hnotIdle : ¬ s.status.busy = false := by simp [hbusy]
  cases stepCase_of_step hstep with
  | answered => exact ⟨rfl, sameConfig_refl s, rfl⟩
  | completed =>
    obtain ⟨⟨hcmd, hctrl, hconfig, -⟩, -⟩ := completion_same _ s
    exact ⟨hcmd, hconfig, hctrl⟩
  | hardReset hl => exact absurd ⟨_, hl⟩ hreset
  | softReset _ idle => exact absurd idle hnotIdle
  | issued _ idle => exact absurd idle hnotIdle
  | configured idle => exact absurd idle hnotIdle
  | stored _ idle => exact absurd idle hnotIdle

/-- Settles O59: of the seven things a step can do only an issue and the resets touch `CMD`, and register 0 is `CMD`. -/
theorem onlyIssueOrResetChangesCmd : Obligations.OnlyIssueOrResetChangesCmd := by
  intro s t hstep hreset hissue
  suffices hcmd : t.cmd = s.cmd from ⟨hcmd, hcmd⟩
  cases stepCase_of_step hstep with
  | answered => rfl
  | completed =>
    obtain ⟨⟨hcmd, -⟩, -⟩ := completion_same _ s
    exact hcmd
  | hardReset hl => exact absurd (resetEvent_of_hardReset hl) hreset
  | softReset hl idle srst => exact absurd (resetEvent_of_softReset hl idle srst) hreset
  | issued hl idle noFault => exact absurd ⟨_, _, hl, idle, noFault⟩ hissue
  | configured idle plain => exact writeReg_cmd (s.withPending _) plain
  | stored => rfl

end Sys2Proof.Machine
end

