-- ==== Sys2Proof/Proofs/Memory.lean ====
section
/-!
PROOFS. Statements of 20_memory.md: the address map and its bus errors, the port in its three states (idle, busy,
faulted), the packing of cells into words, and the order of events. The port is served by one lemma for each kind of
transaction; the statements about its states put these together.
-/

namespace Sys2Proof.Machine

open Sys2Proof.Stated

/-! ### The address map -/

/-- A branch of the map with its row. -/
theorem row_of_branch {a : Nat} {win win' : Window} (lo hi : Nat) (hw : some win' = some win)
    (hrow : (win', lo, hi) ∈ mapTable) (hlo : lo ≤ a) (hhi : a ≤ hi) :
    ∃ lo hi, (win, lo, hi) ∈ mapTable ∧ lo ≤ a ∧ a ≤ hi := by
  obtain rfl := Option.some.inj hw
  exact ⟨lo, hi, hrow, hlo, hhi⟩

/-- An address of a window lies in a row of the map for that window (R61), one branch of the map after the other. -/
theorem exists_row_of_windowOf {a : Nat} {win : Window} (h : windowOf a = some win) :
    ∃ lo hi, (win, lo, hi) ∈ mapTable ∧ lo ≤ a ∧ a ≤ hi := by
  unfold windowOf at h
  rcases ite_eq_iff.mp h with ⟨hhi, hw⟩ | ⟨hlo, h⟩
  · exact row_of_branch 0x00000000 0x00000FFF hw (by simp [mapTable]) (by omega) (by omega)
  rcases ite_eq_iff.mp h with ⟨hhi, hw⟩ | ⟨hlo, h⟩
  · exact row_of_branch 0x00001000 0x000010FF hw (by simp [mapTable]) (by omega) (by omega)
  rcases ite_eq_iff.mp h with ⟨hhi, hw⟩ | ⟨hlo, h⟩
  · exact row_of_branch 0x00001100 0x000011FF hw (by simp [mapTable]) (by omega) (by omega)
  rcases ite_eq_iff.mp h with ⟨-, hw⟩ | ⟨hlo, h⟩
  · cases hw
  rcases ite_eq_iff.mp h with ⟨hhi, hw⟩ | ⟨hlo, h⟩
  · exact row_of_branch 0x00004000 0x00005FFF hw (by simp [mapTable]) (by omega) (by omega)
  rcases ite_eq_iff.mp h with ⟨hhi, hw⟩ | ⟨hlo, h⟩
  · exact row_of_branch 0x00006000 0x00007FFF hw (by simp [mapTable]) (by omega) (by omega)
  rcases ite_eq_iff.mp h with ⟨-, hw⟩ | ⟨hlo, h⟩
  · cases hw
  rcases ite_eq_iff.mp h with ⟨hhi, hw⟩ | ⟨hlo, h⟩
  · exact row_of_branch 0x04000000 0x07FFFFFF hw (by simp [mapTable]) (by omega) (by omega)
  rcases ite_eq_iff.mp h with ⟨hhi, hw⟩ | ⟨hlo, h⟩
  · exact row_of_branch 0x08000000 0x08FFFFFF hw (by simp [mapTable]) (by omega) (by omega)
  rcases ite_eq_iff.mp h with ⟨hhi, hw⟩ | ⟨hlo, h⟩
  · exact row_of_branch 0x09000000 0x09FFFFFF hw (by simp [mapTable]) (by omega) (by omega)
  rcases ite_eq_iff.mp h with ⟨hhi, hw⟩ | ⟨hlo, h⟩
  · exact row_of_branch 0x0A000000 0x0AFFFFFF hw (by simp [mapTable]) (by omega) (by omega)
  rcases ite_eq_iff.mp h with ⟨-, hw⟩ | ⟨hlo, h⟩
  · cases hw
  rcases ite_eq_iff.mp h with ⟨hhi, hw⟩ | ⟨hlo, h⟩
  · exact row_of_branch 0x0C000000 0x0CFFFFFF hw (by simp [mapTable]) (by omega) (by omega)
  rcases ite_eq_iff.mp h with ⟨hhi, hw⟩ | ⟨hlo, h⟩
  · exact row_of_branch 0x0D000000 0x0DFFFFFF hw (by simp [mapTable]) (by omega) (by omega)
  rcases ite_eq_iff.mp h with ⟨hhi, hw⟩ | ⟨hlo, h⟩
  · exact row_of_branch 0x0E000000 0x0EFFFFFF hw (by simp [mapTable]) (by omega) (by omega)
  rcases ite_eq_iff.mp h with ⟨hhi, hw⟩ | ⟨hlo, h⟩
  · exact row_of_branch 0x0F000000 0x0FFFFFFF hw (by simp [mapTable]) (by omega) (by omega)
  · cases h

/-- The rows of the map exclude one another: an address of a row is in that row's window (R61). -/
theorem windowOf_of_row {a lo hi : Nat} {win : Window} (hrow : (win, lo, hi) ∈ mapTable) (hlo : lo ≤ a)
    (hhi : a ≤ hi) : windowOf a = some win := by
  simp only [mapTable, List.mem_cons, Prod.mk.injEq, List.not_mem_nil, or_false] at hrow
  unfold windowOf
  rcases hrow with ⟨rfl, rfl, rfl⟩ | ⟨rfl, rfl, rfl⟩ | ⟨rfl, rfl, rfl⟩ | ⟨rfl, rfl, rfl⟩ | ⟨rfl, rfl, rfl⟩ |
    ⟨rfl, rfl, rfl⟩ | ⟨rfl, rfl, rfl⟩ | ⟨rfl, rfl, rfl⟩ | ⟨rfl, rfl, rfl⟩ | ⟨rfl, rfl, rfl⟩ | ⟨rfl, rfl, rfl⟩ |
    ⟨rfl, rfl, rfl⟩ | ⟨rfl, rfl, rfl⟩ <;> grind

/-- The windows are the rows of the map (R61). -/
theorem windowOf_eq_some_iff (a : Nat) (win : Window) :
    windowOf a = some win ↔ ∃ lo hi, (win, lo, hi) ∈ mapTable ∧ lo ≤ a ∧ a ≤ hi :=
  ⟨exists_row_of_windowOf, fun ⟨_, _, hrow, hlo, hhi⟩ => windowOf_of_row hrow hlo hhi⟩

theorem busTarget_eq_some_iff {addr : Word} {width : Nat} {win : Window} :
    busTarget addr width = some win ↔ width = 4 ∧ addr.toNat % 4 = 0 ∧ windowOf addr.toNat = some win := by
  refine ⟨busTarget_eq_some, fun ⟨hwidth, haligned, hwindow⟩ => ?_⟩
  rw [busTarget, if_pos ⟨hwidth, haligned⟩, hwindow]

/-- The word 0 of the register window is `CMD` (10_state.md R21). -/
theorem busTarget_cmd : busTarget 0x00000000#32 4 = some .reg := busTarget_regAddr (i := 0) (by omega)

/-! ### One transaction at the port -/

/-- Taking a transaction off the list changes no register and no word of a buffer. -/
@[simp] theorem readReg_withPending (s : State) (l : List Arrival) (i : Nat) :
    (s.withPending l).readReg i = s.readReg i := by
  unfold State.readReg
  rfl

@[simp] theorem word_withPending (s : State) (l : List Arrival) (a : Nat) : (s.withPending l).word a = s.word a :=
  word_congr (byte_withPending s l) a

section
variable {s : State} {addr w : Word} {width : Nat} {win : Window} {rest : List Arrival}

/-- A read with no target is answered with a bus error (R61, R62). -/
theorem step_read_busError (h : lands (.read addr width) rest s) (ht : busTarget addr width = none) :
    step s = .next ((s.withPending rest).reply .busError) := by
  rw [step_of_lands h]
  simp only [serve, busRead, ht]

/-- A write with no target is answered with a bus error (R61, R62). -/
theorem step_write_busError (h : lands (.write addr width w) rest s) (ht : busTarget addr width = none) :
    step s = .next ((s.withPending rest).reply .busError) := by
  rw [step_of_lands h]
  simp only [serve, busWrite, ht]

/-- A read in the register window returns the register, whatever `BUSY` and `ERR` are (R64, R65). -/
theorem step_reads_regWindow (h : lands (.read addr 4) rest s) (ht : busTarget addr 4 = some .reg) :
    step s = .next ((s.withPending rest).reply (.data (s.readReg (addr.toNat / 4)))) := by
  rw [step_of_lands h]
  simp only [serve, busRead, ht, readReg_withPending]

/-- A read of a buffer word with `BUSY` = 0 returns it (R65, R72). -/
theorem step_reads_buffer (h : lands (.read addr 4) rest s) (hb : s.status.busy = false)
    (ht : busTarget addr 4 = some win) (hwin : win ≠ .reg) :
    step s = .next ((s.withPending rest).reply (.data (s.word addr.toNat))) := by
  rw [step_of_lands h]
  cases win with
  | reg => exact absurd rfl hwin
  | _ => simp [serve, busRead, ht, hb]

/-- A read of a buffer word with `BUSY` = 1 returns a free value and sets `OVR` (R64). -/
theorem step_reads_buffer_busy (h : lands (.read addr 4) rest s) (hb : s.status.busy = true)
    (ht : busTarget addr 4 = some win) (hwin : win ≠ .reg) :
    step s = .next
      { ((s.withPending rest).setOvr.reply (.data (Config.busyRead s.freeReads))) with
        freeReads := s.freeReads + 1 } := by
  rw [step_of_lands h]
  cases win with
  | reg => exact absurd rfl hwin
  | _ => simp [serve, busRead, ht, hb]

/-- A write to any window with `BUSY` = 1 is dropped and sets `OVR` (R64). -/
theorem step_write_busy (h : lands (.write addr 4 w) rest s) (hb : s.status.busy = true)
    (ht : (busTarget addr 4).isSome = true) :
    step s = .next ((s.withPending rest).setOvr.reply .written) := by
  obtain ⟨win, ht⟩ := Option.isSome_iff_exists.mp ht
  rw [step_of_lands h]
  simp [serve, busWrite, ht, hb]

/-- A write in the register window, but to `CMD`, with `BUSY` = 0 is the register write (R65). -/
theorem step_writes_regWindow (h : lands (.write addr 4 w) rest s) (hb : s.status.busy = false)
    (ht : busTarget addr 4 = some .reg) (ha : addr.toNat ≠ 0) :
    step s = .next (((s.withPending rest).writeReg (addr.toNat / 4) w).reply .written) := by
  rw [step_of_lands h]
  simp [serve, busWrite, ht, hb, ha]

/-- A write of a buffer word with `BUSY` = 0 is the store (R65, R71). -/
theorem step_writes_buffer (h : lands (.write addr 4 w) rest s) (hb : s.status.busy = false)
    (ht : busTarget addr 4 = some win) (hwin : win ≠ .reg) :
    step s = .next (((s.withPending rest).storeWord addr.toNat w).reply .written) := by
  rw [step_of_lands h]
  cases win with
  | reg => exact absurd rfl hwin
  | _ => simp [serve, busWrite, ht, hb]

/-- A write to `CMD` with `BUSY` = 0 reaches the command decoder (30_encoding.md R95, R96). -/
theorem step_writes_cmd (h : lands (.write 0x00000000#32 4 w) rest s) (hb : s.status.busy = false) :
    step s = writeCmd w ((s.withPending rest).reply .written) := by
  rw [step_of_lands h]
  simp [serve, busWrite, busTarget_cmd, hb]

end

/-- A write to `CMD` of an idle CORE with a fault recorded is dropped and sets `OVR` (30_encoding.md R96). -/
theorem writeCmd_faulted {s : State} (w : Word) (he : s.status.err = true) : writeCmd w s = .next s.setOvr := by
  rw [writeCmd, if_pos he]

/-- A write to `CMD` of an idle CORE with no fault recorded runs the command that its word decodes to
(30_encoding.md R95). -/
theorem writeCmd_decoded {s : State} {w : Word} {i : Instr} (he : s.status.err = false)
    (hd : Sys2Proof.decode w = .ok i) : writeCmd w s = exec i s := by
  simp [writeCmd, he, hd]

/-! ### The port in its states -/

/-- Settles O5: the write reaches the decoder of an idle CORE with no fault recorded. -/
theorem stepRunsOfferedCommand : Obligations.StepRunsOfferedCommand := by
  intro s w i rest hl hb he hd
  rw [step_writes_cmd hl hb]
  exact writeCmd_decoded he hd

/-- Settles O10: the value left open is the free value of the model's counter of such reads. -/
theorem accessWhileBusy : Obligations.AccessWhileBusy := by
  intro s addr rest hb
  refine ⟨?registerRead, ?write, ?bufferRead⟩
  case registerRead => exact fun hl ht => step_reads_regWindow hl ht
  case write => exact fun w hl ht => step_write_busy hl hb ht
  case bufferRead => exact fun win hl ht hwin => ⟨_, _, step_reads_buffer_busy hl hb ht hwin⟩

/-- Settles O11: only the write to `CMD` looks at `ERR`. -/
theorem accessWhileFaulted : Obligations.AccessWhileFaulted := by
  intro s addr w rest hb he
  refine ⟨?registerRead, ?bufferRead, ?registerWrite, ?bufferWrite, ?commandWrite⟩
  case registerRead => exact fun hl ht => step_reads_regWindow hl ht
  case bufferRead => exact fun win hl ht hwin => step_reads_buffer hl hb ht hwin
  case registerWrite => exact fun hl ht ha => step_writes_regWindow hl hb ht ha
  case bufferWrite => exact fun win hl ht hwin => step_writes_buffer hl hb ht hwin
  case commandWrite =>
    intro hl
    rw [step_writes_cmd hl hb]
    exact writeCmd_faulted w he

/-- Settles O12: the windows are the rows of the map, and an access with no target is answered before `BUSY` and `ERR`
are looked at. -/
theorem addressMapAndBusErrors : Obligations.AddressMapAndBusErrors := by
  refine ⟨fun addr width win => ?_, fun s addr w width rest ht hl => ?_⟩
  · rw [busTarget_eq_some_iff, windowOf_eq_some_iff]
  · rcases hl with hread | hwrite
    · exact step_read_busError hread ht
    · exact step_write_busError hwrite ht

/-! ### Cells and words -/

/-- Byte `j` of a word is bits `8 j + 7` to `8 j` of its value (R63). -/
theorem byteOf_toNat (w : Word) (j : Nat) : (byteOf w j).toNat = w.toNat >>> (8 * j) % 256 :=
  BitVec.extractLsb'_toNat ..

/-- Byte `j` of the word at an address is the byte `j` addresses on (R63). -/
theorem byteOf_word (s : State) (a : Nat) {j : Nat} (hj : j < 4) : byteOf (s.word a) j = s.byte (a + j) := by
  obtain ⟨h0, h1, h2, h3⟩ := byteOf_wordOf (s.byte a) (s.byte (a + 1)) (s.byte (a + 2)) (s.byte (a + 3))
  unfold State.word
  interval_cases j
  · exact h0
  · exact h1
  · exact h2
  · exact h3

/-- The cell `k` of a window that packs four byte cells to a word (R63). -/
theorem packed_cell (s : State) (base k : Nat) :
    ((s.word (base + 4 * (k / 4))).toNat >>> (8 * (k % 4))) % 256 = (s.byte (base + k)).toNat := by
  have haddr : base + 4 * (k / 4) + k % 4 = base + k := by omega
  rw [← byteOf_toNat, byteOf_word s _ (by omega), haddr]

/-- The value of a word whose top byte is 0. -/
theorem wordOf_topZero (b0 b1 b2 : Byte) :
    wordOf b0 b1 b2 0x00#8 = BitVec.ofNat 32 (b0.toNat + 256 * b1.toNat + 65536 * b2.toNat) := by
  refine BitVec.eq_of_toNat_eq ?_
  have h0 := b0.isLt
  have h1 := b1.isLt
  have h2 := b2.isLt
  simp only [wordOf, BitVec.toNat_append, BitVec.toNat_ofNat]
  rw [← Nat.shiftLeft_add_eq_or_of_lt h0, ← Nat.shiftLeft_add_eq_or_of_lt h1, ← Nat.shiftLeft_add_eq_or_of_lt h2]
  simp only [Nat.shiftLeft_eq]
  omega

/-- The word of a pixel: its fourth byte has no cell and reads 0 (R66). -/
theorem word_pixel (s : State) {k : Nat} (hk : k < 16777216) :
    s.word (rgbBase + 4 * k) = wordOf (s.pixel k 0) (s.pixel k 1) (s.pixel k 2) 0x00#8 := by
  have htop : stored (rgbBase + 4 * k + 3) = false := by
    have hmod : (4 * k + 3) % 4 = 3 := by omega
    rw [Nat.add_assoc, stored_rgb (by omega), hmod]
    rfl
  unfold State.word
  rw [byte_of_not_stored s htop]
  rfl

/-- Settles O19: a byte cell is a byte of its word, and the other windows hold one cell a word. -/
theorem packedCellsLittleEndian : Obligations.PackedCellsLittleEndian := by
  intro s k
  refine ⟨?planes, packed_cell s 0x1000 k, packed_cell s 0x1100 k, ?pixels, ?subbands, rfl, rfl⟩
  case planes =>
    intro ch base hbase
    have hplane : planeBase ch = base := by
      simp only [List.mem_cons, Prod.mk.injEq, List.not_mem_nil, or_false] at hbase
      rcases hbase with ⟨rfl, rfl⟩ | ⟨rfl, rfl⟩ | ⟨rfl, rfl⟩ <;> rfl
    subst hplane
    exact packed_cell s (planeBase ch) k
  case pixels => exact fun hk => (word_pixel s hk).trans (wordOf_topZero ..)
  case subbands =>
    intro b base hbase
    have hsubband : subbandBase b = base := by
      simp only [List.mem_cons, Prod.mk.injEq, List.not_mem_nil, or_false] at hbase
      rcases hbase with ⟨rfl, rfl⟩ | ⟨rfl, rfl⟩ | ⟨rfl, rfl⟩ | ⟨rfl, rfl⟩ <;> rfl
    subst hsubband
    rfl

/-! ### A buffer word written by the host -/

/-- Every byte of a buffer window has a cell, but the fourth of a pixel word (R66). -/
theorem stored_of_windowOf {a : Nat} {win : Window} (hw : windowOf a = some win) (hreg : win ≠ .reg) :
    stored a = if win = .rgb then a % 4 != 3 else true := by
  unfold stored
  rw [hw]
  cases win with
  | reg => exact absurd rfl hreg
  | _ => rfl

/-- What is left of a word stored in a window (R66, R71). -/
def keptBits (win : Window) (w : Word) : Word := if win = .rgb then w &&& 0x00FFFFFF#32 else w

/-- Of a pixel word the top byte is dropped, the others are kept. -/
theorem byteOf_keptBits (win : Window) (w : Word) {k : Nat} (hk : k < 4) :
    byteOf (keptBits win w) k = if win = .rgb ∧ k = 3 then 0x00#8 else byteOf w k := by
  have hmask : ∀ j, j < 4 → byteOf 0x00FFFFFF#32 j = if j = 3 then 0x00#8 else 0xFF#8 := by decide
  have hand : byteOf (w &&& 0x00FFFFFF#32) k = byteOf w k &&& byteOf 0x00FFFFFF#32 k := BitVec.extractLsb'_and
  unfold keptBits
  by_cases hwin : win = .rgb
  · rw [if_pos hwin, hand, hmask k hk]
    by_cases h3 : k = 3
    · simp [hwin, h3]
    · simp only [hwin, h3, and_false, if_false]
      exact BitVec.and_allOnes
  · simp [hwin]

/-- A stored buffer word reads back as the bits that its window keeps (R71). -/
theorem storeWord_word_window (s : State) {addr w : Word} {win : Window} (ht : busTarget addr 4 = some win)
    (hreg : win ≠ .reg) : (s.storeWord addr.toNat w).word addr.toNat = keptBits win w := by
  obtain ⟨-, haligned, hwindow⟩ := busTarget_eq_some ht
  refine word_of_bytes fun k hk => ?_
  have hmod : (addr.toNat + k) % 4 = k := by omega
  have hsame : windowOf (addr.toNat + k) = some win := (windowOf_word (by omega)).trans hwindow
  have hstored := stored_of_windowOf hsame hreg
  rw [hmod] at hstored
  rw [byteOf_keptBits win w hk]
  by_cases hdropped : win = .rgb ∧ k = 3
  · obtain ⟨rfl, rfl⟩ := hdropped
    exact byte_of_not_stored _ hstored
  · have hcell : stored (addr.toNat + k) = true := by
      rw [hstored]
      split
      · simpa using fun h3 => hdropped ⟨‹_›, h3⟩
      · rfl
    rw [storeWord_byte, if_pos ⟨by omega, by omega, hcell⟩, if_neg hdropped, Nat.add_sub_cancel_left]

/-- Settles O20: the read is `step_reads_buffer`, the write `step_writes_buffer`, and the store changes four bytes of one
window. -/
theorem bufferWriteThenRead : Obligations.BufferWriteThenRead := by
  refine ⟨fun s addr win rest hb ht hwin hl => step_reads_buffer hl hb ht hwin, ?_⟩
  intro s addr w win rest hb ht hwin hl
  refine ⟨_, step_writes_buffer hl hb ht hwin, storeWord_word_window (s.withPending rest) ht hwin, ?frame,
    sameConfig_refl s, rfl, rfl, rfl, rfl, rfl⟩
  intro a ha
  rw [byte_reply, storeWord_byte, if_neg (by omega), byte_withPending]

/-! ### The order of events -/

/-- What a transaction of the host leaves in every case: it is answered once, the list of those to come stays as it
was handed over, and a command in flight goes on with its buffers (R60, R64, R75). -/
structure Answers (s t : State) : Prop where
  pending : t.pending = s.pending
  replies : ∃ r, t.replies = r :: s.replies
  inFlight : s.status.busy = true → t.status.busy = true ∧ t.mem = s.mem

/-- A step with no command in flight. -/
theorem Answers.of_idle {s t : State} {r : Reply} (hb : s.status.busy = false) (hp : t.pending = s.pending)
    (hr : t.replies = r :: s.replies) : Answers s t :=
  ⟨hp, ⟨r, hr⟩, fun hbusy => absurd (hb.symm.trans hbusy) Bool.false_ne_true⟩

theorem busRead_answers (addr : Word) (width : Nat) (s : State) : Answers s (busRead addr width s) := by
  rcases busRead_cases addr width s with ⟨-, h⟩ | ⟨-, h⟩ | ⟨_, -, -, -, h⟩ | ⟨_, -, -, -, h⟩ <;> rw [h]
  all_goals exact ⟨rfl, ⟨_, rfl⟩, fun hb => ⟨hb, rfl⟩⟩

/-- A register write, a soft reset among them, leaves the host's transactions and the answers (log 10). -/
theorem writeReg_pending_replies (s : State) (i : Nat) (w : Word) :
    (s.writeReg i w).pending = s.pending ∧ (s.writeReg i w).replies = s.replies := by
  unfold State.writeReg
  split
  · unfold State.writeCtrl
    split <;> exact ⟨rfl, rfl⟩
  all_goals exact ⟨rfl, rfl⟩

/-- A write to `CMD` leaves the host's transactions and the answers. -/
theorem writeCmd_pending_replies {s t : State} {w : Word} (hb : s.status.busy = false)
    (h : writeCmd w s = .next t) : t.pending = s.pending ∧ t.replies = s.replies := by
  cases he : s.status.err with
  | true =>
    obtain rfl := Host.Outcome.next.inj ((writeCmd_faulted w he).symm.trans h)
    exact ⟨rfl, rfl⟩
  | false =>
    obtain rfl := Host.Outcome.next.inj ((writeCmd_issues hb he).symm.trans h)
    rw [issue_eq]
    exact ⟨rfl, rfl⟩

theorem busWrite_answers {addr w : Word} {width : Nat} {s t : State} (h : busWrite addr width w s = .next t) :
    Answers s t := by
  rcases busWrite_cases addr width w s with ⟨-, he⟩ | ⟨-, -, he⟩ | ⟨hb, -, -, he⟩ | ⟨hb, -, -, he⟩ | ⟨_, -, hb, -, he⟩
  · obtain rfl := Host.Outcome.next.inj (he.symm.trans h)
    exact ⟨rfl, ⟨_, rfl⟩, fun hbusy => ⟨hbusy, rfl⟩⟩
  · obtain rfl := Host.Outcome.next.inj (he.symm.trans h)
    exact ⟨rfl, ⟨_, rfl⟩, fun hbusy => ⟨hbusy, rfl⟩⟩
  · obtain ⟨hpending, hreplies⟩ := writeCmd_pending_replies (s := s.reply .written) hb (he.symm.trans h)
    exact .of_idle hb hpending hreplies
  · obtain rfl := Host.Outcome.next.inj (he.symm.trans h)
    obtain ⟨hpending, hreplies⟩ := writeReg_pending_replies s (addr.toNat / 4) w
    exact .of_idle hb hpending (congrArg _ hreplies)
  · obtain rfl := Host.Outcome.next.inj (he.symm.trans h)
    exact .of_idle hb rfl rfl

/-- A host operation is a hard reset or a transaction that is answered (R60). -/
theorem serve_answers {op : HostOp} {s t : State} (h : serve op s = .next t) :
    (op = .hardReset ∧ t = hardReset s) ∨ (op ≠ .hardReset ∧ Answers s t) := by
  cases op with
  | read addr width =>
    obtain rfl := Host.Outcome.next.inj h
    exact .inr ⟨by simp, busRead_answers addr width s⟩
  | write addr width w => exact .inr ⟨by simp, busWrite_answers h⟩
  | hardReset => exact .inl ⟨rfl, (Host.Outcome.next.inj h).symm⟩

/-- Settles O49: the three schedules of `step_cases`, the last with `serve_answers`. -/
theorem oneEventAtATime : Obligations.OneEventAtATime := by
  intro s t h
  rcases step_cases s with ⟨-, hidle, hwait⟩ | ⟨hb, -, hdone⟩ | ⟨x, rest, hp, -, hserve⟩
  case inl =>
    obtain rfl := Host.Outcome.next.inj (hwait.symm.trans h)
    exact .inl ⟨rfl, rfl, .inr ⟨hidle, rfl⟩⟩
  case inr.inl =>
    rw [hdone] at h
    rcases completeInFlight_cases hb with ⟨i, -, -, hi⟩ | ⟨hstop, -⟩
    · obtain rfl := Host.Outcome.next.inj (hi.symm.trans h)
      obtain ⟨⟨-, -, -, -, -, hpending, hreplies⟩, -⟩ := completion_same i s
      exact .inl ⟨hpending, hreplies, .inl ⟨hb, rfl, rfl⟩⟩
    · rw [hstop] at h; cases h
  case inr.inr =>
    refine .inr ⟨x, rest, hp, ?_⟩
    rcases serve_answers (hserve.symm.trans h) with ⟨hop, rfl⟩ | ⟨hop, hpending, hreplies, hflight⟩
    · exact ⟨rfl, fun _ => rfl, fun hne => absurd hop hne, fun _ => .inl hop⟩
    · exact ⟨hpending, fun hreset => absurd hreset hop, fun _ => hreplies, fun hb => .inr (hflight hb)⟩

/-! ### Runs -/

/-- No step stops from a state with the invariant: the command in flight is legal (30_encoding.md R94). -/
theorem step_next_of_inv {s : State} (h : s.inv) : ∃ t, step s = .next t := by
  obtain ⟨-, -, hflight⟩ := h
  rcases step_cases s with ⟨-, -, hwait⟩ | ⟨hb, -, hdone⟩ | ⟨x, rest, -, -, hserve⟩
  · exact ⟨s, hwait⟩
  · rcases completeInFlight_cases hb with ⟨i, -, -, hi⟩ | ⟨-, hillegal⟩
    · exact ⟨_, hdone.trans hi⟩
    · have hcheck := hflight hb
      cases hd : Sys2Proof.decode s.cmd with
      | error e => rw [checkWord_of_illegal s hd] at hcheck; cases hcheck
      | ok i =>
        rw [checkWord_of_decode s hd] at hcheck
        exact absurd ((hillegal i hd).symm.trans (wellFormed_of_check hcheck)) Bool.false_ne_true
  · obtain ⟨t, ht⟩ := serve_next x.op (s.withPending rest)
    exact ⟨t, hserve.trans ht⟩

/-- A run whose first step has a next state goes on from there. -/
theorem run_succ_of_step {s u : State} (h : step s = .next u) (k : Nat) :
    Host.Core.run Sys2Proof.core (k + 1) s = Host.Core.run Sys2Proof.core k u := by
  have hcore : Sys2Proof.core.step s = .next u := h
  simp only [Host.Core.run, hcore]

/-- Every run from a state with the invariant goes on and keeps it. -/
theorem run_next_of_inv {s : State} (h : s.inv) (k : Nat) :
    ∃ t : State, Host.Core.run Sys2Proof.core k s = .next t ∧ t.inv := by
  induction k generalizing s with
  | zero => exact ⟨s, rfl, h⟩
  | succ k ih =>
    obtain ⟨u, hu⟩ := step_next_of_inv h
    rw [run_succ_of_step hu]
    exact ih (stepKeepsInvariant s u h hu)

/-- Settles O42: the reset state has the invariant, which does not look at the host's list. -/
theorem everyRunFromResetIsSafe : Obligations.EveryRunFromResetIsSafe := by
  intro host k
  exact run_next_of_inv (inv_answered resetMeetsInvariant false 0 host []) k

end Sys2Proof.Machine
end

