-- ==== Sys2Proof/Proofs/Encoding.lean ====
section
/-!
PROOFS. Statements of 30_encoding.md: the command word, issue and completion, and runs of commands through the port.
Decoding is one equivalence, `decode_eq_ok_iff`; a run is taken apart by `run_command` (one command, its issue and its
completion) and `run_polls` (reads of `STATUS` that land during a command).
-/

namespace Sys2Proof.Machine

open Sys2Proof.Stated

/-! ### The opcode map -/

/-- Two words with the same three fields are the same word (30_encoding.md R90). -/
theorem eq_of_fields {v w : Word} (hz : zeroField v = zeroField w) (hch : chField v = chField w)
    (hop : opField v = opField w) : v = w := by
  rw [← append_fields v, ← append_fields w, hz, hch, hop]

/-- The encoded word carries the fields of its command (R90). -/
theorem carriesFields_encode (i : Instr) : CarriesFields (Sys2Proof.encode i) i := by
  obtain ⟨hop, hch, hz⟩ := Laws.fields_of_append i.channelField i.opcode
  exact ⟨hz, hch, hop⟩

/-- The one word that carries the fields of a command is its encoding. -/
theorem encode_eq_iff_carriesFields (w : Word) (i : Instr) : Sys2Proof.encode i = w ↔ CarriesFields w i := by
  refine ⟨fun h => h ▸ carriesFields_encode i, fun ⟨hz, hch, hop⟩ => ?_⟩
  obtain ⟨hz', hch', hop'⟩ := carriesFields_encode i
  exact eq_of_fields (hz'.trans hz.symm) (hch'.trans hch.symm) (hop'.trans hop.symm)

/-- The format `CMDC` accepts a legal channel (R90). -/
theorem cmdC_of_legal (f : ChannelField → Instr) {ch : ChannelField} (h : channelLegal ch = true) :
    cmdC f ch = .ok (f ch) := if_pos h

/-- The decoder finds the row of a well-formed command in the opcode map (R92). -/
theorem decode_of_carriesFields {w : Word} {i : Instr} (h : CarriesFields w i) (hw : i.wellFormed = true) :
    Sys2Proof.decode w = .ok i := by
  obtain ⟨hz, hch, hop⟩ := h
  unfold Sys2Proof.decode
  rw [hz, hch, hop]
  cases i with
  | dwtfwd ch => exact cmdC_of_legal _ hw
  | dwtinv ch => exact cmdC_of_legal _ hw
  | embed ch => exact cmdC_of_legal _ hw
  | extract ch => exact cmdC_of_legal _ hw
  | _ => rfl

/-- The format `CMDC` accepts no illegal channel (R90, R93). -/
theorem legal_of_cmdC {f : ChannelField → Instr} {ch : ChannelField} {i : Instr} (h : cmdC f ch = .ok i) :
    channelLegal ch = true := by
  unfold cmdC at h
  split at h
  · assumption
  · cases h

/-- A decoded command is well-formed: the format of its row tests the channel (R90, R93). -/
theorem wellFormed_of_decode {w : Word} {i : Instr} (h : Sys2Proof.decode w = .ok i) : i.wellFormed = true := by
  obtain ⟨hz, hch, hop⟩ := carriesFields_of_decode h
  unfold Sys2Proof.decode at h
  rw [hz, hch, hop] at h
  cases i with
  | dwtfwd ch => exact legal_of_cmdC (f := .dwtfwd) h
  | dwtinv ch => exact legal_of_cmdC (f := .dwtinv) h
  | embed ch => exact legal_of_cmdC (f := .embed) h
  | extract ch => exact legal_of_cmdC (f := .extract) h
  | _ => rfl

/-- The decoder, said once: a word is a command exactly when the command is well-formed and the word carries its
fields. -/
theorem decode_eq_ok_iff (w : Word) (i : Instr) :
    Sys2Proof.decode w = .ok i ↔ i.wellFormed = true ∧ CarriesFields w i :=
  ⟨fun h => ⟨wellFormed_of_decode h, carriesFields_of_decode h⟩, fun ⟨hw, h⟩ => decode_of_carriesFields h hw⟩

/-- Settles O1: both sides say that the word carries the fields of a well-formed command. -/
theorem decodeEncodeAgree : Obligations.DecodeEncodeAgree := by
  intro w i
  rw [decode_eq_ok_iff, encode_eq_iff_carriesFields]

theorem decode_encode {i : Instr} (h : i.wellFormed = true) : Sys2Proof.decode (Sys2Proof.encode i) = .ok i :=
  (decodeEncodeAgree _ i).mpr ⟨h, rfl⟩

/-! ### Match and mask -/

/-- A command without operand is matched by its whole word (R92). -/
theorem decode_eq_cmd0_iff {i : Instr} (hw : i.wellFormed = true) (w : Word) :
    Sys2Proof.decode w = .ok i ↔ w &&& 0xFFFFFFFF#32 = Sys2Proof.encode i := by
  have hmask : w &&& 0xFFFFFFFF#32 = w := BitVec.and_allOnes
  rw [decodeEncodeAgree w i, hmask]
  exact ⟨fun ⟨_, h⟩ => h.symm, fun h => ⟨hw, h.symm⟩⟩

/-- The mask of the format `CMDC` clears the channel and keeps the other fields (R92). -/
theorem fields_of_masked (w : Word) :
    zeroField (w &&& 0xFFFFFCFF#32) = zeroField w ∧ chField (w &&& 0xFFFFFCFF#32) = 0#2 ∧
      opField (w &&& 0xFFFFFCFF#32) = opField w := by
  refine ⟨?_, ?_, ?_⟩
  · exact BitVec.extractLsb'_and.trans BitVec.and_allOnes
  · exact BitVec.extractLsb'_and.trans BitVec.and_zero
  · exact BitVec.extractLsb'_and.trans BitVec.and_allOnes

theorem masked_eq_iff (w : Word) (op : BitVec 8) :
    w &&& 0xFFFFFCFF#32 = 0#22 ++ 0#2 ++ op ↔ zeroField w = 0#22 ∧ opField w = op := by
  obtain ⟨hz, hch, hop⟩ := fields_of_masked w
  obtain ⟨hop', hch', hz'⟩ := Laws.fields_of_append 0#2 op
  refine ⟨fun h => ?_, fun ⟨hzero, hopcode⟩ => ?_⟩
  · rw [← hz, ← hop, h]
    exact ⟨hz', hop'⟩
  · exact eq_of_fields (by rw [hz, hz', hzero]) (by rw [hch, hch']) (by rw [hop, hop', hopcode])

theorem channelLegal_iff (ch : ChannelField) : channelLegal ch = true ↔ ch ≠ 3#2 := bne_iff_ne

/-- A command with a channel is matched outside the channel field, whose value is the operand (R92). -/
theorem decode_eq_cmdC_iff {f : ChannelField → Instr} {ch : ChannelField} {op : BitVec 8}
    (hw : (f ch).wellFormed = channelLegal ch) (hop : (f ch).opcode = op) (hch : (f ch).channelField = ch) (w : Word) :
    Sys2Proof.decode w = .ok (f ch) ↔
      w &&& 0xFFFFFCFF#32 = 0#22 ++ 0#2 ++ op ∧ ch = w.extractLsb' 8 2 ∧ ch ≠ 3#2 := by
  rw [decode_eq_ok_iff, CarriesFields, masked_eq_iff, hw, hop, hch, channelLegal_iff]
  exact ⟨fun ⟨hlegal, hzero, hfield, hopcode⟩ => ⟨⟨hzero, hopcode⟩, hfield.symm, hlegal⟩,
    fun ⟨⟨hzero, hopcode⟩, hfield, hlegal⟩ => ⟨hlegal, hzero, hfield.symm, hopcode⟩⟩

/-- Settles O2: each row is `decode_eq_cmd0_iff` or `decode_eq_cmdC_iff`. -/
theorem decodeMatchesOpcodeMap : Obligations.DecodeMatchesOpcodeMap := by
  intro w
  refine ⟨?nop, ?rgb2yuv, ?yuv2rgb, ?subsamp, fun ch => ?dwtfwd, fun ch => ?dwtinv, fun ch => ?embed,
    fun ch => ?extract, ?vclear, ?tally, ?encode, ?decode⟩
  case dwtfwd => exact decode_eq_cmdC_iff (f := .dwtfwd) (op := 0x04#8) rfl rfl rfl w
  case dwtinv => exact decode_eq_cmdC_iff (f := .dwtinv) (op := 0x05#8) rfl rfl rfl w
  case embed => exact decode_eq_cmdC_iff (f := .embed) (op := 0x06#8) rfl rfl rfl w
  case extract => exact decode_eq_cmdC_iff (f := .extract) (op := 0x07#8) rfl rfl rfl w
  all_goals exact decode_eq_cmd0_iff rfl w

/-! ### Illegal words -/

/-- The opcode and channel fields for which R92 has a row. -/
def RowOf (op : BitVec 8) (ch : ChannelField) : Prop :=
  op.toNat ≤ 0x0B ∧ (4 ≤ op.toNat ∧ op.toNat ≤ 7 → ch ≠ 3#2) ∧ (op.toNat < 4 ∨ 7 < op.toNat → ch = 0#2)

theorem rowOf_of_wellFormed {i : Instr} (h : i.wellFormed = true) : RowOf i.opcode i.channelField := by
  unfold RowOf
  cases i with
  | dwtfwd ch => simpa [Instr.opcode, Instr.channelField] using (channelLegal_iff ch).mp h
  | dwtinv ch => simpa [Instr.opcode, Instr.channelField] using (channelLegal_iff ch).mp h
  | embed ch => simpa [Instr.opcode, Instr.channelField] using (channelLegal_iff ch).mp h
  | extract ch => simpa [Instr.opcode, Instr.channelField] using (channelLegal_iff ch).mp h
  | _ => simp [Instr.opcode, Instr.channelField]

theorem exists_command_of_rowOf {op : BitVec 8} {ch : ChannelField} (h : RowOf op ch) :
    ∃ i : Instr, i.wellFormed = true ∧ i.opcode = op ∧ i.channelField = ch := by
  obtain ⟨hrow, hoperand, hnone⟩ := h
  obtain ⟨n, hn, rfl⟩ : ∃ n, op.toNat = n ∧ BitVec.ofNat 8 n = op := ⟨_, rfl, BitVec.ofNat_toNat ..⟩
  rw [hn] at hrow hoperand hnone
  interval_cases n
  · exact ⟨.nop, rfl, rfl, (hnone (by omega)).symm⟩
  · exact ⟨.rgb2yuv, rfl, rfl, (hnone (by omega)).symm⟩
  · exact ⟨.yuv2rgb, rfl, rfl, (hnone (by omega)).symm⟩
  · exact ⟨.subsamp, rfl, rfl, (hnone (by omega)).symm⟩
  · exact ⟨.dwtfwd ch, (channelLegal_iff ch).mpr (hoperand (by omega)), rfl, rfl⟩
  · exact ⟨.dwtinv ch, (channelLegal_iff ch).mpr (hoperand (by omega)), rfl, rfl⟩
  · exact ⟨.embed ch, (channelLegal_iff ch).mpr (hoperand (by omega)), rfl, rfl⟩
  · exact ⟨.extract ch, (channelLegal_iff ch).mpr (hoperand (by omega)), rfl, rfl⟩
  · exact ⟨.vclear, rfl, rfl, (hnone (by omega)).symm⟩
  · exact ⟨.tally, rfl, rfl, (hnone (by omega)).symm⟩
  · exact ⟨.encode, rfl, rfl, (hnone (by omega)).symm⟩
  · exact ⟨.decode, rfl, rfl, (hnone (by omega)).symm⟩

/-- The words that decode are those of the opcode map (R92, R93). -/
theorem exists_decode_ok_iff (w : Word) :
    (∃ i, Sys2Proof.decode w = .ok i) ↔ zeroField w = 0#22 ∧ RowOf (opField w) (chField w) := by
  constructor
  · rintro ⟨i, hd⟩
    obtain ⟨hw, hz, hch, hop⟩ := (decode_eq_ok_iff w i).mp hd
    rw [hch, hop]
    exact ⟨hz, rowOf_of_wellFormed hw⟩
  · rintro ⟨hz, hrow⟩
    obtain ⟨i, hw, hop, hch⟩ := exists_command_of_rowOf hrow
    exact ⟨i, decode_of_carriesFields ⟨hz, hch.symm, hop.symm⟩ hw⟩

/-- The decoder is total: a word is illegal exactly when it is no command (R93). -/
theorem exists_decode_error_iff (w : Word) :
    (∃ e, Sys2Proof.decode w = .error e) ↔ ¬ ∃ i, Sys2Proof.decode w = .ok i := by
  cases Sys2Proof.decode w <;> simp

/-! ### Issue and completion -/

section
variable {s : State} {w : Word} {rest : List Arrival}

/-- A write to `CMD` of an idle CORE with no fault recorded issues its word (R95). -/
theorem step_issues (h : lands (.write 0x00000000#32 4 w) rest s) (hb : s.status.busy = false)
    (he : s.status.err = false) : step s = .next (issue w (checkWord w s) ((s.withPending rest).reply .written)) := by
  rw [step_writes_cmd h hb, writeCmd_issues (s := (s.withPending rest).reply .written) hb he, checkWord_reply]

/-- With no transaction landing before it, the completion of the command in flight is the next event (R97). -/
theorem step_completes (hb : s.status.busy = true) (hp : ∀ x ∈ s.pending.head?, x.overlaps = false) :
    step s = completeInFlight s := by
  rcases step_cases s with ⟨-, hidle, -⟩ | ⟨-, -, h⟩ | ⟨x, rest, hx, hov, -⟩
  · exact absurd (hb.symm.trans hidle) (by decide)
  · exact h
  · have hlater := hp x (by simp [hx])
    exact absurd ((hov hb).symm.trans hlater) (by decide)

theorem completeInFlight_decoded {i : Instr} (hd : Sys2Proof.decode s.cmd = .ok i) : completeInFlight s = exec i s := by
  simp only [completeInFlight, hd]

end

/-- Settles O7: the issue of the word, its `STATUS` given by `issue_status`. -/
theorem issueLatchesAndChecks : Obligations.IssueLatchesAndChecks := by
  intro s w rest hl hb he
  rw [step_issues hl hb he, issue_eq, issue_status]
  rfl

/-- Settles O3: the illegal words are those outside the opcode map, and their issue is that of a word whose check gives
`IllegalCommand`. -/
theorem illegalWordsFault : Obligations.IllegalWordsFault := by
  intro w
  refine ⟨?_, fun s rest ⟨e, hd⟩ hl hb he => ?_⟩
  · rw [exists_decode_error_iff, exists_decode_ok_iff]
    unfold RowOf opField chField zeroField
    grind
  · rw [issueLatchesAndChecks s w rest hl hb he, checkWord_of_illegal s hd]
    rfl

/-- Settles O4: each word has the fields of its command; with channel 3 the format `CMDC` rejects. -/
theorem sampleWordsDecode : Obligations.SampleWordsDecode := by
  refine ⟨?_, ?_, ?_, ?_, ?_, ?_, rfl⟩
  · exact decode_encode (i := .rgb2yuv) rfl
  · exact decode_encode (i := .subsamp) rfl
  · exact decode_encode (i := .dwtfwd 1#2) rfl
  · exact decode_encode (i := .embed 2#2) rfl
  · exact decode_encode (i := .extract 0#2) rfl
  · exact decode_encode (i := .decode) rfl

/-- Settles O6: the completion is the next event, and `completeInFlight` is `exec` of the command decoded. -/
theorem stepRunsCommandInFlight : Obligations.StepRunsCommandInFlight := by
  refine ⟨fun s i hb hp hd => ?_, fun s hb hp => ?_⟩
  · rw [step_completes hb hp, completeInFlight_decoded hd]
  · simp only [step, nextEvent, hp, hb]
    rfl

/-- Settles O9: with `BUSY` = 1 the port drops the write, with `ERR` = 1 the command decoder does. -/
theorem commandDroppedWhenBusyOrFaulted : Obligations.CommandDroppedWhenBusyOrFaulted := by
  intro s w rest hl hcase
  cases hb : s.status.busy with
  | true => exact step_write_busy hl hb (by rw [busTarget_cmd]; rfl)
  | false =>
    have he : s.status.err = true := hcase.resolve_left (by simp [hb])
    rw [step_writes_cmd hl hb]
    exact writeCmd_faulted w he

/-! ### Runs -/

/-- Settles O41: the command in flight is legal. -/
theorem noStepStops : Obligations.NoStepStops := fun _ h => step_next_of_inv h

/-- A step with a command in flight ends it, by its completion or a hard reset, or takes one transaction and leaves it
in flight. -/
theorem step_ends_or_shortens {s t : State} (hb : s.status.busy = true) (h : step s = .next t) :
    t.status.busy = false ∨ t.status.busy = true ∧ s.pending.length = t.pending.length + 1 := by
  rcases step_cases s with ⟨-, hidle, -⟩ | ⟨-, -, hdone⟩ | ⟨x, rest, hp, -, hserve⟩
  · exact absurd (hb.symm.trans hidle) (by decide)
  · rw [hdone] at h
    rcases completeInFlight_cases hb with ⟨i, -, -, hi⟩ | ⟨hstop, -⟩
    · obtain rfl := Host.Outcome.next.inj (hi.symm.trans h)
      exact .inl rfl
    · rw [hstop] at h; cases h
  · rcases serve_answers (hserve.symm.trans h) with ⟨-, rfl⟩ | ⟨-, hpending, -, hflight⟩
    · exact .inl rfl
    · obtain ⟨hbusy, -⟩ := hflight hb
      exact .inr ⟨hbusy, by rw [hp, hpending]; rfl⟩

/-- Settles O43, by induction on the transactions to come: each step ends the flight or takes one of them. -/
theorem completionEventuallyTaken : Obligations.CompletionEventuallyTaken := by
  intro s hinv hb
  induction hn : s.pending.length generalizing s with
  | zero =>
    obtain ⟨t, ht⟩ := step_next_of_inv hinv
    rcases step_ends_or_shortens hb ht with hidle | ⟨-, hlen⟩
    · exact ⟨1, t, by omega, run_succ_of_step ht 0, hidle⟩
    · omega
  | succ n ih =>
    obtain ⟨t, ht⟩ := step_next_of_inv hinv
    rcases step_ends_or_shortens hb ht with hidle | ⟨hbusy, hlen⟩
    · exact ⟨1, t, by omega, run_succ_of_step ht 0, hidle⟩
    · obtain ⟨k, u, hk, hrun, hidle⟩ := ih t (stepKeepsInvariant s t hinv ht) hbusy (by omega)
      exact ⟨k + 1, u, by omega, (run_succ_of_step ht k).trans hrun, hidle⟩

/-! ### One command through the port -/

theorem sameReads_symm {s t : State} (h : s.sameReads t) : t.sameReads s := by
  obtain ⟨hm, he, h1, h2, h3, h4, h5, h6, h7, h8⟩ := h
  exact ⟨hm.symm, he.symm, h1.symm, h2.symm, h3.symm, h4.symm, h5.symm, h6.symm, h7.symm, h8.symm⟩

theorem sameConfig_trans {s t u : State} (h : s.sameConfig t) (h' : t.sameConfig u) : s.sameConfig u := by
  obtain ⟨h1, h2, h3, h4, h5, h6, h7, h8⟩ := h
  obtain ⟨k1, k2, k3, k4, k5, k6, k7, k8⟩ := h'
  exact ⟨k1.trans h1, k2.trans h2, k3.trans h3, k4.trans h4, k5.trans h5, k6.trans h6, k7.trans h7, k8.trans h8⟩

theorem sameConfig_of_sameReads {s t : State} (h : s.sameReads t) : s.sameConfig t := by
  obtain ⟨-, -, hconfig⟩ := h
  exact hconfig

theorem sameReads_trans {s t u : State} (h : s.sameReads t) (h' : t.sameReads u) : s.sameReads u := by
  obtain ⟨hm, he, hc⟩ := h
  obtain ⟨hm', he', hc'⟩ := h'
  exact ⟨hm'.trans hm, he'.trans he, sameConfig_trans hc hc'⟩

/-- The state right after the issue of a command whose checks pass (30_encoding.md R95), the transaction answered. -/
def State.issued (s : State) (i : Instr) (rest : List Arrival) : State :=
  issue (Sys2Proof.encode i) none ((s.withPending rest).reply .written)

theorem sameReads_issued (s : State) (i : Instr) (rest : List Arrival) : s.sameReads (s.issued i rest) :=
  sameReads_refl s

section
variable {s : State} {i : Instr} {rest : List Arrival}

/-- The write of a command whose checks pass to an idle CORE with no fault recorded puts it in flight. -/
theorem step_issues_command (hl : lands (.write 0x00000000#32 4 (Sys2Proof.encode i)) rest s)
    (hb : s.status.busy = false) (he : s.status.err = false) (hc : check i s = none) :
    step s = .next (s.issued i rest) := by
  rw [step_issues hl hb he, checkWord_of_decode s (decode_encode (wellFormed_of_check hc)), hc]
  rfl

/-- A command in flight completes when no transaction lands before (R97). -/
theorem step_completes_command (hb : s.status.busy = true) (hcmd : s.cmd = Sys2Proof.encode i)
    (hw : i.wellFormed = true) (hp : ∀ x ∈ s.pending.head?, x.overlaps = false) :
    step s = .next (complete (effectOf i s)) := by
  rw [step_completes hb hp, completeInFlight_decoded (hcmd ▸ decode_encode hw), exec_completes hb hw]

end

/-! ### The script line RUN -/

/-- The state with other transactions to come and other answers given. -/
def State.answered (s : State) (rest : List Arrival) (answers : List Reply) : State :=
  { s with pending := rest, replies := answers }

theorem sameReads_answered (s : State) (rest : List Arrival) (answers : List Reply) :
    s.sameReads (s.answered rest answers) := sameReads_refl s

/-- Reads of `STATUS` that land during a command are answered and leave the command in flight (30_encoding.md R99,
20_memory.md R72). -/
theorem run_polls (polls k : Nat) {s : State} {rest : List Arrival} (hb : s.status.busy = true)
    (hp : s.pending = List.replicate polls (arriveRead true RegName.status.addr) ++ rest) :
    Host.Core.run Sys2Proof.core (polls + k) s =
      Host.Core.run Sys2Proof.core k
        (s.answered rest (List.replicate polls (.data s.status.word) ++ s.replies)) := by
  induction polls generalizing s with
  | zero =>
    obtain rfl : s.pending = rest := hp
    rw [Nat.zero_add]
    rfl
  | succ n ih =>
    have hl : lands (.read (BitVec.ofNat 32 (4 * 1)) 4)
        (List.replicate n (arriveRead true RegName.status.addr) ++ rest) s := ⟨true, hp, fun _ => rfl⟩
    rw [Nat.add_right_comm, run_succ_of_step (step_reads_register (by omega) hl)]
    refine (ih (s := (s.withPending (List.replicate n _ ++ rest)).reply _) hb rfl).trans ?_
    rw [List.replicate_succ', List.append_assoc]
    rfl

/-- `WAIT` (R99) with a command in flight: the early polls, the completion, and a poll that reads `STATUS` after it. -/
theorem run_wait {s : State} {i : Instr} {polls : Nat} (hb : s.status.busy = true) (hcmd : s.cmd = Sys2Proof.encode i)
    (hw : i.wellFormed = true) (hp : s.pending = waitArrivals polls) :
    ∃ v : State, s.sameReads v ∧ v.status = s.status ∧
      Host.Core.run Sys2Proof.core (polls + 2) s =
        .next (((complete (effectOf i v)).withPending []).reply (.data (complete (effectOf i v)).status.word)) := by
  have hpolls := run_polls polls 2 hb hp
  generalize hv : s.answered _ _ = v at hpolls
  have hreads : s.sameReads v := hv ▸ sameReads_answered ..
  have hstatus : v.status = s.status := hv ▸ rfl
  have hpending : v.pending = [arriveRead false RegName.status.addr] := hv ▸ rfl
  have hcompletes : step v = .next (complete (effectOf i v)) :=
    step_completes_command (hstatus ▸ hb) (hv ▸ hcmd) hw (by simp [hpending, arriveRead])
  obtain ⟨⟨-, -, -, -, -, hkept, -⟩, -⟩ := completion_same i v
  have hlast : lands (.read (BitVec.ofNat 32 (4 * 1)) 4) [] (complete (effectOf i v)) :=
    ⟨false, hkept.trans hpending, fun hbusy => absurd hbusy (by simp)⟩
  refine ⟨v, hreads, hstatus, ?_⟩
  rw [hpolls, run_succ_of_step hcompletes, run_succ_of_step (step_reads_register (by omega) hlast)]
  rfl

/-- Settles O44: the issue, then the `WAIT` of `run_wait`; the effect depends on the buffers and the configuration
only, which the issue and the polls leave. -/
theorem runLineCompletes : Obligations.RunLineCompletes := by
  intro i polls s hb he hc hp
  have hw := wellFormed_of_check hc
  have hissue : step s = .next (s.issued i (waitArrivals polls)) :=
    step_issues_command ⟨false, hp, fun hbusy => absurd (hb.symm.trans hbusy) (by decide)⟩ hb he hc
  obtain ⟨v, hreads, hstatus, hrun⟩ := run_wait (s := s.issued i (waitArrivals polls)) rfl rfl hw rfl
  obtain ⟨-, hdone⟩ := completion_same i v
  have hsame : (inFlight s).sameReads v := hreads
  refine ⟨_, complete (effectOf i (inFlight s)), (run_succ_of_step hissue (polls + 2)).trans hrun,
    exec_completes rfl hw, ?mem, rfl, rfl, rfl, ?ovr, rfl, ?bit⟩
  case mem => exact (sameReads_effectOf i hsame).1
  case ovr =>
    show (complete (effectOf i v)).status.ovr = s.status.ovr
    rw [hdone, hstatus]
    rfl
  case bit => exact status_word_getLsbD _ 0

/-! ### The commands of `ENCODE`'s sequence -/

/-- Everything that `u` uses is used by `v` (the second table of 60_exceptions.md R227). -/
abbrev Uses.within (u v : Uses) : Prop :=
  (u.grid = true → v.grid = true) ∧ (u.bsize = true → v.bsize = true) ∧ (∀ ch ∈ u.scales, ch ∈ v.scales) ∧
    (u.wmbytes = true → v.wmbytes = true) ∧ (u.submode = true → v.submode = true)

/-- A command that uses no more than another passes its checks where the other does (R227). -/
theorem check_none_of_within {i j : Instr} {s : State} (hw : j.wellFormed = true) (hu : (uses j).within (uses i))
    (h : check i s = none) : check j s = none := by
  obtain ⟨hugrid, hubsize, huscales, huwmbytes, husubmode⟩ := hu
  obtain ⟨-, hgrid, hblock, hscale, hlength, hsubmode⟩ := check_none h
  unfold check
  rw [if_neg (by simp [hw]), if_neg, if_neg, if_neg, if_neg, if_neg, if_neg, if_neg]
  · rintro ⟨hj, hbad⟩
    have := hsubmode (husubmode hj)
    omega
  · rintro ⟨hj, hbad⟩
    have := hsubmode (husubmode hj)
    omega
  · rintro ⟨hj, hbad⟩
    have := hlength (huwmbytes hj)
    simp only [Config.pmax] at hbad
    omega
  · simp only [List.any_eq_true, decide_eq_true_eq, not_exists, not_and, not_lt]
    exact fun ch hch => hscale ch (huscales ch hch)
  · rintro ⟨hj, hbad⟩
    have := hblock (hubsize hj)
    rw [badBlock_iff] at hbad
    omega
  · rintro ⟨hj, hbad⟩
    have := hgrid (hugrid hj)
    simp only [Config.maxArea] at hbad
    omega
  · rintro ⟨hj, hbad⟩
    have := hgrid (hugrid hj)
    simp only [Config.minArea] at hbad
    omega

/-- Every command of the sequence is legal and uses no more than `ENCODE` (45_codec.md R197). -/
theorem mem_encodeSequence {s : State} {i : Instr} (h : i ∈ encodeSequence s) :
    i.wellFormed = true ∧ (uses i).within (uses .encode) := by
  simp only [encodeSequence, List.mem_append, List.mem_flatMap, List.mem_cons, List.not_mem_nil, or_false] at h
  rcases h with ((rfl | rfl) | ⟨ch, -, rfl | rfl | rfl⟩) | rfl
  · decide
  · decide
  · cases ch <;> decide
  · cases ch <;> decide
  · cases ch <;> decide
  · decide

/-- Where `ENCODE` passes its checks, so does each command of its sequence. -/
theorem check_encodeSequence {s : State} (h : check .encode s = none) : ∀ i ∈ encodeSequence s, check i s = none := by
  intro i hi
  obtain ⟨hw, hu⟩ := mem_encodeSequence hi
  exact check_none_of_within hw hu h

/-- The commands that `ENCODE` runs for one channel have the effect of its round (R197 step 3). -/
theorem effects_of_channel {u : State} {ch : Channel} (hscale : 0 < u.scale ch) :
    [Instr.dwtfwd (fieldOf ch), .embed (fieldOf ch), .dwtinv (fieldOf ch)].foldl (fun v i => effectOf i v) u =
      encodeChannel u ch := by
  simp only [List.foldl_cons, List.foldl_nil, effectOf, ofField_fieldOf, Option.elim_some, encodeChannel, if_pos hscale]

/-- The channel loop of `ENCODE`, over any list of channels: those with no positive scale change nothing. -/
theorem effects_of_channels {s u : State} (l : List Channel) (h : s.sameConfig u) :
    ((l.filter (fun ch => 0 < s.scale ch)).flatMap
        (fun ch => [Instr.dwtfwd (fieldOf ch), .embed (fieldOf ch), .dwtinv (fieldOf ch)])).foldl
          (fun v i => effectOf i v) u = l.foldl encodeChannel u := by
  induction l generalizing u with
  | nil => rfl
  | cons ch l ih =>
    obtain ⟨-, -, -, -, -, -, -, -, -, -, -, -, -, hscales, -⟩ := operands_congr h
    obtain ⟨⟨-, -, hconfig, -⟩, -⟩ := (onlyMem_encodeChannel ch).same u
    have hrest := ih (sameConfig_trans h hconfig)
    by_cases hscale : 0 < s.scale ch
    · rw [List.filter_cons_of_pos (by simpa using hscale), List.flatMap_cons, List.foldl_append,
        effects_of_channel (by rwa [hscales]), hrest]
      rfl
    · have hskip : encodeChannel u ch = u := if_neg (by rwa [hscales])
      rw [List.filter_cons_of_neg (by simpa using hscale), List.foldl_cons, hskip]
      exact ih h

/-- The effects of the sequence, one after the other, are the effect of `ENCODE` (R197). -/
theorem effects_of_encodeSequence {s u : State} (h : s.sameConfig u) :
    (encodeSequence s).foldl (fun v i => effectOf i v) u = effectOf .encode u := by
  obtain ⟨⟨-, -, hyuv, -⟩, -⟩ := onlyMem_rgb2yuv.same u
  obtain ⟨⟨-, -, hsub, -⟩, -⟩ := onlyMem_subsamp.same (rgb2yuvEffect u)
  rw [encodeSequence, List.foldl_append, List.foldl_append]
  simp only [List.foldl_cons, List.foldl_nil]
  rw [effects_of_channels]
  · rfl
  · exact sameConfig_trans h (sameConfig_trans hyuv hsub)

/-! ### Commands one after the other -/

/-- The state after one command through the port: its issue and its completion. -/
def State.afterCommand (s : State) (i : Instr) (rest : List Arrival) : State := complete (effectOf i (s.issued i rest))

theorem sameReads_afterCommand (s : State) (i : Instr) (rest : List Arrival) :
    (effectOf i s).sameReads (s.afterCommand i rest) :=
  sameReads_effectOf i (sameReads_issued s i rest)

/-- Outside the buffers one command leaves the configuration and a CORE that can take the next one. -/
theorem afterCommand_same (s : State) (i : Instr) (rest : List Arrival) :
    s.sameConfig (s.afterCommand i rest) ∧ (s.afterCommand i rest).pending = rest ∧
      (s.afterCommand i rest).status.busy = false ∧ (s.afterCommand i rest).status.done = true ∧
      (s.afterCommand i rest).status.err = s.status.err := by
  obtain ⟨⟨-, -, hconfig, -, -, hpending, -⟩, hstatus⟩ := completion_same i (s.issued i rest)
  refine ⟨hconfig, hpending, rfl, rfl, ?_⟩
  rw [State.afterCommand, hstatus]
  rfl

/-- A command whose checks pass takes two steps when no transaction lands between its issue and its completion. -/
theorem run_command {s : State} {i : Instr} {rest : List Arrival}
    (hl : lands (.write 0x00000000#32 4 (Sys2Proof.encode i)) rest s) (hb : s.status.busy = false)
    (he : s.status.err = false) (hc : check i s = none) (hrest : ∀ x ∈ rest.head?, x.overlaps = false) (k : Nat) :
    Host.Core.run Sys2Proof.core (k + 2) s = Host.Core.run Sys2Proof.core k (s.afterCommand i rest) := by
  have hcompletes : step (s.issued i rest) = .next (s.afterCommand i rest) :=
    step_completes_command rfl rfl (wellFormed_of_check hc) hrest
  rw [run_succ_of_step (step_issues_command hl hb he hc), run_succ_of_step hcompletes]

theorem commandArrivals_later (l : List Instr) : ∀ x ∈ (commandArrivals l).head?, x.overlaps = false := by
  cases l <;> simp [commandArrivals]

/-- Commands whose checks pass, written each after the completion of the one before, leave the buffers that their
effects leave in turn. -/
theorem run_commands (l : List Instr) {s : State} (hb : s.status.busy = false) (he : s.status.err = false)
    (hp : s.pending = commandArrivals l) (hc : ∀ i ∈ l, check i s = none) :
    ∃ t : State, Host.Core.run Sys2Proof.core (2 * l.length) s = .next t ∧
      (l.foldl (fun v i => effectOf i v) s).sameReads t ∧ t.status.busy = false ∧
      (l ≠ [] ∨ s.status.done = true → t.status.done = true) := by
  induction l generalizing s with
  | nil => exact ⟨s, rfl, sameReads_refl s, hb, fun h => h.resolve_left (by simp)⟩
  | cons i l ih =>
    have hl : lands (.write 0x00000000#32 4 (Sys2Proof.encode i)) (commandArrivals l) s :=
      ⟨false, hp, fun hbusy => absurd (hb.symm.trans hbusy) (by decide)⟩
    obtain ⟨hconfig, hpending, hidle, hdone, herr⟩ := afterCommand_same s i (commandArrivals l)
    have hfirst := run_command hl hb he (hc i (by simp)) (commandArrivals_later l) (2 * l.length)
    obtain ⟨t, hrun, hreads, htb, htd⟩ := ih hidle (herr.trans he) hpending
      (fun j hj => (check_congr hconfig j).trans (hc j (by simp [hj])))
    refine ⟨t, hfirst.trans hrun, sameReads_trans ?_ hreads, htb, fun _ => htd (.inr hdone)⟩
    exact sameReads_foldl (fun j _ _ h => sameReads_effectOf j h) l (sameReads_afterCommand s i _)

/-- The state to which the host offers the words of the commands `l`. -/
def State.offered (s : State) (l : List Instr) : State := s.answered (commandArrivals l) s.replies

theorem sameReads_offered (s : State) (l : List Instr) : s.sameReads (s.offered l) := sameReads_answered s _ _

/-- Settles O34: both runs leave the effect of `ENCODE`, the first as the effects of its sequence in turn. -/
theorem encodeEqualsCommandsByHand : Obligations.EncodeEqualsCommandsByHand := by
  intro s hb he hc
  have hseq := sameReads_offered s (encodeSequence s)
  have hone := sameReads_offered s [.encode]
  have hcone : ∀ i ∈ [Instr.encode], check i s = none := by simpa using hc
  obtain ⟨t, hrunt, hreadst, htb, htd⟩ :=
    run_commands (encodeSequence s) (s := s.offered (encodeSequence s)) hb he rfl (check_encodeSequence hc)
  obtain ⟨u, hrunu, hreadsu, hub, hud⟩ := run_commands [.encode] (s := s.offered [.encode]) hb he rfl hcone
  rw [effects_of_encodeSequence (sameConfig_of_sameReads hseq)] at hreadst
  have heffects := sameReads_effectOf .encode (sameReads_trans (sameReads_symm hseq) hone)
  obtain ⟨hmem, -⟩ := sameReads_trans (sameReads_symm hreadst) (sameReads_trans heffects hreadsu)
  exact ⟨t, u, hrunt, hrunu, hmem.symm, htb, htd (.inl (by simp [encodeSequence])), hub, hud (.inl (by simp))⟩

end Sys2Proof.Machine
end

