-- ==== Sys2Proof/Proofs/Colour.lean ====
section
/-!
PROOFS. Statements of 40_colour.md: the two transforms over the grid, grey pixels, and the tie rule. The exact integer
form of `cr` meets the rational one in `cr_div`; what is left of each formula is its numerator.
-/

namespace Sys2Proof.Machine

open Sys2Proof.Stated

/-! ### Clip and round over the rationals -/

theorem clip_of_nonpos {x : ℚ} (h : x ≤ 0) : clip x = 0 := by
  unfold clip
  split
  · rfl
  · rw [if_neg (by linarith)]
    linarith

theorem clip_of_ge {x : ℚ} (h : 255 ≤ x) : clip x = 255 := by
  unfold clip
  rw [if_neg (by linarith)]
  split
  · rfl
  · linarith

theorem clip_of_mem {x : ℚ} (h0 : 0 ≤ x) (h1 : x ≤ 255) : clip x = x := by
  unfold clip
  rw [if_neg (by linarith), if_neg (by linarith)]

/-- Rounding a quotient half up is one integer division (00_scope.md R9). -/
theorem rnd_div (n : ℤ) {d : ℕ} (hd : 0 < d) : rnd ((n : ℚ) / d) = (2 * n + d) / (2 * d) := by
  have hsum : (n : ℚ) / d + 1 / 2 = ((2 * n + d : ℤ) : ℚ) / ((2 * d : ℕ) : ℚ) := by
    have : (d : ℚ) ≠ 0 := by positivity
    push_cast
    field_simp
  unfold rnd
  rw [hsum, Rat.floor_intCast_div_natCast]
  push_cast
  rfl

/-- The model's clip and round of a numerator is `cr` of the quotient (40_colour.md R111, R114; 42_wavelet.md R145). -/
theorem cr_div (n : ℤ) {d : ℕ} (hd : 0 < d) : cr ((n : ℚ) / d) = (clipRound n d).toNat := by
  have hdq : (0 : ℚ) < d := by exact_mod_cast hd
  rw [clipRound_toNat n hd]
  unfold cr
  split
  case isTrue hlow =>
    have hn : (n : ℚ) ≤ 0 := by exact_mod_cast hlow
    rw [clip_of_nonpos (div_nonpos_of_nonpos_of_nonneg hn hdq.le)]
    norm_num [rnd]
  case isFalse hpos =>
    have hn : (0 : ℚ) ≤ n := by exact_mod_cast (not_le.mp hpos).le
    split
    case isTrue hhigh =>
      have hn' : (255 : ℚ) * d ≤ n := by exact_mod_cast hhigh
      rw [clip_of_ge ((le_div_iff₀ hdq).mpr hn')]
      norm_num [rnd]
    case isFalse hbelow =>
      have hn' : (n : ℚ) ≤ 255 * d := by exact_mod_cast (not_le.mp hbelow).le
      rw [clip_of_mem (div_nonneg hn hdq.le) ((div_le_iff₀ hdq).mpr hn'), rnd_div n hd]

/-- The byte nearest to a quotient, an exact half rounded up, is its clip and round (R9). -/
theorem clipRound_eq_of_nearest {n : ℤ} {d : ℕ} {b : Byte} (hd : 0 < d)
    (hlo : (2 * (b.toNat : ℤ) - 1) * d ≤ 2 * n) (hhi : 2 * n < (2 * (b.toNat : ℤ) + 1) * d) : clipRound n d = b := by
  have hdz : (0 : ℤ) < d := by exact_mod_cast hd
  have hb := b.isLt
  have hround : ((clipRound n d).toNat : ℤ) = b.toNat := by
    rw [clipRound_toNat n hd]
    split
    case isTrue hlow =>
      have : 2 * (b.toNat : ℤ) - 1 ≤ 0 := nonpos_of_mul_nonpos_left (by omega) hdz
      omega
    case isFalse hpos =>
      split
      case isTrue hhigh =>
        have : (510 : ℤ) < 2 * b.toNat + 1 := lt_of_mul_lt_mul_right (by omega) hdz.le
        omega
      case isFalse hbelow =>
        apply le_antisymm
        · exact Int.lt_add_one_iff.mp (Int.ediv_lt_of_lt_mul (by omega) (by linarith))
        · exact Int.le_ediv_of_mul_le (by omega) (by linarith)
  exact BitVec.eq_of_toNat_eq (by exact_mod_cast hround)

/-- Half up and half to even differ at an exact half only (92_eei_decisions.md D3). -/
theorem roundDiv_tie_irrelevant {n d : ℕ} (hd : 0 < d) (h : 2 * (n % d) ≠ d) :
    roundDiv .halfUp n d = roundDiv .halfEven n d := by
  have hdiv := Nat.div_add_mod n d
  have hmod := Nat.mod_lt n hd
  have hprod (k : ℕ) : k * (2 * d) = 2 * (d * k) := by ring
  simp only [roundDiv]
  split
  case isTrue hbelow =>
    exact Nat.div_eq_of_lt_le (by rw [hprod]; omega) (by rw [hprod, Nat.mul_succ]; omega)
  case isFalse hge =>
    rw [if_pos (by omega)]
    exact Nat.div_eq_of_lt_le (by rw [hprod, Nat.mul_succ]; omega) (by rw [hprod, Nat.mul_succ, Nat.mul_succ]; omega)

/-! ### The forward transform -/

/-- `rgb2yuv` is the linear map of the document, clipped and rounded (40_colour.md R110, R111). -/
theorem rgb2yuv_eq_cr (r g b : Byte) :
    ((rgb2yuv .y r g b).toNat : ℤ) = cr (0.299 * real r + 0.587 * real g + 0.114 * real b) ∧
    ((rgb2yuv .u r g b).toNat : ℤ) = cr (-0.14713 * real r - 0.28886 * real g + 0.436 * real b + 127.5) ∧
    ((rgb2yuv .v r g b).toNat : ℤ) = cr (0.615 * real r - 0.51499 * real g - 0.10001 * real b + 127.5) := by
  have hnum (ch : Channel) : ((rgb2yuv ch r g b).toNat : ℤ) = cr ((yuvNum ch r g b : ℚ) / (100000 : ℕ)) :=
    (cr_div _ (by decide)).symm
  refine ⟨?y, ?u, ?v⟩
  all_goals
    rw [hnum]
    congr 1
    simp only [yuvNum, real]
    push_cast
    ring

/-- The numerators of a grey pixel: the coefficients sum to 1, to 0.00001 and to 0 (R116). -/
theorem yuvNum_grey (g : Byte) :
    yuvNum .y g g g = 100000 * g.toNat ∧ yuvNum .u g g g = g.toNat + 12750000 ∧ yuvNum .v g g g = 12750000 := by
  simp only [yuvNum]
  omega

/-- Settles O57: the numerators of a grey pixel lie nearest to its level and to 128, an exact half rounded up. -/
theorem greyHasNeutralChroma : Obligations.GreyHasNeutralChroma := by
  intro g
  obtain ⟨hy, hu, hv⟩ := yuvNum_grey g
  have hg := g.isLt
  have h128 : (128#8 : Byte).toNat = 128 := rfl
  refine ⟨?y, ?u, ?v⟩
  case y => exact clipRound_eq_of_nearest (by decide) (by rw [hy]; omega) (by rw [hy]; omega)
  case u => exact clipRound_eq_of_nearest (by decide) (by rw [hu, h128]; omega) (by rw [hu, h128]; omega)
  case v => exact clipRound_eq_of_nearest (by decide) (by rw [hv, h128]; omega) (by rw [hv, h128]; omega)

/-! ### The inverse transform -/

/-- `yuv2rgb` is the inverse map of the document, clipped and rounded (R113, R114). -/
theorem yuv2rgb_eq_cr (y u v : Byte) :
    ((yuv2rgb 0 y u v).toNat : ℤ) = cr (real y + 1.13983 * (real v - 127.5)) ∧
    ((yuv2rgb 1 y u v).toNat : ℤ) = cr (real y - 0.39465 * (real u - 127.5) - 0.58060 * (real v - 127.5)) ∧
    ((yuv2rgb 2 y u v).toNat : ℤ) = cr (real y + 2.03211 * (real u - 127.5)) := by
  have hnum (c : ℕ) : ((yuv2rgb c y u v).toNat : ℤ) = cr ((rgbNum c y u v : ℚ) / (200000 : ℕ)) :=
    (cr_div _ (by decide)).symm
  refine ⟨?r, ?g, ?b⟩
  all_goals
    rw [hnum]
    congr 1
    simp only [rgbNum, real]
    push_cast
    ring

/-- Every numerator of the inverse transform is odd, since `2 * U - 255` and `2 * V - 255` are (R114). -/
theorem rgbNum_odd (c : ℕ) (y u v : Byte) : rgbNum c y u v % 2 = 1 := by
  match c with
  | 0 => simp only [rgbNum]; omega
  | 1 => simp only [rgbNum]; omega
  | _ + 2 => simp only [rgbNum]; omega

/-- Settles O58: the numerator is odd, an exact half would make it even. -/
theorem inverseColourNeverTies : Obligations.InverseColourNeverTies := by
  intro c y u v hpos
  have hodd := rgbNum_odd c y u v
  exact roundDiv_tie_irrelevant (by decide) (by omega)

/-! ### The commands -/

/-- The check of a command that uses the grid only is the grid test (60_exceptions.md R227). -/
theorem check_eq_gridFault {i : Instr} (hw : i.wellFormed = true) (hu : uses i = { Uses.nothing with grid := true })
    (s : State) : check i s = gridFault s := by
  simp [check, gridFault, hw, hu, Uses.nothing, State.area, State.nRows, State.nCols, Config.minArea, Config.maxArea]

/-- The completion of a command other than `TALLY` and `DECODE` changes `BUSY` and `DONE` outside the buffers
(30_encoding.md R97). -/
theorem completed_effectOf {i : Instr} (h1 : i ≠ .tally) (h2 : i ≠ .decode) (s : State) :
    completed s (complete (effectOf i s)) := by
  obtain ⟨hsame, -⟩ := completion_same i s
  refine ⟨hsame, ?_⟩
  rw [complete_status, onlyMem_effectOf h1 h2 s, withMem_status]

/-- Settles O22: each sample over the grid is the model's component of the pixel, and that is `cr` of R110. -/
theorem rgb2yuvWritesPlanes : Obligations.Rgb2yuvWritesPlanes := by
  refine ⟨decode_encode (i := .rgb2yuv) rfl, check_eq_gridFault rfl rfl, fun s hbusy hgrid => ?_⟩
  obtain ⟨-, hA⟩ := (gridFault_eq_none_iff s).mp hgrid
  refine ⟨_, exec_completes hbusy rfl, completed_effectOf (by decide) (by decide) s, ?planes, ?frame⟩
  case planes =>
    intro r c hr hc
    have hsample (ch : Channel) :
        (complete (effectOf .rgb2yuv s)).sample ch (s.gridCell r c) = s.yuvOf ch (s.gridCell r c) :=
      (sample_complete _ _ _).trans (rgb2yuv_sample s hA ch (gridCell_lt s hr hc))
    rw [hsample, hsample, hsample]
    exact rgb2yuv_eq_cr _ _ _
  case frame => exact fun a ha => (byte_complete _ a).trans (rgb2yuv_byte s (not_exists.mp ha))

/-- The fourth byte of a pixel word of a legal grid has no cell (20_memory.md R66). -/
theorem not_stored_of_gridBytes {s : State} (hA : s.area ≤ 16777216) {a : ℕ} (ha : s.gridBytes a) (h3 : a % 4 = 3) :
    stored a = false := by
  obtain ⟨hlo, hhi⟩ := ha
  obtain ⟨k, rfl⟩ := Nat.exists_eq_add_of_le hlo
  have hbase : rgbBase % 4 = 0 := rfl
  rw [stored_rgb (by omega), (by omega : k % 4 = 3)]
  rfl

/-- Settles O23: each component over the grid is the model's component of the three samples, and that is `cr` of
R113. -/
theorem yuv2rgbWritesGrid : Obligations.Yuv2rgbWritesGrid := by
  refine ⟨decode_encode (i := .yuv2rgb) rfl, check_eq_gridFault rfl rfl, fun s hbusy hgrid => ?_⟩
  obtain ⟨-, hA⟩ := (gridFault_eq_none_iff s).mp hgrid
  refine ⟨_, exec_completes hbusy rfl, completed_effectOf (by decide) (by decide) s, ?pixels, ?frame⟩
  case pixels =>
    intro r c hr hc
    have hpixel {x : ℕ} (hx : x < 3) :
        (complete (effectOf .yuv2rgb s)).pixel (s.gridCell r c) x = s.rgbOf x (s.gridCell r c) :=
      (pixel_complete _ _ _).trans (yuv2rgb_pixel s hA (gridCell_lt s hr hc) hx)
    rw [hpixel (by decide), hpixel (by decide), hpixel (by decide)]
    exact yuv2rgb_eq_cr _ _ _
  case frame =>
    intro a ha
    refine (byte_complete _ a).trans (yuv2rgb_byte s ?_)
    by_cases hin : s.gridBytes a
    · exact .inr (not_stored_of_gridBytes hA hin (ha.resolve_left (not_not.mpr hin)))
    · exact .inl hin

end Sys2Proof.Machine
end

