-- ==== Sys2Proof/Proofs/Subsample.lean ====
section
/-!
PROOFS. Statements of 41_subsample.md: what `SUBSAMP` writes, that a second one changes nothing, and that a subsampled
plane has no detail. All three rest on `subsamp_sample`: a sample of a selected plane becomes that of its even cell.
-/

namespace Sys2Proof.Machine

open Sys2Proof.Stated

/-! ### The command -/

/-- The planes that `SUBMODE` selects (10_state.md R30; 41_subsample.md R132). -/
theorem mem_selected_iff (s : State) (ch : Channel) :
    ch ∈ s.selected ↔ (ch = .u ∧ (s.submode.toNat = 0 ∨ s.submode.toNat = 2)) ∨
      (ch = .v ∧ (s.submode.toNat = 1 ∨ s.submode.toNat = 2)) := by
  unfold State.selected
  split
  case h_1 hm => simp [hm]
  case h_2 hm => simp [hm]
  case h_3 hm => simp [hm]
  case h_4 h0 h1 h2 => simpa using ⟨fun _ => ⟨h0, h2⟩, fun _ => ⟨h1, h2⟩⟩

/-- A chain of tests followed by another is one chain, in that order (60_exceptions.md R228). -/
theorem ite_some_or {α : Type} (p : Prop) [Decidable p] (k : α) (o o' : Option α) :
    (if p then some k else o).or o' = if p then some k else o.or o' := by
  split <;> rfl

/-- The check of a command that uses the grid and `SUBMODE` only is those two tests, in that order (60_exceptions.md
R227, R228). -/
theorem check_subsamp (s : State) : check .subsamp s = (gridFault s).or (submodeFault s) := by
  have hwf : Instr.subsamp.wellFormed = true := rfl
  simp [check, gridFault, submodeFault, hwf, uses, Uses.nothing, State.area, State.nRows, State.nCols, Config.minArea,
    Config.maxArea, ite_some_or]

/-- The grid of a `SUBSAMP` whose checks pass fits the planes (R227 test 2). -/
theorem area_le_of_check_subsamp {s : State} (h : check .subsamp s = none) : s.area ≤ 16777216 := by
  obtain ⟨-, hgrid, -⟩ := check_none h
  obtain ⟨-, hA⟩ := hgrid rfl
  exact hA

/-- The completion of `SUBSAMP` is its effect (30_encoding.md R97). -/
theorem exec_subsamp_completes {s : State} (hb : s.status.busy = true) :
    exec .subsamp s = .next (complete (subsampEffect s)) := exec_completes hb rfl

theorem sameConfig_subsamp (s : State) : s.sameConfig (subsampEffect s) := by
  obtain ⟨⟨-, -, hconfig, -⟩, -⟩ := onlyMem_subsamp.same s
  exact hconfig

/-- The next command in flight meets the buffers and the configuration that the one before left. -/
theorem sameReads_inFlight_complete (s : State) : s.sameReads (inFlight (complete s)) := sameReads_refl s

/-- `SUBSAMP` by row and column (R132). -/
theorem subsamp_sample_gridCell {s : State} (hA : s.area ≤ 16777216) {ch : Channel} (hch : ch ∈ s.selected) {r c : ℕ}
    (hr : r < s.nRows) (hc : c < s.nCols) :
    (subsampEffect s).sample ch (s.gridCell r c) = s.sample ch (s.gridCell (r - r % 2) (c - c % 2)) := by
  rw [subsamp_sample s hA hch (gridCell_lt s hr hc), evenCell_eq s hc]

/-- Settles O24: the planes that the statement writes out are those of `selected`; a sample of one is that of its even
cell, and every other byte is kept. -/
theorem subsampOverwritesOddCells : Obligations.SubsampOverwritesOddCells := by
  refine ⟨decode_encode (i := .subsamp) rfl, check_subsamp, fun s hbusy hcheck => ?_⟩
  have hA := area_le_of_check_subsamp hcheck
  refine ⟨_, exec_subsamp_completes hbusy, completed_effectOf (i := .subsamp) (by decide) (by decide) s, ?planes,
    ?frame⟩
  case planes =>
    intro ch r c hsel hr hc
    exact (sample_complete _ _ _).trans (subsamp_sample_gridCell hA ((mem_selected_iff s ch).mpr hsel) hr hc)
  case frame =>
    intro a ha
    refine (byte_complete _ a).trans (subsamp_byte s fun ch hch hplane => ha ?_)
    exact ⟨ch, (mem_selected_iff s ch).mp hch, hplane⟩

/-! ### A second SUBSAMP -/

/-- An even cell is its own even cell: its row and column are even (R131). -/
theorem evenCell_evenCell (s : State) {k : ℕ} (hk : k < s.area) : s.evenCell (s.evenCell k) = s.evenCell k := by
  obtain ⟨-, hc, -⟩ := cell_split hk
  have heven (n : ℕ) : (n - n % 2) % 2 = 0 := even_sub_mod rfl
  have hcell : s.evenCell k = s.gridCell (k / s.nCols - k / s.nCols % 2) (k % s.nCols - k % s.nCols % 2) := rfl
  rw [hcell, evenCell_eq s (Nat.lt_of_le_of_lt (Nat.sub_le _ _) hc), heven, heven, Nat.sub_zero, Nat.sub_zero]

/-- Subsampling is idempotent on the buffers: a sample of a selected plane is that of its even cell already, and every
other byte is kept both times. -/
theorem subsamp_subsamp_byte {s : State} (hA : s.area ≤ 16777216) (a : ℕ) :
    (subsampEffect (subsampEffect s)).byte a = (subsampEffect s).byte a := by
  obtain ⟨-, -, -, harea, -, -, -, -, -, -, -, -, -, -, hsel, -, -, -, heven⟩ := operands_congr (sameConfig_subsamp s)
  by_cases ha : ∃ ch ∈ s.selected, s.planeBytes ch a
  · obtain ⟨ch, hch, hlo, hhi⟩ := ha
    obtain ⟨k, rfl⟩ := Nat.exists_eq_add_of_le hlo
    have hk : k < s.area := by omega
    calc (subsampEffect (subsampEffect s)).sample ch k
        = (subsampEffect s).sample ch (s.evenCell k) := by
          rw [subsamp_sample _ (harea ▸ hA) (hsel ▸ hch) (harea ▸ hk), heven]
      _ = s.sample ch (s.evenCell k) := by
          rw [subsamp_sample s hA hch (evenCell_lt s hk), evenCell_evenCell s hk]
      _ = (subsampEffect s).sample ch k := (subsamp_sample s hA hch hk).symm
  · refine subsamp_byte _ fun ch hch hplane => ha ⟨ch, hsel ▸ hch, ?_⟩
    unfold State.planeBytes at hplane ⊢
    rwa [harea] at hplane

/-- Settles O53: the second `SUBSAMP` meets the buffers of the first, and subsampling is idempotent. -/
theorem subsampIsIdempotent : Obligations.SubsampIsIdempotent := by
  intro s t hbusy hcheck ht
  rw [exec_subsamp_completes hbusy] at ht
  obtain rfl := Host.Outcome.next.inj ht
  refine ⟨_, exec_subsamp_completes rfl, fun a => ?_⟩
  have hreads := sameReads_subsamp (sameReads_inFlight_complete (subsampEffect s))
  rw [byte_complete, byte_complete, sameReads_byte hreads]
  exact subsamp_subsamp_byte (area_le_of_check_subsamp hcheck) a

/-! ### DWTFWD of a subsampled plane -/

/-- The four samples of a tile are one after `SUBSAMP` (R134). -/
theorem subsamp_tile {s : State} (hA : s.area ≤ 16777216) {ch : Channel} (hch : ch ∈ s.selected) {i j y x : ℕ}
    (hi : i < s.subRows) (hj : j < s.subCols) (hy : y < 2) (hx : x < 2) :
    (subsampEffect s).sampleInt ch (2 * i + y) (2 * j + x) = s.sampleInt ch (2 * i) (2 * j) := by
  obtain ⟨-, -, -, -, -, -, -, -, -, -, -, -, -, -, -, hcell, -⟩ := operands_congr (sameConfig_subsamp s)
  obtain ⟨hr, hc⟩ := tile_in_grid s hi hj
  have heven {n z : ℕ} (hz : z < 2) : 2 * n + z - (2 * n + z) % 2 = 2 * n := by omega
  unfold State.sampleInt
  rw [hcell, subsamp_sample_gridCell hA hch (by omega) (by omega), heven hy, heven hx]

/-- A tile of four equal samples has no detail, and eight times the sample as its average in quarters (42_wavelet.md
R142). -/
theorem haarCoeff_flat (n : ℤ) :
    haarCoeff .sh n n n n = 0 ∧ haarCoeff .sv n n n n = 0 ∧ haarCoeff .sd n n n n = 0 ∧
      haarCoeff .sa n n n n = 8 * n := by
  have hgain : haarGain = 2 := rfl
  simp only [haarCoeff, hgain]
  omega

/-- `DWTFWD` of a plane that `SUBSAMP` has just selected transforms flat tiles (R134). -/
theorem dwtfwd_subsamp_coeff {s : State} (hA : s.area ≤ 16777216) {ch : Channel} (hch : ch ∈ s.selected)
    (b : Subband) {i j : ℕ} (hi : i < s.subRows) (hj : j < s.subCols) :
    (dwtfwdEffect ch (subsampEffect s)).coeff b (s.subCell i j) =
      haarCoeff b (s.sampleInt ch (2 * i) (2 * j)) (s.sampleInt ch (2 * i) (2 * j)) (s.sampleInt ch (2 * i) (2 * j))
        (s.sampleInt ch (2 * i) (2 * j)) := by
  obtain ⟨-, -, -, -, -, -, hrows, hcols, -, -, -, -, -, -, -, -, hcell, -⟩ :=
    operands_congr (sameConfig_subsamp s)
  have hsub : 4 * (s.subRows * s.subCols) ≤ 16777216 := Nat.le_trans (sub_area_le s) hA
  have htile {y x : ℕ} (hy : y < 2) (hx : x < 2) := subsamp_tile hA hch hi hj hy hx
  rw [← hcell, dwtfwd_coeff _ ch b (by rwa [hrows, hcols]) (hrows ▸ hi) (hcols ▸ hj), State.forwardCoeff]
  congr 1
  · exact htile (y := 0) (x := 0) (by decide) (by decide)
  · exact htile (y := 0) (x := 1) (by decide) (by decide)
  · exact htile (y := 1) (x := 0) (by decide) (by decide)
  · exact htile (y := 1) (x := 1) (by decide) (by decide)

/-- Settles O52: `DWTFWD` meets the buffers of `SUBSAMP`, where every tile is flat. -/
theorem subsampledPlaneHasNoDetail : Obligations.SubsampledPlaneHasNoDetail := by
  intro s t ch hbusy hcheck _ hch ht
  rw [exec_subsamp_completes hbusy] at ht
  obtain rfl := Host.Outcome.next.inj ht
  refine ⟨_, exec_dwtfwd_completes ch rfl, fun i j hi hj => ?_⟩
  obtain ⟨-, -, hcoeff, -⟩ := sameReads_cells (sameReads_dwtfwd (sameReads_inFlight_complete (subsampEffect s)) ch)
  have hflat (b : Subband) := dwtfwd_subsamp_coeff (area_le_of_check_subsamp hcheck) hch b hi hj
  simp only [coeff_complete, hcoeff, hflat]
  exact haarCoeff_flat (s.sampleInt ch (2 * i) (2 * j))

end Sys2Proof.Machine
end

