-- ==== Sys2Proof/Proofs/Wavelet.lean ====
section
/-!
PROOFS. Statements of 42_wavelet.md: what `DWTFWD` and `DWTINV` write, and the transposition that the second makes of
the first. Each formula is first stated for one tile, with the row `y` and the column `x` of a sample in it.
-/

namespace Sys2Proof.Machine

open Sys2Proof.Stated

/-! ### Words and checks of the commands with a channel -/

/-- The word of a `CMDC` command has its channel in bits 9:8 and its opcode below (30_encoding.md R90, R98). -/
theorem encode_eq_channelWord {i : Instr} {ch : Channel} (hch : i.channelField = fieldOf ch) :
    Sys2Proof.encode i = channelWord i.opcode.toNat ch := by
  have hop := i.opcode.isLt
  have hindex := ch.index_lt
  have hfield : (0#22 ++ fieldOf ch).toNat = ch.index := by cases ch <;> rfl
  apply BitVec.eq_of_toNat_eq
  rw [Sys2Proof.encode, hch, BitVec.toNat_append, hfield, ← Nat.shiftLeft_add_eq_or_of_lt hop, Nat.shiftLeft_eq,
    channelWord, BitVec.toNat_ofNat]
  omega

/-- The word of a `CMDC` command decodes to it (R92, R98). -/
theorem decode_channelWord {i : Instr} {ch : Channel} (hw : i.wellFormed = true) (hch : i.channelField = fieldOf ch) :
    Sys2Proof.decode (channelWord i.opcode.toNat ch) = .ok i := by
  rw [← encode_eq_channelWord hch]
  exact decode_encode hw

/-- The check of a command that uses the grid and `BSIZE` only is those two tests, in that order (60_exceptions.md R227,
R228). -/
theorem check_eq_gridFault_or_blockFault {i : Instr} (hw : i.wellFormed = true)
    (hu : uses i = { Uses.nothing with grid := true, bsize := true }) (s : State) :
    check i s = (gridFault s).or (blockFault s) := by
  simp [check, gridFault, blockFault, hw, hu, Uses.nothing, badBlock_iff, State.blk, State.area, State.nRows,
    State.nCols, Config.minArea, Config.maxArea, ite_some_or]

/-- A command with an illegal channel is an illegal command, before every other test (R93, R228). -/
theorem check_of_not_wellFormed {i : Instr} (hw : i.wellFormed = false) (s : State) :
    check i s = some .illegalCommand := if_pos hw

/-- The grid of a command that uses it fits the planes where the checks pass (60_exceptions.md R227 test 2). -/
theorem area_le_of_check {i : Instr} {s : State} (hu : (uses i).grid = true) (h : check i s = none) :
    s.area ≤ 16777216 := by
  obtain ⟨-, hgrid, -⟩ := check_none h
  obtain ⟨-, hA⟩ := hgrid hu
  exact hA

/-! ### DWTFWD -/

theorem wellFormed_dwtfwd (ch : Channel) : (Instr.dwtfwd (fieldOf ch)).wellFormed = true := channelLegal_fieldOf ch

/-- The field of `ch` selects plane `ch` (R91). -/
theorem effectOf_dwtfwd (ch : Channel) (s : State) : effectOf (.dwtfwd (fieldOf ch)) s = dwtfwdEffect ch s := by
  rw [effectOf, ofField_fieldOf, Option.elim_some]

theorem completed_dwtfwd (ch : Channel) (s : State) : completed s (complete (dwtfwdEffect ch s)) := by
  rw [← effectOf_dwtfwd]
  exact completed_effectOf (by simp) (by simp) s

/-- The tile function, in quarters (42_wavelet.md R142). -/
theorem haarCoeff_eq (a b c d : ℤ) :
    haarCoeff .sa a b c d = 2 * (a + b + c + d) ∧ haarCoeff .sh a b c d = 2 * (a + b - c - d) ∧
      haarCoeff .sv a b c d = 2 * (a - b + c - d) ∧ haarCoeff .sd a b c d = 2 * (a - b - c + d) :=
  ⟨rfl, rfl, rfl, rfl⟩

/-- Settles O25: each cell is the coefficient of its tile, and that is the form of R143. -/
theorem dwtfwdWritesSubbands : Obligations.DwtfwdWritesSubbands := by
  refine ⟨fun ch => decode_channelWord (i := .dwtfwd (fieldOf ch)) (wellFormed_dwtfwd ch) rfl,
    fun s ch => check_eq_gridFault_or_blockFault (wellFormed_dwtfwd ch) rfl s,
    check_of_not_wellFormed rfl, fun s ch hbusy hcheck => ?_⟩
  have hsub := Nat.le_trans (sub_area_le s) (area_le_of_check rfl hcheck)
  refine ⟨_, exec_dwtfwd_completes ch hbusy, completed_dwtfwd ch s, ?cells, ?frame⟩
  case cells =>
    intro i j hi hj
    simp only [coeff_complete, dwtfwd_coeff s ch _ hsub hi hj]
    exact haarCoeff_eq _ _ _ _
  case frame => exact fun a ha => (byte_complete _ a).trans (dwtfwd_byte s ch ha)

/-! ### DWTINV -/

theorem wellFormed_dwtinv (ch : Channel) : (Instr.dwtinv (fieldOf ch)).wellFormed = true := channelLegal_fieldOf ch

theorem effectOf_dwtinv (ch : Channel) (s : State) : effectOf (.dwtinv (fieldOf ch)) s = dwtinvEffect ch s := by
  rw [effectOf, ofField_fieldOf, Option.elim_some]

theorem completed_dwtinv (ch : Channel) (s : State) : completed s (complete (dwtinvEffect ch s)) := by
  rw [← effectOf_dwtinv]
  exact completed_effectOf (by simp) (by simp) s

/-- The completion of `DWTINV ch` is its effect on plane `ch` (30_encoding.md R97; 42_wavelet.md R146). -/
theorem exec_dwtinv_completes {s : State} (ch : Channel) (hb : s.status.busy = true) :
    exec (.dwtinv (fieldOf ch)) s = .next (complete (dwtinvEffect ch s)) := by
  rw [exec_completes hb (wellFormed_dwtinv ch), effectOf_dwtinv]

/-- Row `y` and column `x` of the tile of a subband cell lie in the region (00_scope.md R13). -/
theorem tile_in_region {s : State} {i j y x : ℕ} (hi : i < s.subRows) (hj : j < s.subCols) (hy : y < 2) (hx : x < 2) :
    2 * i + y < s.regionRows ∧ 2 * j + x < s.regionCols := by
  unfold State.subRows at hi
  unfold State.subCols at hj
  omega

/-- The numerator, in eighths, of the sample that `DWTINV` makes in row `y` and column `x` of the tile of subband cell
`(i, j)` (R145). -/
def State.inverseNum (s : State) (i j y x : ℕ) : ℤ :=
  haarInverse y x (s.coeff .sa (s.subCell i j)) (s.coeff .sh (s.subCell i j)) (s.coeff .sv (s.subCell i j))
    (s.coeff .sd (s.subCell i j))

/-- `DWTINV` by tile (R146). -/
theorem dwtinv_sample_tile {s : State} (ch : Channel) (hA : s.area ≤ 16777216) {i j y x : ℕ} (hi : i < s.subRows)
    (hj : j < s.subCols) (hy : y < 2) (hx : x < 2) :
    (dwtinvEffect ch s).sample ch (s.gridCell (2 * i + y) (2 * j + x)) = clipRound (s.inverseNum i j y x) 8 := by
  obtain ⟨hr, hc⟩ := tile_in_region hi hj hy hx
  have hdiv {n z : ℕ} (hz : z < 2) : (2 * n + z) / 2 = n := by omega
  have hmod {n z : ℕ} (hz : z < 2) : (2 * n + z) % 2 = z := by omega
  rw [dwtinv_sample s ch hA hr hc, State.inverseSample, hdiv hy, hdiv hx, hmod hy, hmod hx]
  rfl

/-- Settles O26: each sample of a tile is the clipped and rounded numerator, and that is `cr` of R146. -/
theorem dwtinvWritesRegion : Obligations.DwtinvWritesRegion := by
  refine ⟨fun ch => decode_channelWord (i := .dwtinv (fieldOf ch)) (wellFormed_dwtinv ch) rfl,
    fun s ch => check_eq_gridFault_or_blockFault (wellFormed_dwtinv ch) rfl s,
    check_of_not_wellFormed rfl, fun s ch hbusy hcheck => ?_⟩
  have hA := area_le_of_check rfl hcheck
  refine ⟨_, exec_dwtinv_completes ch hbusy, completed_dwtinv ch s, ?samples, ?frame⟩
  case samples =>
    intro i j hi hj
    have hsample {y x : ℕ} (hy : y < 2) (hx : x < 2) :
        (((complete (dwtinvEffect ch s)).sample ch (s.gridCell (2 * i + y) (2 * j + x))).toNat : ℤ) =
          cr ((s.inverseNum i j y x : ℚ) / (8 : ℕ)) := by
      rw [sample_complete, dwtinv_sample_tile ch hA hi hj hy hx, cr_div _ (by decide)]
    refine ⟨(hsample (y := 0) (x := 0) (by decide) (by decide)).trans ?_,
      (hsample (y := 0) (x := 1) (by decide) (by decide)).trans ?_,
      (hsample (y := 1) (x := 0) (by decide) (by decide)).trans ?_,
      (hsample (y := 1) (x := 1) (by decide) (by decide)).trans ?_⟩
    all_goals
      simp only [State.inverseNum, haarInverse]
      push_cast
      rfl
  case frame => exact fun a ha => (byte_complete _ a).trans (dwtinv_byte s ch ha)

/-! ### DWTINV after DWTFWD -/

/-- The swapped inverse of the tile function gives eight times the sample across the diagonal (42_wavelet.md R147). -/
theorem haarInverse_haarCoeff (p : ℕ → ℕ → ℤ) {y x : ℕ} (hy : y < 2) (hx : x < 2) :
    haarInverse y x (haarCoeff .sa (p 0 0) (p 0 1) (p 1 0) (p 1 1)) (haarCoeff .sh (p 0 0) (p 0 1) (p 1 0) (p 1 1))
      (haarCoeff .sv (p 0 0) (p 0 1) (p 1 0) (p 1 1)) (haarCoeff .sd (p 0 0) (p 0 1) (p 1 0) (p 1 1)) =
        8 * p x y := by
  obtain ⟨ha, hh, hv, hd⟩ := haarCoeff_eq (p 0 0) (p 0 1) (p 1 0) (p 1 1)
  rw [ha, hh, hv, hd]
  interval_cases y <;> interval_cases x
  all_goals
    simp only [haarInverse]
    ring

/-- Eight eighths of a sample are the sample: nothing is clipped or rounded. -/
theorem clipRound_eight_mul (b : Byte) : clipRound (8 * (b.toNat : ℤ)) 8 = b :=
  clipRound_eq_of_nearest (by decide) (by omega) (by omega)

theorem sameConfig_dwtfwd (ch : Channel) (s : State) : s.sameConfig (dwtfwdEffect ch s) := by
  obtain ⟨⟨-, -, hconfig, -⟩, -⟩ := (onlyMem_dwtfwd ch).same s
  exact hconfig

/-- `DWTINV` of the subbands that `DWTFWD` has just made returns every tile transposed (R147). -/
theorem dwtinv_dwtfwd_sample {s : State} (ch : Channel) (hA : s.area ≤ 16777216) {i j y x : ℕ} (hi : i < s.subRows)
    (hj : j < s.subCols) (hy : y < 2) (hx : x < 2) :
    (dwtinvEffect ch (dwtfwdEffect ch s)).sample ch (s.gridCell (2 * i + y) (2 * j + x)) =
      s.sample ch (s.gridCell (2 * i + x) (2 * j + y)) := by
  obtain ⟨-, -, -, harea, -, -, hrows, hcols, -, -, -, -, -, -, -, hgrid, hsubCell, -⟩ :=
    operands_congr (sameConfig_dwtfwd ch s)
  have hsub := Nat.le_trans (sub_area_le s) hA
  have hnum : (dwtfwdEffect ch s).inverseNum i j y x = 8 * s.sampleInt ch (2 * i + x) (2 * j + y) := by
    simp only [State.inverseNum, hsubCell, dwtfwd_coeff s ch _ hsub hi hj]
    exact haarInverse_haarCoeff (fun y x => s.sampleInt ch (2 * i + y) (2 * j + x)) hy hx
  rw [← hgrid, dwtinv_sample_tile ch (harea ▸ hA) (hrows ▸ hi) (hcols ▸ hj) hy hx, hnum]
  exact clipRound_eight_mul _

/-- Settles O51: `DWTINV` meets the subbands of `DWTFWD`; a place of the region is one of the tile of its halved row and
column. -/
theorem swapTransposesTiles : Obligations.SwapTransposesTiles := by
  intro s t ch hbusy hcheck ht
  rw [exec_dwtfwd_completes ch hbusy] at ht
  obtain rfl := Host.Outcome.next.inj ht
  refine ⟨_, exec_dwtinv_completes ch rfl, fun r c hr hc => ?_⟩
  obtain ⟨-, -, hblock, -⟩ := check_none hcheck
  obtain ⟨hblkEven, -⟩ := hblock rfl
  obtain ⟨hrows, hcols⟩ := region_even s hblkEven
  obtain ⟨-, hsample, -⟩ := sameReads_cells (sameReads_dwtinv (sameReads_inFlight_complete (dwtfwdEffect ch s)) ch)
  have htile := dwtinv_dwtfwd_sample ch (area_le_of_check rfl hcheck) (i := r / 2) (j := c / 2) (y := r % 2)
    (x := c % 2) (by omega) (by omega) (Nat.mod_lt _ (by decide)) (Nat.mod_lt _ (by decide))
  have heven (n : ℕ) : n - n % 2 = 2 * (n / 2) := by omega
  rw [sample_complete, hsample, heven, heven, ← htile, Nat.div_add_mod, Nat.div_add_mod]

end Sys2Proof.Machine
end

