-- ==== Sys2Proof/Proofs/Embed.lean ====
section
/-!
PROOFS. Statements of 43_embed.md: the dominant position of a block, and what `EMBED` writes into it. The integer form
of R163 meets the rational one in `embedReal_quarters`.
-/

namespace Sys2Proof.Machine

open Sys2Proof.Stated

/-! ### The dominant position -/

/-- The model's scan finds a dominant position (43_embed.md R162). -/
theorem isDominant_dominant {s : State} (hb : 2 ≤ s.blk) (i : ℕ) : isDominant s i (s.dominant i) := by
  obtain ⟨hpos, hle, hmax, hleast⟩ := argMax_spec (fun p => (s.blockCoeff i p).natAbs) (s.blk * s.blk - 2)
  have hside : 2 * 2 ≤ s.blk * s.blk := Nat.mul_le_mul hb hb
  have hlast : s.blk * s.blk - 2 + 1 = s.blk * s.blk - 1 := by omega
  rw [hlast] at hle hmax
  exact ⟨⟨hpos, hle⟩, hmax, fun p' h1 h2 => ⟨_, hpos, hle, hleast p' h1 h2⟩⟩

/-- No dominant position comes after another: a cell of a smaller position would exceed the greatest. -/
theorem isDominant_le {s : State} {i p p' : ℕ} (h : isDominant s i p) (h' : isDominant s i p') : p ≤ p' := by
  obtain ⟨-, -, hleast⟩ := h
  obtain ⟨⟨hpos', -⟩, hmax', -⟩ := h'
  by_contra hlt
  obtain ⟨q, hq1, hq2, hexceeds⟩ := hleast p' hpos' (not_le.mp hlt)
  exact absurd (hmax' q hq1 hq2) (not_le.mpr hexceeds)

/-- Settles O27: the scan finds a dominant position, and a block has only one. -/
theorem dominantIsLeastMaximum : Obligations.DominantIsLeastMaximum := by
  intro s i p hb
  have hscan := isDominant_dominant hb i
  constructor
  · rintro rfl
    exact hscan
  · exact fun hp => le_antisymm (isDominant_le hscan hp) (isDominant_le hp hscan)

/-! ### The checks of the commands on the dominant cells -/

/-- Test 4 of 60_exceptions.md R227 on the scale of a channel. -/
theorem scaleFault_eq (s : State) (ch : Channel) :
    scaleFault s ch = if 32767 < s.scale ch then some .badScale else none := by
  cases ch <;> rfl

/-- The check of a command that uses the grid, `BSIZE`, one scale and `WMBYTES` is those four tests, in that order
(R227, R228). -/
theorem check_eq_channel_payload {i : Instr} {ch : Channel} (hw : i.wellFormed = true)
    (hu : uses i = { Uses.nothing with grid := true, bsize := true, scales := [ch], wmbytes := true }) (s : State) :
    check i s = (gridFault s).or ((blockFault s).or ((scaleFault s ch).or (lengthFault s))) := by
  simp [check, gridFault, blockFault, scaleFault_eq, lengthFault, hw, hu, Uses.nothing, badBlock_iff, State.blk,
    State.area, State.nRows, State.nCols, State.nBytes, Config.minArea, Config.maxArea, Config.scaleMax, Config.pmax,
    ite_some_or]

/-! ### The embedded cell -/

/-- The coefficient that R163 embeds, in quarters, before it is wrapped to a word. -/
def embedQuarters (n : ℤ) (scale : ℕ) (bit : Bool) : ℤ :=
  if 0 ≤ n then embedMagnitude n scale bit else -embedMagnitude n scale bit

theorem embedCell_eq_wrap32 (n : ℤ) (scale : ℕ) (bit : Bool) :
    embedCell n scale bit = wrap32 (embedQuarters n scale bit) := (apply_ite wrap32 _ _ _).symm

/-- The quantization cell of `n` quarters, by one division of naturals (43_embed.md R163). -/
theorem floor_quarters (n : ℤ) (scale : ℕ) : ⌊|(n : ℚ) / 4| / scale⌋ = (n.natAbs / (4 * scale) : ℕ) := by
  have hquot : |(n : ℚ) / 4| / scale = (n.natAbs : ℚ) / (4 * scale : ℕ) := by
    rw [abs_div, div_div, Nat.cast_natAbs]
    push_cast
    norm_num
  rw [hquot, Rat.floor_natCast_div_natCast]
  rfl

/-- Four times the document's embed function of `n / 4` is the model's number of quarters (R163). -/
theorem embedReal_quarters (n : ℤ) (scale : ℕ) (bit : Bool) :
    4 * embedReal ((n : ℚ) / 4) scale bit.toNat = embedQuarters n scale bit := by
  have hsign : 0 ≤ (n : ℚ) / 4 ↔ 0 ≤ n := by
    rw [le_div_iff₀ (by norm_num), zero_mul, Int.cast_nonneg_iff]
  have hfloor := floor_quarters n scale
  unfold embedReal embedQuarters embedMagnitude
  by_cases hn : 0 ≤ n
  · rw [abs_of_nonneg (hsign.mpr hn)] at hfloor
    rw [if_pos (hsign.mpr hn), if_pos hn, Int.cast_natCast, hfloor]
    push_cast
    ring
  · rw [if_neg (mt hsign.mp hn), if_neg hn, Int.cast_natCast, hfloor]
    push_cast
    ring

/-- The bit shifted out of its byte is the model's payload bit (R160). -/
theorem payloadBit_eq_toNat (s : State) (k : ℕ) : payloadBit s k = (s.payloadBit k).toNat := by
  rw [State.payloadBit, BitVec.getLsbD, Nat.toNat_testBit, payloadBit, Nat.shiftRight_eq_div_pow]
  rfl

/-! ### The carriers of a payload bit -/

/-- The blocks that carry one payload bit: the blocks are dealt to the bits in turn (R164). -/
theorem length_carriersOf (s : State) {k : ℕ} (hk : k < s.wmLen) :
    (carriersOf s k).length = s.nBlocks / s.wmLen + if k < s.nBlocks % s.wmLen then 1 else 0 := by
  have hcount := Nat.count_modEq_card s.nBlocks (Nat.zero_lt_of_lt hk) k
  rw [Nat.mod_eq_of_lt hk, Nat.count, List.countP_eq_length_filter] at hcount
  rw [← hcount, carriersOf]
  congr! 4
  rw [Nat.ModEq, Nat.mod_eq_of_lt hk]

/-! ### EMBED -/

theorem wellFormed_embed (ch : Channel) : (Instr.embed (fieldOf ch)).wellFormed = true := channelLegal_fieldOf ch

theorem uses_embed (ch : Channel) : uses (.embed (fieldOf ch)) =
    { Uses.nothing with grid := true, bsize := true, scales := [ch], wmbytes := true } := by
  rw [uses, ofField_fieldOf, Option.toList_some]

/-- The field of `ch` selects plane `ch` (30_encoding.md R91). -/
theorem effectOf_embed (ch : Channel) (s : State) : effectOf (.embed (fieldOf ch)) s = embedEffect ch s := by
  rw [effectOf, ofField_fieldOf, Option.elim_some]

theorem completed_embed (ch : Channel) (s : State) : completed s (complete (embedEffect ch s)) := by
  rw [← effectOf_embed]
  exact completed_effectOf (by simp) (by simp) s

/-- A scale at most 0 switches the channel off (43_embed.md R164). -/
theorem embedEffect_of_nonpos {s : State} {ch : Channel} (hs : s.scale ch ≤ 0) : embedEffect ch s = s := if_pos hs

/-- The dominant cell of a block after `EMBED`: the wrap of its coefficient with a payload bit embedded (R164). -/
theorem embed_coeff_dominant {s : State} {ch : Channel} (hb : 2 ≤ s.blk)
    (hA : 4 * (s.subRows * s.subCols) ≤ 16777216) (hs : 0 < s.scale ch) {i : ℕ} (hi : i < s.nBlocks) :
    (embedEffect ch s).coeff .sa (s.dominantCell i) =
      (wrap32 (embedQuarters (s.coeff .sa (s.dominantCell i)) (s.scale ch).toNat
        (s.payloadBit (i % s.wmLen)))).toInt := by
  rw [State.coeff, State.signedWord, embed_word s ch hb hA hs hi, State.embeddedWord, embedCell_eq_wrap32]

/-- Settles O28: the position of the statement is the model's dominant one, and the word in its cell is the wrap of the
quarters of R163; a payload bit carried by a remaining block has one carrier more. -/
theorem embedWritesDominantCells : Obligations.EmbedWritesDominantCells := by
  refine ⟨fun ch => decode_channelWord (i := .embed (fieldOf ch)) (wellFormed_embed ch) rfl,
    fun s ch => check_eq_channel_payload (wellFormed_embed ch) (uses_embed ch) s,
    check_of_not_wellFormed rfl, fun s ch hbusy hcheck => ?_⟩
  obtain ⟨-, -, hblock, -⟩ := check_none hcheck
  obtain ⟨-, hblk, -⟩ := hblock rfl
  have hsub := Nat.le_trans (sub_area_le s) (area_le_of_check rfl hcheck)
  refine ⟨_, exec_embed_completes ch hbusy, completed_embed ch s, ?skip, ?cells, ?carriers, ?frame⟩
  case skip =>
    intro hs
    rw [embedEffect_of_nonpos hs]
    rfl
  case cells =>
    intro hs i p hi hp
    obtain rfl := (dominantIsLeastMaximum s i p hblk).mpr hp
    refine ⟨embedQuarters (s.coeff .sa (s.dominantCell i)) (s.scale ch).toNat (s.payloadBit (i % s.wmLen)), ?_,
      (coeff_complete _ _ _).trans (embed_coeff_dominant hblk hsub hs hi)⟩
    have hscale : ((s.scale ch).toNat : ℤ) = s.scale ch := Int.toNat_of_nonneg hs.le
    rw [← embedReal_quarters, ← payloadBit_eq_toNat, hscale]
    rfl
  case carriers =>
    intro k hk
    rw [length_carriersOf s hk]
    split
    · exact .inr rfl
    · exact .inl rfl
  case frame => exact fun a ha => (byte_complete _ a).trans (embed_byte s ch (.inr ha))

end Sys2Proof.Machine
end

