-- ==== Sys2Proof/Proofs/Vote.lean ====
section
/-!
PROOFS. Statements of 44_extract_vote.md: an embedded cell reads back as its bit, what `EXTRACT` adds to the counters,
what `VCLEAR` empties, and that `TALLY` thresholds the votes and packs them as the inverse of taking payload bits. The
integer form of R177 meets the rational one in `extractReal_quarters`.
-/

namespace Sys2Proof.Machine

open Sys2Proof.Stated

/-! ### Reading an embedded cell back -/

/-- The embedded magnitude keeps its quantization cell and stands at one or three of its four quarters (43_embed.md
R163). -/
theorem embedMagnitude_mod_div (n : ℤ) {scale : ℕ} (hscale : 0 < scale) (bit : Bool) :
    embedMagnitude n scale bit % (4 * scale) = (if bit then 3 * scale else scale) ∧
      embedMagnitude n scale bit / (4 * scale) = n.natAbs / (4 * scale) := by
  obtain ⟨hsplit, -⟩ := embedMagnitude_bounds n scale bit
  have hquarter : (if bit then 3 * scale else scale) < 4 * scale := by split <;> omega
  rw [hsplit, Nat.mul_add_mod, Nat.mul_add_div (by omega), Nat.mod_eq_of_lt hquarter, Nat.div_eq_of_lt hquarter]
  exact ⟨rfl, rfl⟩

theorem natAbs_embedQuarters (n : ℤ) (scale : ℕ) (bit : Bool) :
    (embedQuarters n scale bit).natAbs = embedMagnitude n scale bit := by
  unfold embedQuarters
  split
  · exact Int.natAbs_natCast _
  · rw [Int.natAbs_neg, Int.natAbs_natCast]

/-- An embedded cell that fits a word has the magnitude of R163: nothing is wrapped. -/
theorem embedCell_natAbs {n : ℤ} {scale : ℕ} (bit : Bool) (hfit : n.natAbs + 3 * scale < 2 ^ 31) :
    (embedCell n scale bit).toInt.natAbs = embedMagnitude n scale bit := by
  obtain ⟨-, hbound⟩ := embedMagnitude_bounds n scale bit
  have habs := natAbs_embedQuarters n scale bit
  rw [embedCell_eq_wrap32, wrap32_toInt (by omega) (by omega), habs]

/-- Settles O54: the magnitude of the new cell splits into the old quantization cell and a remainder of one or three
quarters, and only the second exceeds one half. -/
theorem embeddedCellReadsBack : Obligations.EmbeddedCellReadsBack := by
  intro n sc bit hsc hfit
  obtain ⟨hmod, hdiv⟩ := embedMagnitude_mod_div n hsc bit
  rw [extractBit, embedCell_natAbs bit hfit, hmod, hdiv]
  refine ⟨rfl, ?_, rfl⟩
  cases bit
  · exact decide_eq_false (show ¬ 2 * sc < sc by omega)
  · exact decide_eq_true (show 2 * sc < 3 * sc by omega)

/-! ### The vote of a block -/

/-- The document's extract function of the magnitude of `n / 4` is the model's vote (44_extract_vote.md R177). -/
theorem extractReal_quarters (n : ℤ) (scale : ℕ) : extractReal (|(n : ℚ)| / 4) scale = extractBit n scale := by
  have hfloor : ⌊|(n : ℚ)| / 4 / scale⌋ = (n.natAbs / (4 * scale) : ℕ) := by
    rw [← floor_quarters, abs_div, abs_of_pos (four_pos : (0 : ℚ) < 4)]
  have hsplit : 4 * (scale : ℚ) * (n.natAbs / (4 * scale) : ℕ) + (n.natAbs % (4 * scale) : ℕ) = |(n : ℚ)| := by
    rw [← Int.cast_abs, ← Nat.cast_natAbs]
    exact_mod_cast Nat.div_add_mod n.natAbs (4 * scale)
  rw [extractReal, extractBit, decide_eq_decide, Int.cast_natCast, hfloor, Int.cast_natCast, ← hsplit,
    ← Nat.cast_lt (α := ℚ), Nat.cast_mul, Nat.cast_ofNat]
  constructor <;> intro h <;> linarith

/-- The vote of a block, on the cell in its dominant position (R177, R178). -/
theorem extractReal_dominant {s : State} {ch : Channel} (hs : 0 < s.scale ch) :
    (fun i => extractReal (|(s.coeff .sa (s.blockCell i (s.dominant i)) : ℚ)| / 4) (s.scale ch)) = s.blockVote ch := by
  funext i
  have hscale : ((s.scale ch).toNat : ℤ) = s.scale ch := Int.toNat_of_nonneg hs.le
  rw [← hscale]
  exact extractReal_quarters _ _

/-! ### EXTRACT -/

theorem wellFormed_extract (ch : Channel) : (Instr.extract (fieldOf ch)).wellFormed = true := channelLegal_fieldOf ch

theorem uses_extract (ch : Channel) : uses (.extract (fieldOf ch)) =
    { Uses.nothing with grid := true, bsize := true, scales := [ch], wmbytes := true } := by
  rw [uses, ofField_fieldOf, Option.toList_some]

/-- The field of `ch` selects plane `ch` (30_encoding.md R91). -/
theorem effectOf_extract (ch : Channel) (s : State) : effectOf (.extract (fieldOf ch)) s = extractEffect ch s := by
  rw [effectOf, ofField_fieldOf, Option.elim_some]

theorem exec_extract_completes {s : State} (ch : Channel) (hb : s.status.busy = true) :
    exec (.extract (fieldOf ch)) s = .next (complete (extractEffect ch s)) := by
  rw [exec_completes hb (wellFormed_extract ch), effectOf_extract]

theorem completed_extract (ch : Channel) (s : State) : completed s (complete (extractEffect ch s)) := by
  rw [← effectOf_extract]
  exact completed_effectOf (by simp) (by simp) s

/-- A scale at most 0 switches the channel off (44_extract_vote.md R178). -/
theorem extractEffect_of_nonpos {s : State} {ch : Channel} (hs : s.scale ch ≤ 0) : extractEffect ch s = s := if_pos hs

theorem extractEffect_of_pos {s : State} {ch : Channel} (hs : 0 < s.scale ch) :
    extractEffect ch s = (List.range s.nBlocks).foldl (extractBlock ch) s := if_neg (not_le.mpr hs)

/-- A counter after `EXTRACT`: `ONES` grows by the ones voted at its position, `TOTAL` by the votes, modulo 2^32
(R175, R178). -/
theorem extract_counters {s : State} {ch : Channel} (hs : 0 < s.scale ch) (h1 : 1 ≤ s.wmLen) (h2 : s.wmLen ≤ 2048)
    {k : ℕ} (hk : k < s.wmLen) :
    ((extractEffect ch s).ones k).toNat =
        ((s.ones k).toNat + (carriersOf s k).countP (s.blockVote ch)) % 2 ^ 32 ∧
      ((extractEffect ch s).total k).toNat = ((s.total k).toNat + (carriersOf s k).length) % 2 ^ 32 := by
  obtain ⟨hones, htotal⟩ := extract_fold ch (List.range s.nBlocks) s h1 h2 hk
  rw [extractEffect_of_pos hs, hones, htotal, BitVec.toNat_add, BitVec.toNat_add, BitVec.toNat_ofNat,
    BitVec.toNat_ofNat, Nat.add_mod_mod, Nat.add_mod_mod]
  exact ⟨rfl, rfl⟩

/-- `EXTRACT` leaves every byte but those of the counters in use. -/
theorem extract_byte {s : State} (ch : Channel) (h1 : 1 ≤ s.wmLen) {a : ℕ} (ha : ¬ s.voteBytes a) :
    (extractEffect ch s).byte a = s.byte a := by
  rcases le_or_gt (s.scale ch) 0 with hs | hs
  · rw [extractEffect_of_nonpos hs]
  · rw [extractEffect_of_pos hs, extract_fold_byte ch _ s h1 ha]

/-- Settles O29: the loop adds to each counter what the carriers of its position vote, and the model's vote is the
document's extract function of the dominant cell. -/
theorem extractCountsVotes : Obligations.ExtractCountsVotes := by
  refine ⟨fun ch => decode_channelWord (i := .extract (fieldOf ch)) (wellFormed_extract ch) rfl,
    fun s ch => check_eq_channel_payload (wellFormed_extract ch) (uses_extract ch) s,
    check_of_not_wellFormed rfl, fun s ch hbusy hcheck => ?_⟩
  obtain ⟨-, -, -, -, hlength, -⟩ := check_none hcheck
  obtain ⟨hpos, hmax⟩ := hlength rfl
  have hlen : s.wmLen = 8 * s.nBytes := rfl
  refine ⟨_, exec_extract_completes ch hbusy, completed_extract ch s, ?skip, ?counters, ?frame⟩
  case skip =>
    intro hs
    rw [extractEffect_of_nonpos hs]
    rfl
  case counters =>
    intro hs k hk
    obtain ⟨hones, htotal⟩ := extract_counters hs (by omega) (by omega) hk
    rw [ones_complete, total_complete, extractReal_dominant hs]
    exact ⟨hones, htotal, length_carriersOf s hk⟩
  case frame => exact fun a ha => (byte_complete _ a).trans (extract_byte ch (by omega) ha)

/-! ### VCLEAR -/

/-- The counters fill the two windows from end to end (20_memory.md R61, R70). -/
theorem allVoteBytes_iff (a : ℕ) : allVoteBytes a ↔ 0x4000 ≤ a ∧ a < 0x8000 := by
  simp only [allVoteBytes, within, onesBase, totalBase, Config.vmax, Config.pmax]
  omega

/-- A word among the counters reads 0 after `VCLEAR` (44_extract_vote.md R176). -/
theorem vclear_word (s : State) {a : ℕ} (h1 : 0x4000 ≤ a) (h2 : a + 4 ≤ 0x8000) : (vclearEffect s).word a = 0#32 := by
  refine word_of_bytes fun k hk => ?_
  rw [vclear_byte s ((allVoteBytes_iff _).mpr (by omega))]
  exact BitVec.extractLsb'_zero.symm

/-- Settles O30: the two restored ranges are the counters, whose reset contents are 0. -/
theorem vclearEmptiesAccumulator : Obligations.VclearEmptiesAccumulator := by
  refine ⟨decode_encode (i := .vclear) rfl, fun _ => rfl, fun s hbusy => ?_⟩
  refine ⟨_, exec_completes hbusy rfl, completed_effectOf (by decide) (by decide) s, ?counters, ?frame⟩
  case counters =>
    intro p hp
    rw [ones_complete, total_complete]
    exact ⟨vclear_word s (by unfold onesAddr onesBase; omega) (by unfold onesAddr onesBase; omega),
      vclear_word s (by unfold totalAddr totalBase; omega) (by unfold totalAddr totalBase; omega)⟩
  case frame => exact fun a ha => (byte_complete _ a).trans (vclear_byte_of_not s (mt (allVoteBytes_iff a).mp ha))

/-! ### TALLY -/

/-- The check of `TALLY` is the length test (60_exceptions.md R227). -/
theorem check_tally (s : State) : check .tally s = lengthFault s := by
  have hwf : Instr.tally.wellFormed = true := rfl
  simp [check, lengthFault, hwf, uses, Uses.nothing, State.nBytes, Config.pmax]

theorem exec_tally_completes {s : State} (hb : s.status.busy = true) :
    exec .tally s = .next (complete (tallyEffect s)) := exec_completes hb rfl

/-- The final bit of the document, as a number (44_extract_vote.md R181). -/
theorem finalBit_eq_toNat (s : State) (p : ℕ) : finalBit s p = (s.finalBit p).toNat := (Bool.cond_decide _ _ _).symm

theorem someEmpty_iff (s : State) : s.someEmpty = true ↔ ∃ p, p < s.wmLen ∧ s.total p = 0#32 := by
  simp only [State.someEmpty, List.any_eq_true, List.mem_range, beq_iff_eq]

/-- A running sum over a range. -/
theorem foldl_add_range (f : ℕ → ℕ) (n : ℕ) :
    (List.range n).foldl (fun acc k => acc + f k) 0 = ∑ k ∈ Finset.range n, f k := by
  induction n with
  | zero => rfl
  | succ n ih => rw [List.range_succ, List.foldl_append, ih, List.foldl_cons, List.foldl_nil, Finset.sum_range_succ]

/-- Eight bits, most significant first, make a byte. -/
theorem sum_bits_lt (f : ℕ → Bool) : ∑ k ∈ Finset.range 8, (f k).toNat * 2 ^ (7 - k) < 256 := by
  calc ∑ k ∈ Finset.range 8, (f k).toNat * 2 ^ (7 - k)
      ≤ ∑ k ∈ Finset.range 8, 1 * 2 ^ (7 - k) := Finset.sum_le_sum fun k _ => Nat.mul_le_mul_right _ (Bool.toNat_le _)
    _ < 256 := by decide

/-- A byte of `POUT` after `TALLY` is its eight final bits, most significant first (R180, R182). -/
theorem packedByte_toNat (s : State) (j : ℕ) :
    (s.packedByte j).toNat = ∑ k ∈ Finset.range 8, finalBit s (8 * j + k) * 2 ^ (7 - k) := by
  simp only [finalBit_eq_toNat, State.packedByte, Nat.shiftLeft_eq,
    foldl_add_range (fun k => (s.finalBit (8 * j + k)).toNat * 2 ^ (7 - k)), BitVec.toNat_ofNat]
  exact Nat.mod_eq_of_lt (sum_bits_lt _)

/-- Settles O31: the bytes in use of `POUT` are the packed ones, and `EMPTY` says whether some position has no vote. -/
theorem tallyThresholdsAndPacks : Obligations.TallyThresholdsAndPacks := by
  refine ⟨decode_encode (i := .tally) rfl, check_tally, fun s hbusy hlength => ?_⟩
  obtain ⟨-, hmax⟩ := (lengthFault_eq_none_iff s).mp hlength
  obtain ⟨hsame, hstatus⟩ := completion_same .tally s
  refine ⟨_, exec_tally_completes hbusy, hsame, hstatus, someEmpty_iff s, ?packed, ?frame⟩
  case packed =>
    intro j hj
    have hin : within poutBase s.nBytes (0x1100 + j) := ⟨Nat.le_add_right 0x1100 j, Nat.add_lt_add_left hj 0x1100⟩
    have hindex : 0x1100 + j - poutBase = j := Nat.add_sub_cancel_left 0x1100 j
    rw [byte_complete, tally_byte s hmax, if_pos hin, hindex, packedByte_toNat]
  case frame =>
    intro a ha
    have hout : ¬ within poutBase s.nBytes a := ha
    rw [byte_complete, tally_byte s hmax, if_neg hout]

/-! ### Packing after taking bits -/

/-- The binary digits of a number below place `n`. -/
theorem sum_digits (x n : ℕ) : ∑ k ∈ Finset.range n, x >>> k % 2 * 2 ^ k = x % 2 ^ n := by
  induction n with
  | zero => rw [Finset.sum_range_zero, pow_zero, Nat.mod_one]
  | succ n ih => rw [Finset.sum_range_succ, ih, Nat.mod_pow_succ, Nat.shiftRight_eq_div_pow, Nat.mul_comm]

/-- A byte is its eight bits, most significant first (44_extract_vote.md R180). -/
theorem sum_bits_byte (b : Byte) : ∑ k ∈ Finset.range 8, b.toNat >>> (7 - k) % 2 * 2 ^ (7 - k) = b.toNat := by
  calc ∑ k ∈ Finset.range 8, b.toNat >>> (7 - k) % 2 * 2 ^ (7 - k)
      = ∑ k ∈ Finset.range 8, b.toNat >>> k % 2 * 2 ^ k :=
        Finset.sum_range_reflect (fun k => b.toNat >>> k % 2 * 2 ^ k) 8
    _ = b.toNat % 2 ^ 8 := sum_digits _ _
    _ = b.toNat := Nat.mod_eq_of_lt b.isLt

/-- Position `8 j + k` of the payload is bit `7 - k` of its byte `j` (43_embed.md R160). -/
theorem payloadBit_of_byte (s : State) (j : ℕ) {k : ℕ} (hk : k < 8) :
    payloadBit s (8 * j + k) = (s.byte (0x1000 + j)).toNat >>> (7 - k) % 2 := by
  have hbyte : (8 * j + k) / 8 = j := by omega
  have hplace : (8 * j + k) % 8 = k := by omega
  rw [payloadBit, hbyte, hplace]

/-- Settles O56: the packed byte is the sum of the payload's bits, which is the payload's byte. -/
theorem tallyInvertsPayloadBits : Obligations.TallyInvertsPayloadBits := by
  intro s t hbusy hlength hbits ht j hj
  obtain ⟨-, -, hcompletes⟩ := tallyThresholdsAndPacks
  obtain ⟨u, hu, -, -, -, hpacked, -⟩ := hcompletes s hbusy hlength
  obtain rfl := Host.Outcome.next.inj (ht.symm.trans hu)
  apply BitVec.eq_of_toNat_eq
  rw [hpacked j hj, ← sum_bits_byte (s.byte (0x1000 + j))]
  refine Finset.sum_congr rfl fun k hk => ?_
  have hk8 := Finset.mem_range.mp hk
  have hp : 8 * j + k < s.wmLen := by unfold State.wmLen; omega
  rw [hbits _ hp, payloadBit_of_byte s j hk8]

end Sys2Proof.Machine
end

