-- ==== Sys2Proof/Proofs/Codec.lean ====
section
/-!
PROOFS. Statements of 45_codec.md: `NOP`, and that `ENCODE` and `DECODE` are the simple commands of their sequences in
one completion. While a command is in flight `afterEffect` is `effectOf`, so the buffers that a sequence leaves are
those of the effects in turn, and a byte that no command of the sequence writes is kept.
-/

namespace Sys2Proof.Machine

open Sys2Proof.Stated

/-! ### NOP -/

/-- Settles O21: the completion of no effect, and the issue of a word whose check gives no fault. -/
theorem nopCompletes : Obligations.NopCompletes := by
  refine ⟨decode_encode (i := .nop) rfl, fun _ => rfl, fun s hbusy => exec_completes hbusy rfl, fun s hidle herr => ?_⟩
  have hissue : issueCommand .nop s = issue 0x00000000#32 none s := if_neg (by simp [herr])
  rw [exec_idle hidle, hissue]
  rfl

/-! ### Effects one after the other -/

/-- Effects leave the configuration and the command in flight. -/
theorem effects_same (l : List Instr) (s : State) :
    s.sameConfig (l.foldl (fun v i => effectOf i v) s) ∧
      (l.foldl (fun v i => effectOf i v) s).status.busy = s.status.busy := by
  induction l generalizing s with
  | nil => exact ⟨sameConfig_refl s, rfl⟩
  | cons i l ih =>
    obtain ⟨⟨-, -, hconfig, -⟩, hstatus⟩ := effectOf_same i s
    obtain ⟨hrest, hbusy⟩ := ih (effectOf i s)
    refine ⟨sameConfig_trans hconfig hrest, hbusy.trans ?_⟩
    rw [hstatus]

/-- While a command is in flight, what `afterEffect` takes from a completion is the effect. -/
theorem afterEffect_eq_effectOf {i : Instr} {s : State} (hb : s.status.busy = true) (hw : i.wellFormed = true) :
    afterEffect i s = effectOf i s := by
  have hin : inFlight s = s := by rw [inFlight, ← hb]
  obtain ⟨-, hstatus⟩ := effectOf_same i s
  have hbusy : s.status.busy = (effectOf i s).status.busy := by rw [hstatus]
  have hdone : s.status.done = (effectOf i s).status.done := by rw [hstatus]
  unfold afterEffect
  rw [hin, exec_completes hb hw, hbusy, hdone]
  rfl

theorem afterEffects_eq_effects {l : List Instr} {s : State} (hb : s.status.busy = true)
    (hw : ∀ i ∈ l, i.wellFormed = true) :
    l.foldl (fun u i => afterEffect i u) s = l.foldl (fun v i => effectOf i v) s := by
  induction l generalizing s with
  | nil => rfl
  | cons i l ih =>
    obtain ⟨-, hbusy⟩ := effects_same [i] s
    rw [List.foldl_cons, List.foldl_cons, afterEffect_eq_effectOf hb (hw i (by simp))]
    exact ih (hbusy.trans hb) fun j hj => hw j (by simp [hj])

/-- Commands whose checks pass at the start pass them, and complete, each in the state that those before it left: the
checks read the configuration only, which no effect changes (60_exceptions.md R227). -/
theorem completesInTurn_of_checks {l : List Instr} {s : State} (hb : s.status.busy = true)
    (hc : ∀ i ∈ l, check i s = none) : completesInTurn l s := by
  rintro ran i rest rfl
  have hi : check i s = none := hc i (by simp)
  rw [afterEffects_eq_effects hb fun j hj => wellFormed_of_check (hc j (by simp [hj]))]
  obtain ⟨hconfig, -⟩ := effects_same ran s
  exact ⟨(check_congr hconfig i).trans hi, _, exec_completes rfl (wellFormed_of_check hi)⟩

/-- A byte that no command of a list writes, in any state with this configuration, is kept by their effects in turn. -/
theorem byte_effects {l : List Instr} {s : State} {a : ℕ}
    (h : ∀ i ∈ l, ∀ u : State, s.sameConfig u → (effectOf i u).byte a = u.byte a) :
    (l.foldl (fun v i => effectOf i v) s).byte a = s.byte a := by
  induction l using List.reverseRecOn with
  | nil => rfl
  | append_singleton ran i ih =>
    obtain ⟨hconfig, -⟩ := effects_same ran s
    rw [List.foldl_append]
    exact (h i (by simp) _ hconfig).trans (ih fun j hj => h j (by simp [hj]))

/-- A loop over channels that runs the commands `cmds ch` where the scale is positive, and nothing elsewhere. -/
theorem effects_of_rounds {cmds : Channel → List Instr} {round : State → Channel → State}
    (hround : ∀ u ch, round u ch = if 0 < u.scale ch then (cmds ch).foldl (fun v i => effectOf i v) u else u)
    (l : List Channel) {s u : State} (h : s.sameConfig u) :
    ((l.filter (fun ch => 0 < s.scale ch)).flatMap cmds).foldl (fun v i => effectOf i v) u = l.foldl round u := by
  induction l generalizing u with
  | nil => rfl
  | cons ch l ih =>
    obtain ⟨-, -, -, -, -, -, -, -, -, -, -, -, -, hscales, -⟩ := operands_congr h
    rw [List.foldl_cons, hround, hscales]
    split
    · rename_i hscale
      obtain ⟨hconfig, -⟩ := effects_same (cmds ch) u
      rw [List.filter_cons_of_pos (by simpa using hscale), List.flatMap_cons, List.foldl_append]
      exact ih (sameConfig_trans h hconfig)
    · rename_i hscale
      rw [List.filter_cons_of_neg (by simpa using hscale)]
      exact ih h

/-! ### The checks -/

/-- The scale tests of a list of channels, one after the other, are one test (60_exceptions.md R227 test 4). -/
theorem scaleFaults_or (s : State) (l : List Channel) (o : Option FaultKind) :
    l.foldr (fun ch rest => (scaleFault s ch).or rest) o =
      if l.any (fun ch => decide (Config.scaleMax < s.scale ch)) then some .badScale else o := by
  induction l with
  | nil => rfl
  | cons ch l ih =>
    rw [List.foldr_cons, ih, scaleFault_eq, ite_some_or, List.any_cons, Option.none_or]
    by_cases h : 32767 < s.scale ch <;> simp [h, Config.scaleMax]

/-- The check of a command that uses the grid, `BSIZE`, the three scales and `WMBYTES` is those tests, in that order,
then the test of `SUBMODE` where it uses that too (R227, R228). -/
theorem check_eq_codec {i : Instr} {b : Bool} (hw : i.wellFormed = true)
    (hu : uses i = { grid := true, bsize := true, scales := Channel.all, wmbytes := true, submode := b }) (s : State) :
    check i s =
      (gridFault s).or ((blockFault s).or ((scaleFault s .y).or ((scaleFault s .u).or ((scaleFault s .v).or
        ((lengthFault s).or (if b then submodeFault s else none)))))) := by
  have hscales := scaleFaults_or s Channel.all ((lengthFault s).or (if b then submodeFault s else none))
  simp only [Channel.all, List.foldr_cons, List.foldr_nil] at hscales
  rw [hscales]
  cases b <;>
    simp [check, gridFault, blockFault, lengthFault, submodeFault, hw, hu, badBlock_iff, Channel.all, State.blk,
      State.area, State.nRows, State.nCols, State.nBytes, Config.minArea, Config.maxArea, Config.pmax, ite_some_or]

/-! ### Where the commands write -/

/-- The planes begin at 0x08000000 (20_memory.md R61). -/
theorem not_planeBytes_of_lt_planes {s : State} {a : ℕ} (ha : a < 0x08000000) (ch : Channel) : ¬ s.planeBytes ch a := by
  unfold State.planeBytes within
  rw [planeBase_eq]
  omega

theorem not_regionBytes_of_lt_planes {s : State} {a : ℕ} (ha : a < 0x08000000) (ch : Channel) :
    ¬ s.regionBytes ch a := by
  rintro ⟨r, c, -, -, rfl⟩
  rw [sampleAddr, planeBase_eq] at ha
  omega

/-- The subbands begin at 0x0C000000 (R61). -/
theorem not_subbandBytes_of_lt_subbands {s : State} {a : ℕ} (ha : a < 0x0C000000) : ¬ s.subbandBytes a := by
  rintro ⟨b, hlow, -⟩
  rw [subbandBase_eq] at hlow
  omega

theorem not_dominantBytes_of_lt_subbands {s : State} {a : ℕ} (ha : a < 0x0C000000) : ¬ s.dominantBytes a := by
  rintro ⟨i, -, hlow, -⟩
  rw [subbandAddr, subbandBase_eq] at hlow
  omega

/-! ### ENCODE -/

/-- What holds of each simple command that `ENCODE` can run holds of those it runs (45_codec.md R197). -/
theorem forall_mem_encodeSequence {P : Instr → Prop} (hyuv : P .rgb2yuv) (hsub : P .subsamp)
    (hfwd : ∀ ch, P (.dwtfwd (fieldOf ch))) (hembed : ∀ ch, P (.embed (fieldOf ch)))
    (hinv : ∀ ch, P (.dwtinv (fieldOf ch))) (hrgb : P .yuv2rgb) (s : State) : ∀ i ∈ encodeSequence s, P i := by
  intro i h
  simp only [encodeSequence, List.mem_append, List.mem_flatMap, List.mem_cons, List.not_mem_nil, or_false] at h
  rcases h with ((rfl | rfl) | ⟨ch, -, rfl | rfl | rfl⟩) | rfl
  · exact hyuv
  · exact hsub
  · exact hfwd ch
  · exact hembed ch
  · exact hinv ch
  · exact hrgb

/-- `ENCODE` writes no byte of the small buffers: the pixel grid begins at 0x04000000, the planes and subbands above it
(20_memory.md R61; 70_reset_and_hazards.md R258). -/
theorem encode_byte (s : State) {a : ℕ} (ha : a < 0x8000) : (effectOf .encode s).byte a = s.byte a := by
  rw [← effects_of_encodeSequence (sameConfig_refl s)]
  refine byte_effects (forall_mem_encodeSequence ?rgb2yuv ?subsamp ?dwtfwd ?embed ?dwtinv ?yuv2rgb s)
  case rgb2yuv => exact fun u _ => rgb2yuv_byte u (not_planeBytes_of_lt_planes (by omega))
  case subsamp => exact fun u _ => subsamp_byte u fun ch _ => not_planeBytes_of_lt_planes (by omega) ch
  case dwtfwd =>
    intro ch u _
    rw [effectOf_dwtfwd]
    exact dwtfwd_byte u ch (not_subbandBytes_of_lt_subbands (by omega))
  case embed =>
    intro ch u _
    rw [effectOf_embed]
    exact embed_byte u ch (.inr (not_dominantBytes_of_lt_subbands (by omega)))
  case dwtinv =>
    intro ch u _
    rw [effectOf_dwtinv]
    exact dwtinv_byte u ch (not_regionBytes_of_lt_planes (by omega) ch)
  case yuv2rgb =>
    refine fun u _ => yuv2rgb_byte u (.inl ?_)
    unfold State.gridBytes within rgbBase
    omega

/-- Settles O32: the effects of the sequence in turn are the effect of `ENCODE`, and each command of it passes its
checks because it uses no more than `ENCODE` does. -/
theorem encodeRunsSequence : Obligations.EncodeRunsSequence := by
  refine ⟨decode_encode (i := .encode) rfl, fun s => check_eq_codec (b := true) rfl rfl s, fun s hbusy hcheck => ?_⟩
  have hchecks := check_encodeSequence hcheck
  have hlegal : ∀ i ∈ encodeSequence s, i.wellFormed = true := fun i hi => wellFormed_of_check (hchecks i hi)
  refine ⟨_, exec_completes hbusy rfl, completed_effectOf (by decide) (by decide) s, ?buffers,
    fun i hi => ⟨_, exec_completes rfl (hlegal i hi)⟩, completesInTurn_of_checks hbusy hchecks, ?frame⟩
  case buffers =>
    rw [afterEffects_eq_effects hbusy hlegal, effects_of_encodeSequence (sameConfig_refl s)]
    rfl
  case frame => exact fun a ha => (byte_complete _ a).trans (encode_byte s ha)

/-! ### DECODE -/

/-- What holds of each simple command that `DECODE` can run holds of those it runs (45_codec.md R200). -/
theorem forall_mem_decodeSequence {P : Instr → Prop} (hyuv : P .rgb2yuv) (hclear : P .vclear)
    (hfwd : ∀ ch, P (.dwtfwd (fieldOf ch))) (hextract : ∀ ch, P (.extract (fieldOf ch))) (htally : P .tally)
    (s : State) : ∀ i ∈ decodeSequence s, P i := by
  intro i h
  simp only [decodeSequence, List.mem_append, List.mem_flatMap, List.mem_cons, List.not_mem_nil, or_false] at h
  rcases h with ((rfl | rfl) | ⟨ch, -, rfl | rfl⟩) | rfl
  · exact hyuv
  · exact hclear
  · exact hfwd ch
  · exact hextract ch
  · exact htally

/-- Where `DECODE` passes its checks, so does each command of its sequence, which uses no more. -/
theorem check_decodeSequence {s : State} (h : check .decode s = none) : ∀ i ∈ decodeSequence s, check i s = none := by
  refine forall_mem_decodeSequence ?rgb2yuv ?vclear ?dwtfwd ?extract ?tally s
  case rgb2yuv => exact check_none_of_within rfl (by decide) h
  case vclear => exact check_none_of_within rfl (by decide) h
  case dwtfwd => exact fun ch => check_none_of_within (wellFormed_dwtfwd ch) (by cases ch <;> decide) h
  case extract => exact fun ch => check_none_of_within (wellFormed_extract ch) (by cases ch <;> decide) h
  case tally => exact check_none_of_within rfl (by decide) h

/-- One round of the channel loop of `DECODE` is the effects of its two commands (R200 step 3). -/
theorem decodeChannel_eq (u : State) (ch : Channel) :
    decodeChannel u ch =
      if 0 < u.scale ch then
        [Instr.dwtfwd (fieldOf ch), .extract (fieldOf ch)].foldl (fun v i => effectOf i v) u
      else u := by
  simp only [List.foldl_cons, List.foldl_nil, effectOf_dwtfwd, effectOf_extract, decodeChannel]

/-- The effects of the sequence, one after the other, are the effect of `DECODE` (R200). -/
theorem effects_of_decodeSequence (s : State) :
    (decodeSequence s).foldl (fun v i => effectOf i v) s = effectOf .decode s := by
  obtain ⟨hconfig, -⟩ := effects_same [.rgb2yuv, .vclear] s
  rw [decodeSequence, List.foldl_append, List.foldl_append, effects_of_rounds decodeChannel_eq _ hconfig]
  rfl

/-- `DECODE` leaves the pixel grid: below it lie the counters in use and `POUT`, above it the planes and subbands
(20_memory.md R61; 70_reset_and_hazards.md R258). -/
theorem decode_byte_grid {s : State} (hcheck : check .decode s = none) {a : ℕ} (ha : s.gridBytes a) :
    (effectOf .decode s).byte a = s.byte a := by
  obtain ⟨-, hgrid, -, -, hlength, -⟩ := check_none hcheck
  obtain ⟨-, hA⟩ := hgrid rfl
  obtain ⟨hpos, hmax⟩ := hlength rfl
  obtain ⟨hlow, hhigh⟩ : 0x04000000 ≤ a ∧ a < 0x04000000 + 4 * s.area := ha
  have hplanes : a < 0x08000000 := by omega
  rw [← effects_of_decodeSequence]
  refine byte_effects (forall_mem_decodeSequence ?rgb2yuv ?vclear ?dwtfwd ?extract ?tally s)
  case rgb2yuv => exact fun u _ => rgb2yuv_byte u (not_planeBytes_of_lt_planes hplanes)
  case vclear =>
    refine fun u _ => vclear_byte_of_not u ?_
    rw [allVoteBytes_iff]
    omega
  case dwtfwd =>
    intro ch u _
    rw [effectOf_dwtfwd]
    exact dwtfwd_byte u ch (not_subbandBytes_of_lt_subbands (by omega))
  case extract =>
    intro ch u hu
    obtain ⟨-, -, -, -, -, -, -, -, -, -, -, -, hlen, -⟩ := operands_congr hu
    have hwm : u.wmLen = 8 * s.nBytes := hlen
    rw [effectOf_extract]
    refine extract_byte ch (by omega) ?_
    unfold State.voteBytes within onesBase totalBase
    omega
  case tally =>
    intro u hu
    obtain ⟨-, -, -, -, -, -, -, -, -, -, -, hbytes, -⟩ := operands_congr hu
    refine (tally_byte u (by omega) a).trans (if_neg ?_)
    unfold within poutBase
    omega

/-- Settles O33: the effects of the sequence in turn are the effect of `DECODE`, `EMPTY` with it. -/
theorem decodeRunsSequence : Obligations.DecodeRunsSequence := by
  refine ⟨decode_encode (i := .decode) rfl, fun s => ?checks, fun s hbusy hcheck => ?_⟩
  case checks =>
    rw [check_eq_codec (i := .decode) (b := false) rfl rfl s, if_neg Bool.false_ne_true, Option.or_none]
  have hchecks := check_decodeSequence hcheck
  have hlegal : ∀ i ∈ decodeSequence s, i.wellFormed = true := fun i hi => wellFormed_of_check (hchecks i hi)
  have heffects : (decodeSequence s).foldl (fun u i => afterEffect i u) s = effectOf .decode s :=
    (afterEffects_eq_effects hbusy hlegal).trans (effects_of_decodeSequence s)
  obtain ⟨hsame, hstatus⟩ := completion_same .decode s
  refine ⟨_, exec_completes hbusy rfl, hsame, hstatus, ?buffers, ?empty,
    fun i hi => ⟨_, exec_completes rfl (hlegal i hi)⟩, completesInTurn_of_checks hbusy hchecks, ?frame⟩
  case buffers =>
    rw [heffects]
    rfl
  case empty =>
    rw [heffects]
    rfl
  case frame =>
    rintro a (ha | ⟨-, hpin⟩)
    · exact (byte_complete _ a).trans (decode_byte_grid hcheck ha)
    · exact (byte_complete _ a).trans (leavesBelowPout_decode s a hpin)

end Sys2Proof.Machine
end

