-- ==== Sys2Proof/Proofs/Exceptions.lean ====
section
/-!
PROOFS. Statements of 60_exceptions.md: the checks and their priority (R227, R228), fault entry and the way back (R226,
R229), and the interrupt line (R230). Entry and way back are read off the seven things a step can do.
-/

namespace Sys2Proof.Machine

open Sys2Proof.Stated

/-! ### The checks -/

/-- Among the tests of R227 only the first gives `IllegalCommand`. -/
theorem check_eq_illegalCommand_iff (i : Instr) (s : State) :
    check i s = some .illegalCommand ↔ i.wellFormed = false := by
  refine ⟨fun h => ?_, fun h => check_of_not_wellFormed h s⟩
  unfold check at h
  split at h
  case isTrue hw => exact hw
  case isFalse =>
    -- Each later branch answers with another kind or with none.
    simp only [ite_eq_iff, Option.some.injEq, reduceCtorEq, and_false, or_self] at h

/-- A word gives `IllegalCommand` exactly when it matches no row of the opcode map (30_encoding.md R93). -/
theorem checkWord_eq_illegalCommand_iff (w : Word) (s : State) :
    checkWord w s = some .illegalCommand ↔ ∃ e, Sys2Proof.decode w = .error e := by
  cases hd : Sys2Proof.decode w with
  | error e => simp [checkWord_of_illegal s hd]
  | ok i => simp [checkWord_of_decode s hd, check_eq_illegalCommand_iff, wellFormed_of_decode hd]

/-- Settles O8: the commands with the same uses have the same check, which the files of their families give. -/
theorem checksInPriority : Obligations.ChecksInPriority := by
  refine ⟨rfl, fun s => ⟨rfl, ?rgb2yuv, ?yuv2rgb, check_subsamp s, ?dwtfwd, ?dwtinv, ?embed, ?extract, rfl,
    check_tally s, ?encode, ?decode, rfl, rfl, rfl, rfl, fun w => checkWord_eq_illegalCommand_iff w s,
    fun w i hd => checkWord_of_decode s hd⟩⟩
  case rgb2yuv => exact check_eq_gridFault rfl rfl s
  case yuv2rgb => exact check_eq_gridFault rfl rfl s
  case dwtfwd => exact fun ch => check_eq_gridFault_or_blockFault (wellFormed_dwtfwd ch) rfl s
  case dwtinv => exact fun ch => check_eq_gridFault_or_blockFault (wellFormed_dwtinv ch) rfl s
  case embed => exact fun ch => check_eq_channel_payload (wellFormed_embed ch) (uses_embed ch) s
  case extract => exact fun ch => check_eq_channel_payload (wellFormed_extract ch) (uses_extract ch) s
  case encode => rw [check_eq_codec (i := .encode) (b := true) rfl rfl s, if_pos rfl]
  case decode => rw [check_eq_codec (i := .decode) (b := false) rfl rfl s, if_neg Bool.false_ne_true, Option.or_none]

/-! ### The interrupt line -/

/-- The line is a level of the two flags and their enables (R230). -/
theorem irq_eq_true_iff (s : State) :
    s.irq = true ↔ (s.status.done = true ∧ s.ctrl.ieDone = true) ∨ (s.status.err = true ∧ s.ctrl.ieErr = true) := by
  simp [State.irq]

/-- An issue clears `DONE`, so the line is high after it exactly for a fault with `IE_ERR` (R226, R230). -/
theorem issue_irq (w : Word) (c : Option FaultKind) {s : State} (he : s.status.err = false) :
    (issue w c s).irq = true ↔ c ≠ none ∧ s.ctrl.ieErr = true := by
  rw [irq_eq_true_iff, issue_status]
  cases c with
  | some k => simp [issue]
  | none => simp [he]

/-- A completion sets `DONE`, so with no fault recorded the line follows `IE_DONE` (30_encoding.md R97; R230). -/
theorem complete_effectOf_irq (i : Instr) {s : State} (he : s.status.err = false) :
    (complete (effectOf i s)).irq = s.ctrl.ieDone := by
  obtain ⟨⟨-, hctrl, -⟩, hstatus⟩ := completion_same i s
  rw [State.irq, hctrl, hstatus]
  simp [he]

/-- Settles O18: the level, and what an issue and a completion leave of its four inputs. -/
theorem interruptLine : Obligations.InterruptLine := by
  refine ⟨rfl, irq_eq_true_iff, fun s w rest hl hb he => ?issue, fun s t i hb he h => ?completion⟩
  case issue => exact ⟨_, step_issues hl hb he, issue_irq w _ (s := (s.withPending rest).reply .written) he⟩
  case completion =>
    rcases exec_next_cases h with ⟨-, -, rfl⟩ | ⟨hidle, -⟩ | ⟨hidle, -⟩
    · exact complete_effectOf_irq i he
    all_goals exact absurd (hb.symm.trans hidle) (by decide)

/-! ### Fault entry and the way back -/

/-- Settles O45: with a fault recorded an idle CORE completes and issues nothing, and what is left, but for the resets,
changes neither `CMD` nor a flag other than `OVR`. -/
theorem onlyResetClearsFault : Obligations.OnlyResetClearsFault := by
  intro s t he hb hstep hreset
  suffices h : t.status.err = s.status.err ∧ t.status.errCode = s.status.errCode ∧
      t.status.busy = s.status.busy ∧ t.cmd = s.cmd by
    rwa [he, hb] at h
  cases stepCase_of_step hstep with
  | answered => exact ⟨rfl, rfl, rfl, rfl⟩
  | completed busy => exact absurd (busy.symm.trans hb) (by decide)
  | hardReset hl => exact absurd (resetEvent_of_hardReset hl) hreset
  | softReset hl idle srst => exact absurd (resetEvent_of_softReset hl idle srst) hreset
  | issued _ _ noFault => exact absurd (he.symm.trans noFault) (by decide)
  | @configured i w rest idle plain =>
    obtain ⟨hstatus, -⟩ := writeReg_status_mem (s.withPending rest) plain
    rw [reply_status, reply_cmd, hstatus, writeReg_cmd _ plain]
    exact ⟨rfl, rfl, rfl, rfl⟩
  | stored => exact ⟨rfl, rfl, rfl, rfl⟩

/-- Settles O46: an issue apart, everything a step can do leaves `ERR` or clears it; and an issue sets it only where the
check of the word fails. -/
theorem onlyIssueRaisesFault : Obligations.OnlyIssueRaisesFault := by
  intro s t he hstep hraised
  have hkept : t.status.err ≠ s.status.err := by rw [hraised, he]; decide
  cases stepCase_of_step hstep with
  | answered => exact absurd rfl hkept
  | completed =>
    obtain ⟨-, hstatus⟩ := completion_same _ s
    exact absurd (congrArg Status.err hstatus) hkept
  | hardReset => cases hraised
  | softReset => cases hraised
  | @issued w rest hl idle noFault =>
    cases hc : checkWord w s with
    | some k => exact ⟨w, rest, k, hl, idle, hc, rfl⟩
    | none =>
      rw [hc] at hkept
      exact absurd rfl hkept
  | configured idle plain =>
    obtain ⟨hstatus, -⟩ := writeReg_status_mem (s.withPending _) plain
    exact absurd (congrArg Status.err hstatus) hkept
  | stored => exact absurd rfl hkept

end Sys2Proof.Machine
end

