-- ==== Sys2Proof/Proofs/ResetAndHazards.lean ====
section
/-!
PROOFS. Statements of 70_reset_and_hazards.md: the two resets (R250, R251), and the columns "reads" and "writes" of R258.
A simple command keeps every byte outside its write set, and what it writes is fixed by its read set; both codec commands
are simple commands in turn, so `AgreeOn` is carried along their effects.
-/

namespace Sys2Proof.Machine

open Sys2Proof.Stated

/-! ### Resets -/

/-- An address of `PIN`, `POUT`, `ONES` or `TOTAL`, the buffers with reset contents (20_memory.md R61; 10_state.md R35 to
R37). -/
def inSmallBuffer (a : ℕ) : Prop :=
  (pinBase ≤ a ∧ a < pinBase + 0x200) ∨ (onesBase ≤ a ∧ a < onesBase + 0x4000)

theorem resetByte_of_inSmallBuffer {a : ℕ} (h : inSmallBuffer a) : ∃ b, stored a = true ∧ resetByte a = some b := by
  obtain ⟨hlo, hhi⟩ | ⟨hlo, hhi⟩ | ⟨hlo, hhi⟩ | ⟨hlo, hhi⟩ : (pinBase ≤ a ∧ a < pinBase + 256) ∨
      (poutBase ≤ a ∧ a < poutBase + 256) ∨ (onesBase ≤ a ∧ a < onesBase + 0x2000) ∨
      (totalBase ≤ a ∧ a < totalBase + 0x2000) := by
    unfold inSmallBuffer pinBase onesBase at h
    unfold pinBase poutBase onesBase totalBase
    omega
  all_goals obtain ⟨k, rfl⟩ := Nat.exists_eq_add_of_le hlo
  · exact ⟨_, stored_pin (by omega), resetByte_pin (by omega)⟩
  · exact ⟨_, stored_pout (by omega), resetByte_pout (by omega)⟩
  · exact ⟨_, stored_ones (by omega), resetByte_ones (by omega)⟩
  · exact ⟨_, stored_total (by omega), resetByte_total (by omega)⟩

/-- A soft reset puts `PIN`, `POUT`, `ONES` and `TOTAL` back to what they hold after power-on (R251). -/
theorem softReset_byte_small (s : State) {a : ℕ} (h : inSmallBuffer a) : (softReset s).byte a = State.reset.byte a := by
  obtain ⟨b, hs, hr⟩ := resetByte_of_inSmallBuffer h
  rw [softReset_byte_hit s h hs hr, reset_byte hs hr]

/-- A hard reset does so too (R250). -/
theorem hardReset_byte_small (s : State) {a : ℕ} (h : inSmallBuffer a) : (hardReset s).byte a = State.reset.byte a := by
  obtain ⟨b, hs, hr⟩ := resetByte_of_inSmallBuffer h
  rw [hardReset_byte, if_pos hs, hr, reset_byte hs hr, Option.getD_some]

/-- The reset contents depend on the small buffers only. -/
theorem resetContents_of_byte {t : State} (h : ∀ a, inSmallBuffer a → t.byte a = State.reset.byte a) :
    resetContents t := by
  obtain ⟨-, ⟨hpin0, hpin1, hpin2, hpin3, hpin, hpout, hcounters⟩, -⟩ := resetState
  have hbyte {a : ℕ} (ha : (0x1000 ≤ a ∧ a < 0x1200) ∨ (0x4000 ≤ a ∧ a < 0x8000)) : t.byte a = State.reset.byte a :=
    h a ha
  have hword {a : ℕ} (hlo : 0x4000 ≤ a) (hhi : a + 4 ≤ 0x8000) : t.word a = State.reset.word a :=
    word_congr_at fun k hk => hbyte (.inr (by omega))
  refine ⟨?_, ?_, ?_, ?_, fun k h4 hk => ?_, fun k hk => ?_, fun p hp => ?_⟩
  · exact (hbyte (by omega)).trans hpin0
  · exact (hbyte (by omega)).trans hpin1
  · exact (hbyte (by omega)).trans hpin2
  · exact (hbyte (by omega)).trans hpin3
  · exact (hbyte (by omega)).trans (hpin k h4 hk)
  · exact (hbyte (by omega)).trans (hpout k hk)
  · rw [hword (by omega) (by omega), hword (by omega) (by omega)]
    exact hcounters p hp

/-- Settles O15: with `BUSY` = 0 the write is the soft reset, which restores the registers and the small buffers and
leaves every byte above them; with `BUSY` = 1 it is dropped as any write is. -/
theorem softResetRestores : Obligations.SoftResetRestores := by
  refine fun s w rest hl hw => ⟨fun hb => ?idle, fun hb => step_drops_write (i := 2) (by omega) hb hl⟩
  have hstep := step_writes_register (i := 2) (by omega) (by omega) hb hl
  rw [writeReg_softReset _ hw] at hstep
  refine ⟨_, hstep, fun i => ?registers, resetContents_of_byte fun a ha => ?small, fun a ha => ?big, rfl⟩
  case registers => exact (softReset_registers (s.withPending rest) i).trans (reset_readReg i)
  case small => exact (byte_reply _ _ a).trans (softReset_byte_small _ ha)
  case big =>
    unfold inBigBuffer at ha
    rw [byte_reply, softReset_byte _ (by unfold pinBase; omega) (by unfold onesBase; omega), byte_withPending]

/-- Settles O16: the reset input is the next event whatever the state, and it restores everything that has a reset
value. -/
theorem hardResetRestores : Obligations.HardResetRestores := by
  intro s rest hl
  refine ⟨hardReset (s.withPending rest), step_of_lands hl, fun i => ?registers,
    resetContents_of_byte fun a ha => hardReset_byte_small _ ha, rfl, rfl, rfl⟩
  case registers => exact (hardReset_registers (s.withPending rest) i).trans (reset_readReg i)

/-! ### The buffers of R258 depend on the configuration only -/

theorem regions_congr {s t : State} (h : s.sameConfig t) :
    t.gridBytes = s.gridBytes ∧ t.planeBytes = s.planeBytes ∧ t.subbandBytes = s.subbandBytes ∧
      t.regionBytes = s.regionBytes ∧ t.blockBytes = s.blockBytes ∧ t.payloadBytes = s.payloadBytes ∧
      t.voteBytes = s.voteBytes ∧ t.someScale = s.someScale := by
  obtain ⟨-, -, hblk, harea, hrr, hrc, hsr, hsc, -, -, hblocks, hbytes, hlen, hscale, -, hgrid, -, hcell, -⟩ :=
    operands_congr h
  refine ⟨?_, ?_, ?_, ?_, ?_, ?_, ?_, ?_⟩
  · funext a; simp only [State.gridBytes, harea]
  · funext ch a; simp only [State.planeBytes, harea]
  · funext a; simp only [State.subbandBytes, hsr, hsc]
  · funext ch a; simp only [State.regionBytes, hrr, hrc, hgrid]
  · funext a; simp only [State.blockBytes, hblocks, hblk, hcell]
  · funext a; simp only [State.payloadBytes, hbytes]
  · funext a; simp only [State.voteBytes, hlen]
  · simp only [State.someScale, hscale]

/-- The column "reads" depends on the configuration only. -/
theorem readSet_congr {s t : State} (h : s.sameConfig t) (i : Instr) : readSet i t = readSet i s := by
  obtain ⟨hgrid, hplane, hsub, hregion, hblock, hpay, hvote, -⟩ := regions_congr h
  obtain ⟨-, -, -, -, -, -, -, -, -, -, -, -, -, -, hsel, -⟩ := operands_congr h
  funext a
  cases i <;> simp only [readSet, hgrid, hplane, hsub, hregion, hblock, hpay, hvote, hsel]

/-- So does the column "writes", but for `EMBED`, whose cells the coefficients choose. -/
theorem writeSet_congr {s t : State} (h : s.sameConfig t) {i : Instr} (hi : ∀ f, i ≠ .embed f) :
    writeSet i t = writeSet i s := by
  obtain ⟨hgrid, hplane, hsub, hregion, -, -, hvote, hsome⟩ := regions_congr h
  obtain ⟨-, -, -, -, -, -, -, -, -, -, -, hbytes, -, -, hsel, -⟩ := operands_congr h
  funext a
  cases i with
  | embed f => exact absurd rfl (hi f)
  | _ => simp only [writeSet, hgrid, hplane, hsub, hregion, hvote, hsome, hbytes, hsel]

/-! ### Addresses as cells -/

theorem exists_sampleAddr {s : State} {ch : Channel} {a : ℕ} (h : s.planeBytes ch a) :
    ∃ k < s.area, a = sampleAddr ch k := by
  obtain ⟨hlo, hhi⟩ := h
  exact ⟨a - planeBase ch, by omega, by unfold sampleAddr; omega⟩

theorem planeBytes_sampleAddr {s : State} (ch : Channel) {k : ℕ} (hk : k < s.area) :
    s.planeBytes ch (sampleAddr ch k) := by
  unfold State.planeBytes within sampleAddr
  omega

/-- A byte among `n` words is byte `j` of word `k`. -/
theorem exists_wordAddr {base n a : ℕ} (h : within base (4 * n) a) : ∃ k < n, ∃ j < 4, a = base + 4 * k + j := by
  obtain ⟨hlo, hhi⟩ := h
  exact ⟨(a - base) / 4, by omega, (a - base) % 4, by omega, by omega⟩

theorem subbandBytes_subbandAddr {s : State} (b : Subband) {k j : ℕ} (hk : k < s.subRows * s.subCols) (hj : j < 4) :
    s.subbandBytes (subbandAddr b k + j) := ⟨b, by unfold within subbandAddr; omega⟩

theorem planeBytes_of_regionBytes {s : State} {ch : Channel} {a : ℕ} (h : s.regionBytes ch a) : s.planeBytes ch a := by
  obtain ⟨r, c, hr, hc, rfl⟩ := h
  exact planeBytes_sampleAddr ch
    (gridCell_lt s (Nat.lt_of_lt_of_le hr (regionRows_le s)) (Nat.lt_of_lt_of_le hc (regionCols_le s)))

theorem subbandBytes_of_blockBytes {s : State} {a : ℕ} (h : s.blockBytes a) : s.subbandBytes a := by
  obtain ⟨i, p, hi, hp, hlo, hhi⟩ := h
  have hj := subbandBytes_subbandAddr .sa (blockCell_lt s hi hp)
    (j := a - subbandAddr .sa (s.blockCell i p)) (by omega)
  rwa [Nat.add_sub_cancel' hlo] at hj

/-- The dominant cell of a block is one of its cells. -/
theorem blockBytes_of_dominantBytes {s : State} (hb : 2 ≤ s.blk) {a : ℕ} (h : s.dominantBytes a) : s.blockBytes a := by
  obtain ⟨i, hi, hin⟩ := h
  obtain ⟨-, hp⟩ := dominant_lt s hb i
  exact ⟨i, s.dominant i, hi, hp, hin⟩

theorem allVoteBytes_of_voteBytes {s : State} (h : s.nBytes ≤ 256) {a : ℕ} (ha : s.voteBytes a) : allVoteBytes a := by
  have hlen : s.wmLen = 8 * s.nBytes := rfl
  rw [allVoteBytes_iff]
  unfold State.voteBytes within onesBase totalBase at ha
  omega

/-! ### The column "writes" -/

/-- A legal channel field is the field of its channel (30_encoding.md R90, R91). -/
theorem exists_fieldOf {f : ChannelField} (h : channelLegal f = true) : ∃ ch, f = fieldOf ch := by
  have hfields : ∀ f, channelLegal f = true → f = fieldOf .y ∨ f = fieldOf .u ∨ f = fieldOf .v := by decide
  rcases hfields f h with hf | hf | hf
  all_goals exact ⟨_, hf⟩

/-- The commands other than `ENCODE` and `DECODE`. -/
abbrev IsSimple (i : Instr) : Prop := i ≠ .encode ∧ i ≠ .decode

/-- A simple command keeps every byte outside its write set (R258). -/
theorem effectOf_byte_of_simple {i : Instr} (hi : IsSimple i) {s : State} (hc : check i s = none) {a : ℕ}
    (ha : ¬ writeSet i s a) : (effectOf i s).byte a = s.byte a := by
  obtain ⟨hw, -, -, -, hlength, -⟩ := check_none hc
  have hlen : s.wmLen = 8 * s.nBytes := rfl
  cases i with
  | nop => rfl
  | rgb2yuv => exact rgb2yuv_byte s fun ch hch => ha ⟨ch, hch⟩
  | yuv2rgb => exact yuv2rgb_byte s (.inl ha)
  | subsamp => exact subsamp_byte s fun ch hch hplane => ha ⟨ch, hch, hplane⟩
  | dwtfwd f =>
    obtain ⟨ch, rfl⟩ := exists_fieldOf hw
    rw [effectOf_dwtfwd]
    exact dwtfwd_byte s ch ha
  | dwtinv f =>
    obtain ⟨ch, rfl⟩ := exists_fieldOf hw
    rw [effectOf_dwtinv]
    exact dwtinv_byte s ch fun hregion => ha ⟨ch, ofField_fieldOf ch, hregion⟩
  | embed f =>
    obtain ⟨ch, rfl⟩ := exists_fieldOf hw
    rw [effectOf_embed]
    exact embed_byte s ch (.inr ha)
  | extract f =>
    obtain ⟨ch, rfl⟩ := exists_fieldOf hw
    obtain ⟨hpos, -⟩ := hlength rfl
    rw [effectOf_extract]
    exact extract_byte ch (by omega) ha
  | vclear => exact vclear_byte_of_not s ha
  | tally =>
    obtain ⟨-, hmax⟩ := hlength rfl
    exact (tally_byte s hmax a).trans (if_neg ha)
  | encode => exact absurd rfl hi.1
  | decode => exact absurd rfl hi.2

theorem isSimple_of_mem_encodeSequence {s : State} : ∀ i ∈ encodeSequence s, IsSimple i :=
  forall_mem_encodeSequence ⟨nofun, nofun⟩ ⟨nofun, nofun⟩ (fun _ => ⟨nofun, nofun⟩) (fun _ => ⟨nofun, nofun⟩)
    (fun _ => ⟨nofun, nofun⟩) ⟨nofun, nofun⟩ s

theorem isSimple_of_mem_decodeSequence {s : State} : ∀ i ∈ decodeSequence s, IsSimple i :=
  forall_mem_decodeSequence ⟨nofun, nofun⟩ ⟨nofun, nofun⟩ (fun _ => ⟨nofun, nofun⟩) (fun _ => ⟨nofun, nofun⟩)
    ⟨nofun, nofun⟩ s

/-- What the commands of `ENCODE`'s sequence write, in any state with its configuration, `ENCODE` writes. -/
theorem writeSet_encode_of_sequence {s u : State} (hc : check .encode s = none) (hu : s.sameConfig u) {i : Instr}
    (hi : i ∈ encodeSequence s) {a : ℕ} (ha : writeSet i u a) : writeSet .encode s a := by
  obtain ⟨-, -, hblock, -⟩ := check_none ((check_congr hu .encode).trans hc)
  obtain ⟨-, hblk, -⟩ := hblock rfl
  rw [← writeSet_congr (i := .encode) hu nofun]
  simp only [encodeSequence, List.mem_append, List.mem_flatMap, List.mem_filter, List.mem_cons, List.not_mem_nil,
    or_false, decide_eq_true_eq] at hi
  have hsubband {ch : Channel} (hscale : 0 < s.scale ch) (ha : u.subbandBytes a) : writeSet .encode u a := by
    obtain ⟨-, -, -, -, -, -, -, hsome⟩ := regions_congr hu
    exact .inr (.inr ⟨hsome ▸ ⟨ch, hscale⟩, ha⟩)
  rcases hi with ((rfl | rfl) | ⟨ch, ⟨-, hscale⟩, rfl | rfl | rfl⟩) | rfl
  · exact .inr (.inl ha)
  · obtain ⟨ch, -, ha⟩ := ha
    exact .inr (.inl ⟨ch, ha⟩)
  · exact hsubband hscale ha
  · exact hsubband hscale (subbandBytes_of_blockBytes (blockBytes_of_dominantBytes hblk ha))
  · obtain ⟨ch', -, ha⟩ := ha
    exact .inr (.inl ⟨ch', planeBytes_of_regionBytes ha⟩)
  · exact .inl ha

/-- So it is for `DECODE`. -/
theorem writeSet_decode_of_sequence {s u : State} (hc : check .decode s = none) (hu : s.sameConfig u) {i : Instr}
    (hi : i ∈ decodeSequence s) {a : ℕ} (ha : writeSet i u a) : writeSet .decode s a := by
  obtain ⟨-, -, -, -, hlength, -⟩ := check_none ((check_congr hu .decode).trans hc)
  obtain ⟨-, hmax⟩ := hlength rfl
  rw [← writeSet_congr (i := .decode) hu nofun]
  simp only [decodeSequence, List.mem_append, List.mem_flatMap, List.mem_filter, List.mem_cons, List.not_mem_nil,
    or_false, decide_eq_true_eq] at hi
  rcases hi with ((rfl | rfl) | ⟨ch, ⟨-, hscale⟩, rfl | rfl⟩) | rfl
  · exact .inl ha
  · exact .inr (.inr (.inl ha))
  · obtain ⟨-, -, -, -, -, -, -, hsome⟩ := regions_congr hu
    exact .inr (.inl ⟨hsome ▸ ⟨ch, hscale⟩, ha⟩)
  · exact .inr (.inr (.inl (allVoteBytes_of_voteBytes hmax ha)))
  · exact .inr (.inr (.inr ha))

/-- Simple commands in turn keep every byte that none of them writes. -/
theorem byte_effects_of_simple {l : List Instr} {s : State} {a : ℕ} (hi : ∀ i ∈ l, IsSimple i)
    (hc : ∀ i ∈ l, check i s = none) (ha : ∀ i ∈ l, ∀ u : State, s.sameConfig u → ¬ writeSet i u a) :
    (l.foldl (fun v i => effectOf i v) s).byte a = s.byte a :=
  byte_effects fun i hmem u hu =>
    effectOf_byte_of_simple (hi i hmem) ((check_congr hu i).trans (hc i hmem)) (ha i hmem u hu)

/-- Every command keeps every byte outside its write set (R258). -/
theorem effectOf_byte {i : Instr} {s : State} (hc : check i s = none) {a : ℕ} (ha : ¬ writeSet i s a) :
    (effectOf i s).byte a = s.byte a := by
  by_cases he : i = .encode
  · subst he
    rw [← effects_of_encodeSequence (sameConfig_refl s)]
    exact byte_effects_of_simple isSimple_of_mem_encodeSequence (check_encodeSequence hc)
      fun i hi u hu h => ha (writeSet_encode_of_sequence hc hu hi h)
  by_cases hd : i = .decode
  · subst hd
    rw [← effects_of_decodeSequence]
    exact byte_effects_of_simple isSimple_of_mem_decodeSequence (check_decodeSequence hc)
      fun i hi u hu h => ha (writeSet_decode_of_sequence hc hu hi h)
  · exact effectOf_byte_of_simple ⟨he, hd⟩ hc ha

/-- Settles O35: a completion is an effect and the end of the command, and an issue or a dropped write changes `CMD` and
`STATUS` only. -/
theorem commandsChangeOnlyTheirWriteSet : Obligations.CommandsChangeOnlyTheirWriteSet := by
  intro i s t hc h
  rcases exec_next_cases h with ⟨hb, -, rfl⟩ | ⟨hb, -, rfl⟩ | ⟨hb, -, rfl⟩
  · obtain ⟨⟨hcmd, hctrl, hconfig, hepoch, hreads, hpending, hreplies⟩, hstatus⟩ := completion_same i s
    refine ⟨fun a ha => (byte_complete _ a).trans (effectOf_byte (hc hb) (ha hb)), hconfig, hctrl, hepoch, hreads,
      hpending, hreplies, fun _ => ?flags, fun hidle => ?absurd⟩
    case flags =>
      refine ⟨hcmd, by rw [hstatus], by rw [hstatus], by rw [hstatus], fun htally hdecode => ?_⟩
      obtain ⟨-, hsame⟩ := (onlyMem_effectOf htally hdecode).same s
      rw [complete_status, hsame]
    case absurd => exact absurd (hb.symm.trans hidle) (by decide)
  · exact ⟨fun a _ => byte_setOvr s a, sameConfig_refl s, rfl, rfl, rfl, rfl, rfl,
      fun hbusy => absurd (hb.symm.trans hbusy) (by decide), fun _ => rfl⟩
  · rw [issue_eq]
    refine ⟨fun a _ => rfl, sameConfig_refl s, rfl, rfl, rfl, rfl, rfl,
      fun hbusy => absurd (hb.symm.trans hbusy) (by decide), fun _ => ?empty⟩
    case empty =>
      rw [issue_status]
      cases check i s <;> rfl

/-! ### The column "reads": what each simple command writes -/

section

variable {s t : State}

/-- Equal words have equal bytes. -/
theorem byte_of_word {a j : ℕ} (h : t.word a = s.word a) (hj : j < 4) : t.byte (a + j) = s.byte (a + j) := by
  rw [← byteOf_word t a hj, h, byteOf_word s a hj]

/-- `RGB2YUV` makes the planes from the grid (40_colour.md R112). -/
theorem rgb2yuv_byte_of_reads (hcfg : s.sameConfig t) (hA : s.area ≤ 16777216)
    (hr : ∀ a, s.gridBytes a → t.byte a = s.byte a) {ch : Channel} {a : ℕ} (ha : s.planeBytes ch a) :
    (rgb2yuvEffect t).byte a = (rgb2yuvEffect s).byte a := by
  obtain ⟨-, -, -, harea, -⟩ := operands_congr hcfg
  obtain ⟨k, hk, rfl⟩ := exists_sampleAddr ha
  have hpixel {x : ℕ} (hx : x < 3) : t.pixel k x = s.pixel k x := by
    refine hr _ ?_
    unfold State.gridBytes within pixelAddr
    omega
  calc (rgb2yuvEffect t).sample ch k
      = t.yuvOf ch k := rgb2yuv_sample t (harea ▸ hA) ch (harea ▸ hk)
    _ = s.yuvOf ch k := by simp only [State.yuvOf, hpixel (by decide : 0 < 3), hpixel (by decide : 1 < 3),
          hpixel (by decide : 2 < 3)]
    _ = (rgb2yuvEffect s).sample ch k := (rgb2yuv_sample s hA ch hk).symm

/-- `YUV2RGB` makes the grid from the planes (R115); the fourth byte of a pixel word has no cell. -/
theorem yuv2rgb_byte_of_reads (hcfg : s.sameConfig t) (hA : s.area ≤ 16777216)
    (hr : ∀ a, (∃ ch, s.planeBytes ch a) → t.byte a = s.byte a) {a : ℕ} (ha : s.gridBytes a) :
    (yuv2rgbEffect t).byte a = (yuv2rgbEffect s).byte a := by
  obtain ⟨-, -, -, harea, -⟩ := operands_congr hcfg
  obtain ⟨k, hk, x, hx, rfl⟩ := exists_wordAddr ha
  by_cases hx3 : x = 3
  · have hnone := not_stored_of_gridBytes hA ha (by unfold rgbBase; omega)
    rw [byte_of_not_stored _ hnone, byte_of_not_stored _ hnone]
  have hsample (ch : Channel) : t.sample ch k = s.sample ch k := hr _ ⟨ch, planeBytes_sampleAddr ch hk⟩
  calc (yuv2rgbEffect t).pixel k x
      = t.rgbOf x k := yuv2rgb_pixel t (harea ▸ hA) (harea ▸ hk) (by omega)
    _ = s.rgbOf x k := by simp only [State.rgbOf, hsample]
    _ = (yuv2rgbEffect s).pixel k x := (yuv2rgb_pixel s hA hk (by omega)).symm

/-- `SUBSAMP` makes a selected plane from itself (41_subsample.md R132). -/
theorem subsamp_byte_of_reads (hcfg : s.sameConfig t) (hA : s.area ≤ 16777216) {ch : Channel} (hch : ch ∈ s.selected)
    (hr : ∀ a, s.planeBytes ch a → t.byte a = s.byte a) {a : ℕ} (ha : s.planeBytes ch a) :
    (subsampEffect t).byte a = (subsampEffect s).byte a := by
  obtain ⟨-, -, -, harea, -, -, -, -, -, -, -, -, -, -, hsel, -, -, -, heven⟩ := operands_congr hcfg
  obtain ⟨k, hk, rfl⟩ := exists_sampleAddr ha
  calc (subsampEffect t).sample ch k
      = t.sample ch (t.evenCell k) := subsamp_sample t (harea ▸ hA) (hsel ▸ hch) (harea ▸ hk)
    _ = s.sample ch (s.evenCell k) := by
          rw [heven]
          exact hr _ (planeBytes_sampleAddr ch (evenCell_lt s hk))
    _ = (subsampEffect s).sample ch k := (subsamp_sample s hA hch hk).symm

/-- `DWTFWD` makes the subbands from the region of its plane (42_wavelet.md R143). -/
theorem dwtfwd_byte_of_reads (hcfg : s.sameConfig t) (hA : s.area ≤ 16777216) {ch : Channel}
    (hr : ∀ a, s.regionBytes ch a → t.byte a = s.byte a) {a : ℕ} (ha : s.subbandBytes a) :
    (dwtfwdEffect ch t).byte a = (dwtfwdEffect ch s).byte a := by
  obtain ⟨-, -, -, -, -, -, hrows, hcols, -, -, -, -, -, -, -, hgrid, -⟩ := operands_congr hcfg
  have hsub : 4 * (s.subRows * s.subCols) ≤ 16777216 := Nat.le_trans (sub_area_le s) hA
  obtain ⟨b, hb⟩ := ha
  obtain ⟨k, hk, j, hj, rfl⟩ := exists_wordAddr hb
  obtain ⟨hrow, hcol, -⟩ := cell_split hk
  have hsample {y x : ℕ} (hy : y < 2) (hx : x < 2) :
      t.sampleInt ch (2 * (k / s.subCols) + y) (2 * (k % s.subCols) + x) =
        s.sampleInt ch (2 * (k / s.subCols) + y) (2 * (k % s.subCols) + x) := by
    obtain ⟨hin, hin'⟩ := tile_in_region hrow hcol hy hx
    unfold State.sampleInt
    rw [hgrid]
    exact congrArg (fun v : Byte => (v.toNat : ℤ)) (hr _ ⟨_, _, hin, hin', rfl⟩)
  have hword : t.forwardWord ch b k = s.forwardWord ch b k := by
    unfold State.forwardWord State.forwardCoeff
    rw [hcols]
    have h00 := hsample (y := 0) (x := 0) (by decide) (by decide)
    have h01 := hsample (y := 0) (x := 1) (by decide) (by decide)
    have h10 := hsample (y := 1) (x := 0) (by decide) (by decide)
    have h11 := hsample (y := 1) (x := 1) (by decide) (by decide)
    simp only [Nat.add_zero] at h00 h01 h10
    rw [h00, h01, h10, h11]
  have hvalue : (dwtfwdEffect ch t).word (subbandAddr b k) = (dwtfwdEffect ch s).word (subbandAddr b k) := by
    rw [dwtfwd_word t ch b (by rwa [hrows, hcols]) (by rwa [hrows, hcols]), dwtfwd_word s ch b hsub hk, hword]
  exact byte_of_word hvalue hj

/-- `DWTINV` makes the region of its plane from the subbands (R146). -/
theorem dwtinv_byte_of_reads (hcfg : s.sameConfig t) (hA : s.area ≤ 16777216) (hblk : s.blk % 2 = 0)
    (hr : ∀ a, s.subbandBytes a → t.byte a = s.byte a) {ch : Channel} {a : ℕ} (ha : s.regionBytes ch a) :
    (dwtinvEffect ch t).byte a = (dwtinvEffect ch s).byte a := by
  obtain ⟨-, -, -, harea, hrows, hcols, -, -, -, -, -, -, -, -, -, hgrid, hcell, -⟩ := operands_congr hcfg
  obtain ⟨r, c, hrow, hcol, rfl⟩ := ha
  obtain ⟨hevenRows, hevenCols⟩ := region_even s hblk
  have hlt := subCell_lt s (i := r / 2) (j := c / 2) (by omega) (by omega)
  have hcoeff (b : Subband) : t.coeff b (s.subCell (r / 2) (c / 2)) = s.coeff b (s.subCell (r / 2) (c / 2)) :=
    coeff_congr_at fun j hj => hr _ (subbandBytes_subbandAddr b hlt hj)
  calc (dwtinvEffect ch t).sample ch (s.gridCell r c)
      = t.inverseSample r c := by
          rw [← hgrid]
          exact dwtinv_sample t ch (harea ▸ hA) (hrows ▸ hrow) (hcols ▸ hcol)
    _ = s.inverseSample r c := by simp only [State.inverseSample, hcell, hcoeff]
    _ = (dwtinvEffect ch s).sample ch (s.gridCell r c) := (dwtinv_sample s ch hA hrow hcol).symm

/-- The dominant cell of a block and its coefficient depend on the cells of the blocks (43_embed.md R162). -/
theorem dominant_of_reads (hcfg : s.sameConfig t) (hb : 2 ≤ s.blk) (hr : ∀ a, s.blockBytes a → t.byte a = s.byte a)
    {i : ℕ} (hi : i < s.nBlocks) :
    t.dominantCell i = s.dominantCell i ∧ t.coeff .sa (t.dominantCell i) = s.coeff .sa (s.dominantCell i) := by
  obtain ⟨-, -, -, -, -, -, -, -, -, -, -, -, -, -, -, -, -, hcell, -⟩ := operands_congr hcfg
  obtain ⟨-, hsame⟩ := dominant_congr hcfg hb (i := i) fun p hp => by
    rw [State.blockCoeff, State.blockCoeff, hcell]
    exact coeff_congr_at fun j hj => hr _ ⟨i, p, hi, hp, by unfold within; omega⟩
  exact hsame

/-- So the bytes that `EMBED` writes are those of the same cells. -/
theorem dominantBytes_of_reads (hcfg : s.sameConfig t) (hb : 2 ≤ s.blk)
    (hr : ∀ a, s.blockBytes a → t.byte a = s.byte a) {a : ℕ} (ha : t.dominantBytes a) : s.dominantBytes a := by
  obtain ⟨-, -, -, -, -, -, -, -, -, -, hblocks, -⟩ := operands_congr hcfg
  obtain ⟨i, hi, hin⟩ := ha
  rw [hblocks] at hi
  obtain ⟨hcell, -⟩ := dominant_of_reads hcfg hb hr hi
  exact ⟨i, hi, hcell ▸ hin⟩

/-- `EMBED` makes the dominant cells from the blocks and the payload in use (R164). -/
theorem embed_byte_of_reads (hcfg : s.sameConfig t) (hA : s.area ≤ 16777216) (hb : 2 ≤ s.blk) (hlen : 1 ≤ s.nBytes)
    (hblock : ∀ a, s.blockBytes a → t.byte a = s.byte a) (hpay : ∀ a, s.payloadBytes a → t.byte a = s.byte a)
    (ch : Channel) {a : ℕ} (ha : s.dominantBytes a) : (embedEffect ch t).byte a = (embedEffect ch s).byte a := by
  obtain ⟨-, -, hblk, -, -, -, hrows, hcols, -, -, hblocks, -, hwm, hscale, -⟩ := operands_congr hcfg
  have hsub : 4 * (s.subRows * s.subCols) ≤ 16777216 := Nat.le_trans (sub_area_le s) hA
  have hsame := hblock a (blockBytes_of_dominantBytes hb ha)
  rcases le_or_gt (s.scale ch) 0 with hs | hs
  · rwa [embedEffect_of_nonpos hs, embedEffect_of_nonpos ((hscale ch).trans_le hs)]
  obtain ⟨i, hi, hlo, hhi⟩ := ha
  obtain ⟨hcell, hcoeff⟩ := dominant_of_reads hcfg hb hblock hi
  have hbit : t.payloadBit (i % s.wmLen) = s.payloadBit (i % s.wmLen) := by
    have hmod : i % (8 * s.nBytes) < 8 * s.nBytes := Nat.mod_lt _ (by omega)
    unfold State.payloadBit
    rw [hpay _ (by unfold State.payloadBytes within State.wmLen; omega)]
  have hembedded : t.embeddedWord ch i = s.embeddedWord ch i := by
    unfold State.embeddedWord
    rw [hcoeff, hscale, hwm, hbit]
  have hvalue := embed_word t ch (by rwa [hblk]) (by rwa [hrows, hcols]) (by rwa [hscale]) (hblocks ▸ hi)
  rw [hcell, hembedded, ← embed_word s ch hb hsub hs hi] at hvalue
  obtain ⟨j, rfl⟩ := Nat.exists_eq_add_of_le hlo
  exact byte_of_word hvalue (by omega)

/-- The counters in use of two states with the same bytes there. -/
theorem counters_of_reads (hr : ∀ a, s.voteBytes a → t.byte a = s.byte a) {p : ℕ} (hp : p < s.wmLen) :
    t.ones p = s.ones p ∧ t.total p = s.total p :=
  ⟨word_congr_at fun k hk => hr _ (.inl (by unfold within onesAddr; omega)),
    word_congr_at fun k hk => hr _ (.inr (by unfold within totalAddr; omega))⟩

/-- The converse: a byte of the counters in use is a byte of a counter in use. -/
theorem byte_of_counters {u v : State} (h : ∀ p, p < s.wmLen → v.ones p = u.ones p ∧ v.total p = u.total p) {a : ℕ}
    (ha : s.voteBytes a) : v.byte a = u.byte a := by
  rcases ha with ha | ha
  all_goals
    obtain ⟨p, hp, j, hj, rfl⟩ := exists_wordAddr ha
    obtain ⟨hones, htotal⟩ := h p hp
  · exact byte_of_word hones hj
  · exact byte_of_word htotal hj

/-- `EXTRACT` makes the counters in use from the blocks and those counters (44_extract_vote.md R178). -/
theorem extract_byte_of_reads (hcfg : s.sameConfig t) (hb : 2 ≤ s.blk) (h1 : 1 ≤ s.wmLen) (h2 : s.wmLen ≤ 2048)
    (hblock : ∀ a, s.blockBytes a → t.byte a = s.byte a) (hvote : ∀ a, s.voteBytes a → t.byte a = s.byte a)
    (ch : Channel) {a : ℕ} (ha : s.voteBytes a) : (extractEffect ch t).byte a = (extractEffect ch s).byte a := by
  obtain ⟨-, -, -, -, -, -, -, -, -, -, hblocks, -, hwm, hscale, -⟩ := operands_congr hcfg
  rcases le_or_gt (s.scale ch) 0 with hs | hs
  · rw [extractEffect_of_nonpos hs, extractEffect_of_nonpos ((hscale ch).trans_le hs)]
    exact hvote a ha
  have hvotes (i : ℕ) (hi : i < s.nBlocks) : t.blockVote ch i = s.blockVote ch i := by
    obtain ⟨-, hcoeff⟩ := dominant_of_reads hcfg hb hblock hi
    unfold State.blockVote
    rw [hcoeff, hscale]
  have hcount (p : ℕ) : ((List.range s.nBlocks).filter (fun i => i % s.wmLen = p)).countP (t.blockVote ch) =
      ((List.range s.nBlocks).filter (fun i => i % s.wmLen = p)).countP (s.blockVote ch) :=
    List.countP_congr fun i hi => by rw [hvotes i (List.mem_range.mp (List.mem_of_mem_filter hi))]
  refine byte_of_counters (fun p hp => ?_) ha
  obtain ⟨hones, htotal⟩ := counters_of_reads hvote hp
  obtain ⟨hones', htotal'⟩ := extract_fold ch (List.range s.nBlocks) t (by rwa [hwm]) (by rwa [hwm]) (hwm ▸ hp)
  rw [hwm, hones, hcount] at hones'
  rw [hwm, htotal] at htotal'
  rw [extractEffect_of_pos hs, extractEffect_of_pos (by rwa [hscale]), hblocks, hones', htotal']
  obtain ⟨hsones, hstotal⟩ := extract_fold ch (List.range s.nBlocks) s h1 h2 hp
  exact ⟨hsones.symm, hstotal.symm⟩

/-- `TALLY` makes the bytes in use of `POUT` from the counters in use (R180 to R182). -/
theorem tally_byte_of_reads (hcfg : s.sameConfig t) (hlen : s.nBytes ≤ 256)
    (hr : ∀ a, s.voteBytes a → t.byte a = s.byte a) {a : ℕ} (ha : within poutBase s.nBytes a) :
    (tallyEffect t).byte a = (tallyEffect s).byte a := by
  obtain ⟨-, -, -, -, -, -, -, -, -, -, -, hbytes, -⟩ := operands_congr hcfg
  have hfinal {k : ℕ} (hk : k < 8) : t.finalBit (8 * (a - poutBase) + k) = s.finalBit (8 * (a - poutBase) + k) := by
    obtain ⟨hones, htotal⟩ := counters_of_reads hr (p := 8 * (a - poutBase) + k) (by unfold State.wmLen; omega)
    rw [State.finalBit, State.finalBit, hones, htotal]
  have hpacked : t.packedByte (a - poutBase) = s.packedByte (a - poutBase) := by
    unfold State.packedByte
    refine congrArg (BitVec.ofNat 8) (List.foldl_ext _ _ _ fun acc k hk => ?_)
    rw [hfinal (List.mem_range.mp hk)]
  rw [tally_byte t (by rwa [hbytes]), tally_byte s hlen, hbytes, if_pos ha, if_pos ha, hpacked]

/-- `EMPTY` after `TALLY` depends on the counters in use (R182). -/
theorem someEmpty_of_reads (hcfg : s.sameConfig t) (hr : ∀ a, s.voteBytes a → t.byte a = s.byte a) :
    t.someEmpty = s.someEmpty := by
  obtain ⟨-, -, -, -, -, -, -, -, -, -, -, -, hwm, -⟩ := operands_congr hcfg
  rw [Bool.eq_iff_iff, someEmpty_iff, someEmpty_iff, hwm]
  refine exists_congr fun p => and_congr_right fun hp => ?_
  obtain ⟨-, htotal⟩ := counters_of_reads hr hp
  rw [htotal]

end

/-! ### Effects of states that agree on what is read -/

section

variable {i : Instr} {s t : State}

/-- What a simple command writes is fixed by its read set (R258). -/
theorem effectOf_byte_of_reads (hi : IsSimple i) (hc : check i s = none) (hcfg : s.sameConfig t)
    (hr : ∀ a, readSet i s a → t.byte a = s.byte a) {a : ℕ} (ha : writeSet i s a) :
    (effectOf i t).byte a = (effectOf i s).byte a := by
  obtain ⟨hw, -, hblock, -, hlength, -⟩ := check_none hc
  have hlen : s.wmLen = 8 * s.nBytes := rfl
  cases i with
  | nop => exact ha.elim
  | rgb2yuv =>
    obtain ⟨ch, ha⟩ := ha
    exact rgb2yuv_byte_of_reads hcfg (area_le_of_check rfl hc) hr ha
  | yuv2rgb => exact yuv2rgb_byte_of_reads hcfg (area_le_of_check rfl hc) hr ha
  | subsamp =>
    obtain ⟨ch, hch, ha⟩ := ha
    exact subsamp_byte_of_reads hcfg (area_le_of_check rfl hc) hch (fun a h => hr a ⟨ch, hch, h⟩) ha
  | dwtfwd f =>
    obtain ⟨ch, rfl⟩ := exists_fieldOf hw
    rw [effectOf_dwtfwd, effectOf_dwtfwd]
    exact dwtfwd_byte_of_reads hcfg (area_le_of_check rfl hc) (fun a h => hr a ⟨ch, ofField_fieldOf ch, h⟩) ha
  | dwtinv f =>
    obtain ⟨ch, hch, ha⟩ := ha
    obtain ⟨heven, -⟩ := hblock rfl
    simp only [effectOf, hch, Option.elim_some]
    exact dwtinv_byte_of_reads hcfg (area_le_of_check rfl hc) heven hr ha
  | embed f =>
    obtain ⟨ch, rfl⟩ := exists_fieldOf hw
    obtain ⟨-, hblk, -⟩ := hblock rfl
    obtain ⟨hpos, -⟩ := hlength rfl
    rw [effectOf_embed, effectOf_embed]
    exact embed_byte_of_reads hcfg (area_le_of_check rfl hc) hblk hpos (fun a h => hr a (.inl h))
      (fun a h => hr a (.inr h)) ch ha
  | extract f =>
    obtain ⟨ch, rfl⟩ := exists_fieldOf hw
    obtain ⟨-, hblk, -⟩ := hblock rfl
    obtain ⟨hpos, hmax⟩ := hlength rfl
    rw [effectOf_extract, effectOf_extract]
    exact extract_byte_of_reads hcfg hblk (by omega) (by omega) (fun a h => hr a (.inl h))
      (fun a h => hr a (.inr h)) ch ha
  | vclear => exact (vclear_byte t ha).trans (vclear_byte s ha).symm
  | tally =>
    obtain ⟨-, hmax⟩ := hlength rfl
    exact tally_byte_of_reads hcfg hmax hr ha
  | encode => exact absurd rfl hi.1
  | decode => exact absurd rfl hi.2

/-- Which bytes it writes is fixed by its read set too. -/
theorem writeSet_of_reads (hc : check i s = none) (hcfg : s.sameConfig t)
    (hr : ∀ a, readSet i s a → t.byte a = s.byte a) {a : ℕ} (ha : writeSet i t a) : writeSet i s a := by
  by_cases hembed : ∃ f, i = .embed f
  · obtain ⟨f, rfl⟩ := hembed
    obtain ⟨-, -, hblock, -⟩ := check_none hc
    obtain ⟨-, hblk, -⟩ := hblock rfl
    exact dominantBytes_of_reads hcfg hblk (fun a h => hr a (.inl h)) ha
  · rwa [writeSet_congr hcfg (not_exists.mp hembed)] at ha

/-- From another state with its configuration a command writes the same bytes, or, `EMBED` only, bytes that it reads. -/
theorem writeSet_or_readSet (hc : check i s = none) (hcfg : s.sameConfig t) {a : ℕ} (ha : writeSet i s a) :
    writeSet i t a ∨ readSet i s a := by
  by_cases hembed : ∃ f, i = .embed f
  · obtain ⟨f, rfl⟩ := hembed
    obtain ⟨-, -, hblock, -⟩ := check_none hc
    obtain ⟨-, hblk, -⟩ := hblock rfl
    exact .inr (.inl (blockBytes_of_dominantBytes hblk ha))
  · rw [writeSet_congr hcfg (not_exists.mp hembed)]
    exact .inl ha

/-- Equal flags stay equal: only `TALLY` changes one, `EMPTY`, and it computes it from the counters in use. -/
theorem effectOf_status_of_reads (hi : IsSimple i) (hcfg : s.sameConfig t)
    (hr : ∀ a, readSet i s a → t.byte a = s.byte a) (hstatus : t.status = s.status) :
    (effectOf i t).status = (effectOf i s).status := by
  by_cases htally : i = .tally
  · subst htally
    show (tallyEffect t).status = (tallyEffect s).status
    rw [tallyEffect_eq t, tallyEffect_eq s, setEmpty_status, setEmpty_status, someEmpty_of_reads hcfg hr]
    simp only [withMem_status, hstatus]
  · obtain ⟨-, ht⟩ := (onlyMem_effectOf htally hi.2).same t
    obtain ⟨-, hs⟩ := (onlyMem_effectOf htally hi.2).same s
    rw [ht, hs, hstatus]

end

/-- A completion adds to the effect only what is the same in both states. -/
theorem completions_agree {i : Instr} {s s' t t' : State} {W : ℕ → Prop} (hw : i.wellFormed = true)
    (hbusy : s.status.busy = true) (hstatus : s'.status = s.status) (ht : exec i s = .next t)
    (ht' : exec i s' = .next t') (hflags : (effectOf i s').status = (effectOf i s).status)
    (hbytes : ∀ a, W a → (effectOf i s').byte a = (effectOf i s).byte a) :
    (∀ a, W a → t'.byte a = t.byte a) ∧ t'.status = t.status := by
  rw [exec_completes hbusy hw] at ht
  rw [exec_completes (by rwa [hstatus]) hw] at ht'
  obtain rfl := Host.Outcome.next.inj ht
  obtain rfl := Host.Outcome.next.inj ht'
  rw [complete_status, complete_status, hflags]
  exact ⟨fun a ha => by rw [byte_complete, byte_complete, hbytes a ha], rfl⟩

/-- Settles O36: what each simple command writes, and `EMPTY`, are fixed by its read set. -/
theorem simpleCommandsDependOnReadSet : Obligations.SimpleCommandsDependOnReadSet := by
  intro i s s' t t' hencode hdecode hbusy hstatus hcfg hc hr ht ht'
  exact completions_agree (wellFormed_of_check hc) hbusy hstatus ht ht'
    (effectOf_status_of_reads ⟨hencode, hdecode⟩ hcfg hr hstatus)
    fun a ha => effectOf_byte_of_reads ⟨hencode, hdecode⟩ hc hcfg hr ha

/-! ### Agreement along a sequence of effects -/

/-- Two states with the configuration of `c` and the same flags that agree on the bytes of `P`. -/
structure AgreeOn (c : State) (P : ℕ → Prop) (s t : State) : Prop where
  left : c.sameConfig s
  right : c.sameConfig t
  status : t.status = s.status
  byte : ∀ a, P a → t.byte a = s.byte a

namespace AgreeOn

variable {c s t : State} {P Q : ℕ → Prop}

theorem mono (h : AgreeOn c P s t) (hQ : ∀ a, Q a → P a) : AgreeOn c Q s t :=
  { h with byte := fun a ha => h.byte a (hQ a ha) }

theorem sameConfig (h : AgreeOn c P s t) : s.sameConfig t := by
  obtain ⟨h1, h2, h3, h4, h5, h6, h7, h8⟩ := h.left
  have hright := h.right
  simp only [State.sameConfig, ← h1, ← h2, ← h3, ← h4, ← h5, ← h6, ← h7, ← h8] at hright
  exact hright

/-- A simple command that reads only bytes on which two states agree leaves them in agreement there and on the bytes
that it writes. -/
theorem effect (h : AgreeOn c P s t) {i : Instr} (hi : IsSimple i) (hc : check i c = none)
    (hr : ∀ a, readSet i c a → P a) : AgreeOn c (fun a => P a ∨ writeSet i c a) (effectOf i s) (effectOf i t) := by
  have hcs : check i s = none := (check_congr h.left i).trans hc
  have hct : check i t = none := (check_congr h.right i).trans hc
  have hreads (a : ℕ) (ha : readSet i s a) : t.byte a = s.byte a := h.byte a (hr a (readSet_congr h.left i ▸ ha))
  obtain ⟨⟨-, -, hconfig, -⟩, -⟩ := effectOf_same i s
  obtain ⟨⟨-, -, hconfig', -⟩, -⟩ := effectOf_same i t
  refine ⟨sameConfig_trans h.left hconfig, sameConfig_trans h.right hconfig',
    effectOf_status_of_reads hi h.sameConfig hreads h.status, fun a ha => ?_⟩
  by_cases hw : writeSet i s a
  · exact effectOf_byte_of_reads hi hcs h.sameConfig hreads hw
  · have hwt : ¬ writeSet i t a := fun hwt => hw (writeSet_of_reads hcs h.sameConfig hreads hwt)
    rw [effectOf_byte hct hwt, effectOf_byte hcs hw]
    exact h.byte a (ha.elim id fun hwc => hr a ((writeSet_or_readSet hc h.left hwc).resolve_left hw))

/-- Rounds over channels that keep an agreement on what the rounds need (`R`) and add agreement on `W`. -/
theorem rounds {g : State → Channel → State} {R : ℕ → Prop} {W : Channel → ℕ → Prop}
    (hg : ∀ (P : ℕ → Prop) (s t : State) (ch : Channel), AgreeOn c P s t → (∀ a, R a → P a) →
      AgreeOn c (fun a => P a ∨ W ch a) (g s ch) (g t ch))
    (l : List Channel) (h : AgreeOn c P s t) (hR : ∀ a, R a → P a) :
    AgreeOn c (fun a => P a ∨ ∃ ch ∈ l, W ch a) (l.foldl g s) (l.foldl g t) := by
  induction l generalizing P s t with
  | nil => exact h.mono fun a ha => ha.elim id fun ⟨ch, hch, _⟩ => absurd hch List.not_mem_nil
  | cons ch l ih =>
    refine (ih (hg P s t ch h hR) fun a ha => .inl (hR a ha)).mono fun a ha => ?_
    rcases ha with ha | ⟨ch', hch', ha⟩
    · exact .inl (.inl ha)
    · rcases List.mem_cons.mp hch' with rfl | hch'
      · exact .inl (.inr ha)
      · exact .inr ⟨ch', hch', ha⟩

/-- One round of `ENCODE` needs the planes and the payload in use; where it runs it makes the subbands
(45_codec.md R197 step 3). -/
theorem encodeChannel (hc : check .encode c = none) (h : AgreeOn c P s t) (ch : Channel)
    (hR : ∀ a, (∃ ch, c.planeBytes ch a) ∨ c.payloadBytes a → P a) :
    AgreeOn c (fun a => P a ∨ (0 < c.scale ch ∧ c.subbandBytes a)) (encodeChannel s ch) (encodeChannel t ch) := by
  obtain ⟨-, -, -, -, -, -, -, -, -, -, -, -, -, hscale, -⟩ := operands_congr h.left
  obtain ⟨-, -, -, -, -, -, -, -, -, -, -, -, -, hscale', -⟩ := operands_congr h.right
  unfold Machine.encodeChannel
  rw [hscale, hscale']
  split
  · have hfwd := h.effect (i := .dwtfwd (fieldOf ch)) ⟨nofun, nofun⟩
      (check_none_of_within (wellFormed_dwtfwd ch) (by cases ch <;> decide) hc)
      fun a ⟨ch', _, ha⟩ => hR a (.inl ⟨ch', planeBytes_of_regionBytes ha⟩)
    have hembed := hfwd.effect (i := .embed (fieldOf ch)) ⟨nofun, nofun⟩
      (check_none_of_within (wellFormed_embed ch) (by cases ch <;> decide) hc)
      fun a ha => ha.elim (fun ha => .inr (subbandBytes_of_blockBytes ha)) fun ha => .inl (hR a (.inr ha))
    have hinv := hembed.effect (i := .dwtinv (fieldOf ch)) ⟨nofun, nofun⟩
      (check_none_of_within (wellFormed_dwtinv ch) (by cases ch <;> decide) hc) fun a ha => .inl (.inr ha)
    simp only [effectOf_dwtfwd, effectOf_embed, effectOf_dwtinv] at hinv
    exact hinv.mono fun a ha => .inl (.inl (ha.imp_right And.right))
  · rename_i hoff
    exact h.mono fun a ha => ha.resolve_right fun hon => hoff hon.1

/-- One round of `DECODE` needs the planes and the counters; where it runs it makes the subbands (R200 step 3). -/
theorem decodeChannel (hc : check .decode c = none) (h : AgreeOn c P s t) (ch : Channel)
    (hR : ∀ a, (∃ ch, c.planeBytes ch a) ∨ allVoteBytes a → P a) :
    AgreeOn c (fun a => P a ∨ (0 < c.scale ch ∧ c.subbandBytes a)) (decodeChannel s ch) (decodeChannel t ch) := by
  obtain ⟨-, -, -, -, hlength, -⟩ := check_none hc
  obtain ⟨-, hmax⟩ := hlength rfl
  obtain ⟨-, -, -, -, -, -, -, -, -, -, -, -, -, hscale, -⟩ := operands_congr h.left
  obtain ⟨-, -, -, -, -, -, -, -, -, -, -, -, -, hscale', -⟩ := operands_congr h.right
  unfold Machine.decodeChannel
  rw [hscale, hscale']
  split
  · have hfwd := h.effect (i := .dwtfwd (fieldOf ch)) ⟨nofun, nofun⟩
      (check_none_of_within (wellFormed_dwtfwd ch) (by cases ch <;> decide) hc)
      fun a ⟨ch', _, ha⟩ => hR a (.inl ⟨ch', planeBytes_of_regionBytes ha⟩)
    have hextract := hfwd.effect (i := .extract (fieldOf ch)) ⟨nofun, nofun⟩
      (check_none_of_within (wellFormed_extract ch) (by cases ch <;> decide) hc)
      fun a ha => ha.elim (fun ha => .inr (subbandBytes_of_blockBytes ha))
        fun ha => .inl (hR a (.inr (allVoteBytes_of_voteBytes hmax ha)))
    simp only [effectOf_dwtfwd, effectOf_extract] at hextract
    exact hextract.mono fun a ha => .inl (ha.imp_right And.right)
  · rename_i hoff
    exact h.mono fun a ha => ha.resolve_right fun hon => hoff hon.1

end AgreeOn

/-- `ENCODE` makes the planes from the grid, then with the payload the subbands and the planes anew, then the grid
(R197). -/
theorem agreeOn_encode {s t : State} (hc : check .encode s = none)
    (h : AgreeOn s (fun a => s.gridBytes a ∨ s.payloadBytes a) s t) :
    AgreeOn s (writeSet .encode s) (effectOf .encode s) (effectOf .encode t) := by
  -- Each effect adds its write set on the right of the bytes agreed on, and the membership proofs name the place in it.
  have hyuv := h.effect (i := .rgb2yuv) ⟨nofun, nofun⟩ (check_none_of_within rfl (by decide) hc) fun a ha => .inl ha
  have hsub := hyuv.effect (i := .subsamp) ⟨nofun, nofun⟩ (check_none_of_within rfl (by decide) hc)
    fun a ⟨ch, _, ha⟩ => .inr ⟨ch, ha⟩
  have hchannels := AgreeOn.rounds (fun P s t ch hP hR => AgreeOn.encodeChannel hc hP ch hR) Channel.all hsub
    fun a ha => .inl (ha.elim (fun ha => .inr ha) fun ha => .inl (.inr ha))
  have hrgb := hchannels.effect (i := .yuv2rgb) ⟨nofun, nofun⟩ (check_none_of_within rfl (by decide) hc)
    fun a ha => .inl (.inl (.inr ha))
  refine hrgb.mono fun a ha => ?_
  rcases ha with ha | ha | ⟨⟨ch, hscale⟩, ha⟩
  · exact .inr ha
  · exact .inl (.inl (.inl (.inr ha)))
  · exact .inl (.inr ⟨ch, by cases ch <;> decide, hscale, ha⟩)

/-- `DECODE` makes the planes from the grid, clears the counters, makes the subbands and the votes from the planes, and
`POUT` and `EMPTY` from the counters (R200). -/
theorem agreeOn_decode {s t : State} (hc : check .decode s = none) (h : AgreeOn s s.gridBytes s t) :
    AgreeOn s (writeSet .decode s) (effectOf .decode s) (effectOf .decode t) := by
  obtain ⟨-, -, -, -, hlength, -⟩ := check_none hc
  obtain ⟨-, hmax⟩ := hlength rfl
  have hyuv := h.effect (i := .rgb2yuv) ⟨nofun, nofun⟩ (check_none_of_within rfl (by decide) hc) fun a ha => ha
  have hclear := hyuv.effect (i := .vclear) ⟨nofun, nofun⟩ (check_none_of_within rfl (by decide) hc)
    fun a ha => ha.elim
  have hchannels := AgreeOn.rounds (fun P s t ch hP hR => AgreeOn.decodeChannel hc hP ch hR) Channel.all hclear
    fun a ha => ha.imp_left .inr
  have htally := hchannels.effect (i := .tally) ⟨nofun, nofun⟩ (check_none_of_within rfl (by decide) hc)
    fun a ha => .inl (.inr (allVoteBytes_of_voteBytes hmax ha))
  refine htally.mono fun a ha => ?_
  rcases ha with ha | ⟨⟨ch, hscale⟩, ha⟩ | ha | ha
  · exact .inl (.inl (.inl (.inr ha)))
  · exact .inl (.inr ⟨ch, by cases ch <;> decide, hscale, ha⟩)
  · exact .inl (.inl (.inr ha))
  · exact .inr ha

/-- Settles O37: the grid and the payload fix the planes, the planes the subbands, and each step the next. -/
theorem encodeDependsOnGridAndPayload : Obligations.EncodeDependsOnGridAndPayload := by
  intro s s' t t' hbusy hstatus hcfg hc hr ht ht'
  have hagree := agreeOn_encode hc ⟨sameConfig_refl s, hcfg, hstatus, hr⟩
  exact completions_agree rfl hbusy hstatus ht ht' hagree.status hagree.byte

/-- Settles O38: the grid fixes the planes, the planes the subbands, and these the votes counted from 0. -/
theorem decodeDependsOnGrid : Obligations.DecodeDependsOnGrid := by
  intro s s' t t' hbusy hstatus hcfg hc hr ht ht'
  have hagree := agreeOn_decode hc ⟨sameConfig_refl s, hcfg, hstatus, hr⟩
  exact completions_agree rfl hbusy hstatus ht ht' hagree.status hagree.byte

end Sys2Proof.Machine
end
